-- ==== Sys2Proof/Word.lean ====
section
/-! DEFINITION. The byte, and the bit string the compressed stream is read as. -/

namespace Sys2Proof

/-- A byte is an unsigned integer of width 8 (00_scope.md R15). -/
abbrev Byte := BitVec 8

/-- A string of stream bits, the earliest bit first (00_scope.md R11). -/
abbrev Bits := List Bool

end Sys2Proof
end

