-- ==== Sys2Proof/Config.lean ====
section
/-! DEFINITION. The parameters of the implementation (00_scope.md R10) and the free values: what the spec
leaves unspecified. A free value is an opaque constant applied to the counter State.freeCount, so no proof
can see what it is (log 8). -/

namespace Sys2Proof.Config

/-- NMAX: the widest field one BW.WRITE or BR.READ may move (00_scope.md R10; log 20). -/
def nMax : Nat := 16

/-- WINDOW_INIT: what every window cell holds after initialisation (10_state.md R39, decision D5; log 9). -/
def windowInit : Byte := 0x00#8

/-- The number of window cells in hardware sized for the largest configuration (20_memory.md R79). -/
def windowCells : Nat := 32768

/-- MAXSIZE_W: the width of the signed operand of DEC.DECOMPRESS (00_scope.md R10; log 16). -/
def maxSizeW : Nat := 32

/-- DATA_LEN_W: the width of the length of one CMP.COMPRESS chunk (00_scope.md R10; log 16). -/
def dataLenW : Nat := 32

/-- A bit accumulator (BW.ACC or BR.ACC) after SinkError, SourceError or EndOfStream (R336, R337, R157). -/
opaque freeAcc : Nat → BitVec 7

/-- A bit count (BW.NBITS or BR.NBITS) after SinkError, SourceError or EndOfStream (R336, R337, R157). -/
opaque freeNbits : Nat → BitVec 3

/-- BW.FLUSHED after SinkError, BR.EOS after SourceError (R336, R337). -/
opaque freeFlag : Nat → Bool

/-- WIN.CUR after SinkError or SourceError (R336, R337). -/
opaque freeCursor : Nat → BitVec 15

/-- The window's cells after SinkError or SourceError, from index 0 on (R336, R337). -/
opaque freeWindow : Nat → List Byte

/-- CFG.WB after SinkError or SourceError (R336, R337). -/
opaque freeWb : Nat → BitVec 4

/-- CFG.SB after SinkError or SourceError (R336, R337). -/
opaque freeSb : Nat → BitVec 3

/-- CFG.LB after SinkError or SourceError (R336, R337). -/
opaque freeLb : Nat → BitVec 4

/-- OVF after SourceError (R337). -/
opaque freeOvf : Nat → List Byte

end Sys2Proof.Config
end

