-- ==== Sys2Proof/Syntax.lean ====
section
/-! DEFINITION. The instructions: the stream's header byte, tokens and padding, the operations of the two
engines, and the operations of the units (30_encoding.md R90 to R107). One constructor for each mnemonic of
spec/opcode_table.json; the rows of LITERAL and of REFERENCE differ only in the field widths that the header
fixes for the whole stream (R97, R98), so one constructor stands for all of them (log 17). -/

namespace Sys2Proof

/-- The two kinds of engine (10_state.md R20). -/
inductive Engine where
  | compressor
  | decompressor
  deriving DecidableEq, Repr

/-- The configuration registers CFG.WB, CFG.SB, CFG.LB of an engine (10_state.md R29): the parameters of one
stream, fixed until the next initialisation (00_scope.md R8). -/
structure Cfg where
  /-- window_bits: the window has 2^WB bytes. -/
  wb : BitVec 4
  /-- size_bits: the width of a reference's length field. -/
  sb : BitVec 3
  /-- literal_bits: the width of a literal's value field. -/
  lb : BitVec 4
  deriving DecidableEq, Repr

/-- The instructions. -/
inductive Instr where
  /-- HEADER: bits 7:5 W = WB - 8, 4:3 S = SB - 4, 2:1 L = LB - 5, bit 0 zero (R91). -/
  | header (w : BitVec 3) (s : BitVec 2) (l : BitVec 2)
  /-- LITERAL: the value field, LB bits (R95). -/
  | literal (v : Byte)
  /-- REFERENCE: absolute window index, WB bits, and length minus MINLEN, SB bits (R96). -/
  | reference (pos : BitVec 15) (n : BitVec 7)
  /-- PAD: k zero bits before the source is exhausted, 0 to 7 (R104). -/
  | pad (k : BitVec 3)
  /-- CMP.INIT(wb, sb, lb), cmp_cmd code 0 (R221, R222). A host that gives no operands gets 10, 4, 8 (R221, R8;
  92_eei_decisions.md D7): decodeCmp puts them in, so the instruction has its three operands always (log 32). -/
  | cmpInit (wb sb lb : Nat)
  /-- CMP.COMPRESS(data), cmp_cmd code 1 (R223). -/
  | cmpCompress (data : List Byte)
  /-- CMP.FLUSH, cmp_cmd code 2 (R232). -/
  | cmpFlush
  /-- CMP.reserved, cmp_cmd code 3 (R345). -/
  | cmpReserved
  /-- DEC.INIT, dec_cmd code 0 (R260). -/
  | decInit
  /-- DEC.DECOMPRESS(max_size), dec_cmd code 1; negative means no limit, and a host that omits it gives -1
  (R261). -/
  | decDecompress (maxSize : Int)
  /-- DEC.reserved, dec_cmd codes 2 and 3: x is the code's low bit (R345). -/
  | decReserved (x : BitVec 1)
  /-- BW.WRITE(value, n) (R131). -/
  | bwWrite (value n : Nat)
  /-- BW.FLUSH (R134). -/
  | bwFlush
  /-- BR.READ(n) (R151). -/
  | brRead (n : Nat)
  /-- WIN.WRITE_BYTE(b) on the window of engine e (R171). -/
  | winWriteByte (e : Engine) (b : Nat)
  /-- WIN.WRITE_BYTES(seq) on the window of engine e (R172). -/
  | winWriteBytes (e : Engine) (seq : List Byte)
  /-- WIN.SEARCH(pattern, start) on the compressor's window (R174; log 29). -/
  | winSearch (pattern : List Byte) (start : Nat)
  /-- WIN.READ_SPAN(pos, len) on the decompressor's window (R178; log 29). -/
  | winReadSpan (pos len : Nat)
  /-- HDR.ENCODE(wb, sb, lb) (R200). -/
  | hdrEncode (wb sb lb : Nat)
  /-- HDR.DECODE(h) (R201). -/
  | hdrDecode (h : Byte)
  deriving DecidableEq, Repr

/-- The two token kinds (R94): there are no others. -/
inductive Token where
  | literal (v : Byte)
  | reference (pos : BitVec 15) (n : BitVec 7)
  deriving DecidableEq, Repr

/-- The operand lines of CMP.INIT on cmp_cmd (R106). -/
structure InitOperands where
  wb : BitVec 4
  sb : BitVec 3
  lb : BitVec 4
  deriving DecidableEq, Repr

/-- One transaction on the compressor's command port cmp_cmd: the code and the operands (R106). init is none where
the host gives CMP.INIT no operands, which R221 allows and R106 has no code for (DESIGN CHOICE, log 32). -/
structure CmpCmd where
  code : BitVec 2
  init : Option InitOperands
  data : List Byte
  deriving DecidableEq, Repr

/-- One transaction on the decompressor's command port dec_cmd: the code and the signed operand (R106). -/
structure DecCmd where
  code : BitVec 2
  maxSize : BitVec 32
  deriving DecidableEq, Repr

/-- What carries an encoded instruction: the stream's first byte, the stream's bits after it, or a command
port. The operations of the units have no code because no port carries them (R107). -/
inductive Wire where
  | header (h : Byte)
  | stream (bits : Bits)
  | cmp (c : CmpCmd)
  | dec (d : DecCmd)
  deriving DecidableEq, Repr

/-- Why bits are no instruction. -/
inductive DecodeError where
  /-- Header bit 0 is 1 (R99, R201). -/
  | reservedHeaderBit
  /-- The stream ends inside a token and what is left is not padding (R270). -/
  | truncatedToken
  deriving DecidableEq, Repr

end Sys2Proof
end

