-- ==== Sys2Proof/Decode.lean ====
section
/-! DEFINITION. Bit fields, the header codec and the derived constants, the decoder and the encoder
(30_encoding.md, 43_header_codec.md). -/

namespace Sys2Proof

/-! ## Bit fields, most significant bit first (00_scope.md R11) -/

/-- The n bits of low_n(v), most significant first. -/
def fieldBits : Nat → Nat → Bits
  | 0, _ => []
  | n + 1, v => v.testBit n :: fieldBits n v

/-- A bit string as an unsigned integer, its first bit the most significant. -/
def bitsValue : Bits → Nat
  | [] => 0
  | b :: bs => b.toNat * 2 ^ bs.length + bitsValue bs

/-- The bits of a byte sequence in stream order: bit 7 of a byte comes first (20_memory.md R64). -/
def bytesBits (bytes : List Byte) : Bits :=
  bytes.flatMap fun b => fieldBits 8 b.toNat

/-- Up to 8 bits as one byte, zeros after them (40_bit_writer.md R134). -/
def packByte (bits : Bits) : Byte :=
  BitVec.ofNat 8 (bitsValue (bits ++ List.replicate (8 - bits.length) false))

/-- A bit string as bytes, zero bits up to the next byte boundary (30_encoding.md R104). -/
def packBits (bits : Bits) : List Byte :=
  (List.range ((bits.length + 7) / 8)).map fun i => packByte ((bits.drop (8 * i)).take 8)

/-- The field of n bits that starts a bit string, and what follows it. -/
def takeField (n : Nat) (bits : Bits) : Option (Nat × Bits) :=
  if bits.length < n then none else some (bitsValue (bits.take n), bits.drop n)

/-! ## Derived constants (R204 to R206) -/

/-- C = 2^WB, the window capacity (R206). -/
def Cfg.cap (c : Cfg) : Nat := 2 ^ c.wb.toNat

/-- MINLEN = floor((WB + SB) / (LB + 1)) + 1 (R204; 90_conflicts.md C2: the formula is the rule). -/
def Cfg.minLen (c : Cfg) : Nat := (c.wb.toNat + c.sb.toNat) / (c.lb.toNat + 1) + 1

/-- MAXLEN = MINLEN + 2^SB - 1 (R205). -/
def Cfg.maxLen (c : Cfg) : Nat := c.minLen + 2 ^ c.sb.toNat - 1

/-! ## The header codec (R200, R201) -/

/-- The header-encodable ranges (R8, R200). -/
def configLegal (wb sb lb : Nat) : Bool :=
  decide (8 ≤ wb) && decide (wb ≤ 15) && decide (4 ≤ sb) && decide (sb ≤ 7) && decide (5 ≤ lb) && decide (lb ≤ 8)

/-- The configuration registers hold legal values (R29). -/
def Cfg.legal (c : Cfg) : Bool := configLegal c.wb.toNat c.sb.toNat c.lb.toNat

/-- Three operands as register contents (widths: R29). -/
def Cfg.ofNats (wb sb lb : Nat) : Cfg :=
  { wb := BitVec.ofNat 4 wb, sb := BitVec.ofNat 3 sb, lb := BitVec.ofNat 4 lb }

/-- HDR.ENCODE's result for legal operands (R200). -/
def headerByte (wb sb lb : Nat) : Byte :=
  BitVec.ofNat 8 ((wb - 8) * 32 + (sb - 4) * 8 + (lb - 5) * 2 + 0)

/-- The configuration a header's three fields stand for (R91). -/
def headerCfg (w : BitVec 3) (s : BitVec 2) (l : BitVec 2) : Cfg :=
  Cfg.ofNats (w.toNat + 8) (s.toNat + 4) (l.toNat + 5)

/-- The fields W, S, L of a header byte, none where bit 0 is 1 (R91, R201). -/
def headerFields (h : Byte) : Option (BitVec 3 × BitVec 2 × BitVec 2) :=
  if h.getLsbD 0 then none else some (h.extractLsb' 5 3, h.extractLsb' 3 2, h.extractLsb' 1 2)

/-- A header byte as an instruction. -/
def decodeHeader (h : Byte) : Except DecodeError Instr :=
  match headerFields h with
  | some (w, s, l) => .ok (.header w s l)
  | none => .error .reservedHeaderBit

/-- HDR.DECODE: the configuration of a header byte, none where bit 0 is 1 (R201). -/
def decodeConfig (h : Byte) : Option Cfg :=
  match headerFields h with
  | some (w, s, l) => some (headerCfg w s l)
  | none => none

/-! ## Tokens (R94 to R98) -/

/-- A token as an instruction. -/
def Token.instr : Token → Instr
  | .literal v => .literal v
  | .reference pos n => .reference pos n

/-- The literal token of a value field (R95). -/
def literalOfField (v : Nat) : Token := .literal (BitVec.ofNat 8 v)

/-- The reference token of a position field and a length field (R96). -/
def referenceOfFields (pos n : Nat) : Token := .reference (BitVec.ofNat 15 pos) (BitVec.ofNat 7 n)

/-- The token that starts a bit string, and the bits after it; none where the string ends first: the flag, then
LB bits for flag 1, WB and SB bits for flag 0 (R94 to R96, R264). -/
def takeToken (c : Cfg) (bits : Bits) : Option (Token × Bits) :=
  match bits with
  | [] => none
  | true :: bits =>
    match takeField c.lb.toNat bits with
    | some (v, rest) => some (literalOfField v, rest)
    | none => none
  | false :: bits =>
    match takeField c.wb.toNat bits with
    | some (pos, rest) =>
      match takeField c.sb.toNat rest with
      | some (n, rest) => some (referenceOfFields pos n, rest)
      | none => none
    | none => none

/-- What is left when no token is complete: at most 7 zero bits are padding (R104); anything else is a token
cut short. (The machine does not tell the two apart: R153.) -/
def decodeTail (bits : Bits) : Except DecodeError Instr :=
  if bits.length ≤ 7 ∧ bits.all (fun b => !b) then .ok (.pad (BitVec.ofNat 3 bits.length))
  else .error .truncatedToken

/-- The next instruction of the stream after the header, from all the bits the source still holds. -/
def decodeStream (c : Cfg) (bits : Bits) : Except DecodeError (Instr × Bits) :=
  match takeToken c bits with
  | some (t, rest) => .ok (t.instr, rest)
  | none => (decodeTail bits).map fun i => (i, [])

/-- A token's or the padding's bits, none for the other instructions (R95, R96, R104). -/
def streamBits (c : Cfg) (i : Instr) : Option Bits :=
  match i with
  | .literal v => some (true :: fieldBits c.lb.toNat v.toNat)
  | .reference pos n => some (false :: (fieldBits c.wb.toNat pos.toNat ++ fieldBits c.sb.toNat n.toNat))
  | .pad k => some (List.replicate k.toNat false)
  | _ => none

/-! ## The command ports (R106) -/

/-- What a host that gives CMP.INIT no operands gets: 10, 4, 8 (R221, R8; 92_eei_decisions.md D7). -/
def defaultOperands : InitOperands := { wb := 10, sb := 4, lb := 8 }

/-- The operands of a CMP.INIT transaction: the host's, or the defaults where it gives none (R221; log 32). -/
def CmpCmd.operands (c : CmpCmd) : InitOperands := c.init.getD defaultOperands

/-- The command of a cmp_cmd transaction: every code has a meaning or is reserved. -/
def decodeCmp (c : CmpCmd) : Instr :=
  match c.code.toNat with
  | 0 => .cmpInit c.operands.wb.toNat c.operands.sb.toNat c.operands.lb.toNat
  | 1 => .cmpCompress c.data
  | 2 => .cmpFlush
  | _ => .cmpReserved

/-- The command of a dec_cmd transaction: codes 2 and 3 are reserved. -/
def decodeDec (d : DecCmd) : Instr :=
  match d.code.toNat with
  | 0 => .decInit
  | 1 => .decDecompress d.maxSize.toInt
  | _ => .decReserved (d.code.extractLsb' 0 1)

/-- A cmp_cmd transaction without operands: for CMP.INIT its defaults, for CMP.COMPRESS no byte. -/
def cmpWord (code : BitVec 2) : CmpCmd := { code := code, init := none, data := [] }

/-! ## The decoder and the encoder -/

/-- The instruction on a wire, under the configuration that the stream's header has fixed (R98). -/
def decode (c : Cfg) : Wire → Except DecodeError Instr
  | .header h => decodeHeader h
  | .stream bits => (decodeStream c bits).map fun r => r.1
  | .cmp w => .ok (decodeCmp w)
  | .dec w => .ok (decodeDec w)

/-- The wire of an instruction, from the same tables; none for a unit operation, which has no code (R107). -/
def encode (c : Cfg) (i : Instr) : Option Wire :=
  match i with
  | .header w s l => some (.header (headerByte (w.toNat + 8) (s.toNat + 4) (l.toNat + 5)))
  | .literal v => (streamBits c (.literal v)).map .stream
  | .reference pos n => (streamBits c (.reference pos n)).map .stream
  | .pad k => (streamBits c (.pad k)).map .stream
  | .cmpInit wb sb lb =>
    some (.cmp { cmpWord 0 with init := some { wb := BitVec.ofNat 4 wb, sb := BitVec.ofNat 3 sb, lb := BitVec.ofNat 4 lb } })
  | .cmpCompress data => some (.cmp { cmpWord 1 with data := data })
  | .cmpFlush => some (.cmp (cmpWord 2))
  | .cmpReserved => some (.cmp (cmpWord 3))
  | .decInit => some (.dec { code := 0, maxSize := 0 })
  | .decDecompress m => some (.dec { code := 1, maxSize := BitVec.ofInt 32 m })
  | .decReserved x => some (.dec { code := 1#1 ++ x, maxSize := 0 })
  | .bwWrite _ _ => none
  | .bwFlush => none
  | .brRead _ => none
  | .winWriteByte _ _ => none
  | .winWriteBytes _ _ => none
  | .winSearch _ _ => none
  | .winReadSpan _ _ => none
  | .hdrEncode _ _ _ => none
  | .hdrDecode _ => none

/-! ## Words of the opcode table -/

/-- The wire that a word of spec/opcode_table.json stands for, and the configuration it is read under. The
table does not say which port a word is on nor which configuration is in force, and its rows share words; this
function fixes one reading for each (log 14): a word of one byte below 4 is a cmp_cmd code without operands; from 0x20, 0x40 and
0x80 on a literal of LB 5, 6 and 7; the rest of the bytes are headers. A word of two bytes with bit 8 its
highest is a literal of LB 8; any other below 2^15 the 16-bit reference of (10, 5); a word of three bytes below
2^22 the 23-bit reference of (15, 7). -/
def tableWire (nbits w : Nat) : Option (Cfg × Wire) :=
  if nbits ≤ 8 then
    if w < 4 then some (Cfg.ofNats 10 4 8, .cmp (cmpWord (BitVec.ofNat 2 w)))
    else if w < 0x20 then some (Cfg.ofNats 10 4 8, .header (BitVec.ofNat 8 w))
    else if w < 0x40 then some (Cfg.ofNats 10 4 5, .stream (fieldBits 6 w))
    else if w < 0x80 then some (Cfg.ofNats 10 4 6, .stream (fieldBits 7 w))
    else if w < 0x100 then some (Cfg.ofNats 10 4 7, .stream (fieldBits 8 w))
    else none
  else if nbits ≤ 16 then
    if 0x100 ≤ w ∧ w < 0x200 then some (Cfg.ofNats 10 4 8, .stream (fieldBits 9 w))
    else if w < 0x8000 then some (Cfg.ofNats 10 5 8, .stream (fieldBits 16 w))
    else none
  else if nbits ≤ 24 then
    if w < 0x400000 then some (Cfg.ofNats 15 7 8, .stream (fieldBits 23 w)) else none
  else none

/-- The instruction the decoder reads from a word of the opcode table (log 14). -/
def decodeTableWord (nbits w : Nat) : Option Instr :=
  match tableWire nbits w with
  | some (c, wire) =>
    match decode c wire with
    | .ok i => some i
    | .error _ => none
  | none => none

end Sys2Proof
end

