-- ==== Sys2Proof/Machine/State.lean ====
section
/-! DEFINITION. The state of the machine: one compressor engine, one decompressor engine (10_state.md R20 to
R34), and, as plain data beside them, what the outside world will do: the sink's and the source's answers and
the host's transactions (10_state.md R37). -/

namespace Sys2Proof.Machine

/-- A window's cells: (index, byte) pairs, indices strictly rising, no byte equal to Config.windowInit, which
is what an unlisted index reads as (log 9). -/
abbrev Memory := List Host.Cell

/-- BW.ACC, BW.NBITS, BW.FLUSHED (R21, R22). -/
structure BitWriter where
  acc : BitVec 7
  nbits : BitVec 3
  flushed : Bool
  deriving DecidableEq, Repr

/-- BR.ACC, BR.NBITS, BR.EOS (R23, R24). -/
structure BitReader where
  acc : BitVec 7
  nbits : BitVec 3
  eos : Bool
  deriving DecidableEq, Repr

/-- WIN.BUF and WIN.CUR (R25, R26), in hardware sized for WB = 15 (20_memory.md R79). -/
structure Window where
  buf : Memory
  cur : BitVec 15
  deriving DecidableEq, Repr

/-- CMP.STATE (R31). -/
inductive CmpState where
  | unconfigured
  | active
  | flushed
  | faulted
  deriving DecidableEq, Repr

/-- DEC.STATE (R32). -/
inductive DecState where
  | hdrPending
  | midStream
  | finished
  | faulted
  deriving DecidableEq, Repr

/-- The values of CMP.FAULT and DEC.FAULT (R33): the fault codes of 60_exceptions.md R331. -/
inductive FaultCode where
  | none
  | excessBits
  | endOfStream
  | unsupportedHeader
  | invalidConfig
  | sinkError
  | sourceError
  deriving DecidableEq, Repr

/-- A fault with the information R331 records. -/
inductive FaultInfo where
  /-- ExcessBitsError: the offending byte and its index CMP.IPOS in the chunk. -/
  | excessBits (b : Byte) (ipos : Nat)
  | endOfStream
  /-- UnsupportedHeader: the header byte. -/
  | unsupportedHeader (h : Byte)
  /-- InvalidConfig: the three operands. -/
  | invalidConfig (wb sb lb : Nat)
  | sinkError
  | sourceError
  deriving DecidableEq, Repr

/-- What an operation answers when it is not refused (00_scope.md R14): its result or its fault. -/
inductive Response where
  /-- No operation has answered since reset. -/
  | idle
  /-- ok without a value. -/
  | ok
  /-- BR.READ's unsigned integer. -/
  | value (v : Nat)
  /-- HDR.ENCODE's byte. -/
  | header (h : Byte)
  /-- HDR.DECODE's triple. -/
  | config (c : Cfg)
  /-- WIN.SEARCH's index. -/
  | found (i : Nat)
  /-- WIN.SEARCH's NOT_FOUND. -/
  | notFound
  /-- DEC.DECOMPRESS's and WIN.READ_SPAN's byte sequence. -/
  | bytes (out : List Byte)
  /-- The operation raised a fault. -/
  | fault (f : FaultInfo)
  deriving DecidableEq, Repr

/-- The compressor engine (R20). -/
structure Compressor where
  bw : BitWriter
  win : Window
  cfg : Cfg
  state : CmpState
  fault : FaultCode
  deriving DecidableEq, Repr

/-- The decompressor engine (R20), OVF oldest byte first (R34). -/
structure Decompressor where
  br : BitReader
  win : Window
  cfg : Cfg
  ovf : List Byte
  state : DecState
  fault : FaultCode
  deriving DecidableEq, Repr

/-- The sink's answer to one SinkPut (20_memory.md R66, R67). -/
inductive SinkAnswer where
  | accepts
  | fails
  deriving DecidableEq, Repr

/-- The sink: the bytes it has accepted, oldest first, and its answers to the coming accesses; after those it
accepts every byte (log 2). -/
structure Sink where
  taken : List Byte
  answers : List SinkAnswer
  deriving DecidableEq, Repr

/-- The source's answer to one SourceGet (20_memory.md R68, R69). -/
inductive SourceAnswer where
  | byte (b : Byte)
  | exhausted
  | fails
  deriving DecidableEq, Repr

/-- The source: its answers to the coming accesses, after which it answers EXHAUSTED (log 3), and how many
bytes it has delivered to the engine since the engine's initialisation (10_state.md R27; log 30). -/
structure Source where
  answers : List SourceAnswer
  delivered : Nat
  deriving DecidableEq, Repr

/-- A DEC.DECOMPRESS in progress: its limit, none for no limit, and out (45_decompressor.md R261; log 11). -/
structure Pull where
  limit : Option Nat
  out : List Byte
  deriving DecidableEq, Repr

/-- What the host does next: a transaction on a command port (R106) or a hardware reset of an engine (R370;
log 24). -/
inductive HostEvent where
  | cmp (c : CmpCmd)
  | dec (d : DecCmd)
  | resetCmp
  | resetDec
  deriving DecidableEq, Repr

/-- The machine. -/
structure State where
  cmp : Compressor
  dec : Decompressor
  sink : Sink
  source : Source
  /-- The DEC.DECOMPRESS in progress; none between operations. -/
  pull : Option Pull
  /-- The host's coming events, oldest first (log 15). -/
  pending : List HostEvent
  /-- The response of the last operation (log 18). -/
  resp : Response
  /-- The number of the next free value (log 8). -/
  freeCount : Nat
  deriving DecidableEq, Repr

/-- Why the machine stops with no next state. The faults of the hardware (R331) are not here: they are taken,
as R340 describes, and the machine goes on (log 5). -/
inductive Fault where
  /-- Raised by DEC.DECOMPRESS if its loop's step bound is met before the loop ends; the bound exceeds what
  the source can feed, so no state raises it (log 27). Safe. -/
  | pullUnfinished
  deriving DecidableEq, Repr

/-- Why the block has no meaning for an operation (60_exceptions.md R345); all are safe. -/
inductive Refusal where
  /-- Raised by Machine/Dispatch.lean for an instruction with no meaning yet. Safe. -/
  | notModelled (mnemonic : String)
  /-- BadState: CMP.COMPRESS or CMP.FLUSH when CMP.STATE is not ACTIVE, DEC.DECOMPRESS when DEC.STATE is
  FAULTED (R345), a header when DEC.STATE is not HDR_PENDING (R93; log 13). Safe. -/
  | badState
  /-- UseAfterFlush: BW.WRITE or BW.FLUSH when BW.FLUSHED = 1 (R345). Safe. -/
  | useAfterFlush
  /-- BadWidth: BW.WRITE or BR.READ with n > 16 (R345). Safe. -/
  | badWidth
  /-- BadOperand: an operand of the Window unit out of its range (R345). Safe. -/
  | badOperand
  /-- BadCommand: a reserved code on cmp_cmd or dec_cmd (R345). Safe. -/
  | badCommand
  /-- DEC.INIT or DEC.DECOMPRESS while a DEC.DECOMPRESS is in progress (R377, 93_implementation_defined.md
  U10; log 21). Safe. -/
  | operationInProgress
  /-- A header, a token or padding while no DEC.DECOMPRESS is in progress (R261, R262; log 13). Safe. -/
  | noOperation
  deriving DecidableEq, Repr

/-- The configuration registers' reset value, D0's defaults (R39, decision D7). -/
def Cfg.reset : Cfg := { wb := 10#4, sb := 4#3, lb := 8#4 }

/-- A window at reset: every cell Config.windowInit, cursor 0 (R39). -/
def Window.reset : Window := { buf := [], cur := 0#15 }

/-- The compressor engine at reset (R39). -/
def Compressor.reset : Compressor :=
  { bw := { acc := 0#7, nbits := 0#3, flushed := false }, win := Window.reset, cfg := Cfg.reset,
    state := .unconfigured, fault := .none }

/-- The decompressor engine at reset (R39). -/
def Decompressor.reset : Decompressor :=
  { br := { acc := 0#7, nbits := 0#3, eos := false }, win := Window.reset, cfg := Cfg.reset, ovf := [],
    state := .hdrPending, fault := .none }

/-- The machine right after reset: both engines at the values of R39; nothing has reached the sink, the source
is exhausted, the host has issued nothing (log 22). -/
def State.reset : State :=
  { cmp := Compressor.reset, dec := Decompressor.reset, sink := { taken := [], answers := [] },
    source := { answers := [], delivered := 0 }, pull := none, pending := [], resp := .idle, freeCount := 0 }

end Sys2Proof.Machine
end

