-- ==== Sys2Proof/Machine/Ops.lean ====
section
/-! DEFINITION. The named operations over memory, the engines' registers, the sink and the source; the three
outcomes of an operation inside an engine; taking a fault. -/

namespace Sys2Proof.Machine

/-! ## Memory: the cells of a window (20_memory.md R60, R72) -/

/-- The canonical form: indices strictly rising, no cell equal to what an unlisted index reads as. -/
abbrev Memory.wf (m : Memory) : Prop :=
  m.Pairwise (fun x y => x.1 < y.1) ∧ ∀ c ∈ m, c.2 ≠ Config.windowInit

/-- The byte at an index; an unlisted index holds Config.windowInit (R39). -/
def Memory.read : Memory → Nat → Byte
  | [], _ => Config.windowInit
  | (k, v) :: rest, a => if a = k then v else Memory.read rest a

/-- A cell in front of later cells, left out where it holds what an unlisted index reads as. -/
def Memory.cons (a : Nat) (b : Byte) (rest : Memory) : Memory :=
  if b = Config.windowInit then rest else (a, b) :: rest

/-- Writing one byte keeps the canonical form. -/
def Memory.write : Memory → Nat → Byte → Memory
  | [], a, b => Memory.cons a b []
  | (k, v) :: rest, a, b =>
    if a < k then Memory.cons a b ((k, v) :: rest)
    else if a = k then Memory.cons a b rest
    else (k, v) :: Memory.write rest a b

/-- Every index below c back to Config.windowInit; the others as they were (R372; log 10). -/
def Memory.clearBelow (m : Memory) (c : Nat) : Memory := m.filter fun cell => decide (c ≤ cell.1)

/-- Bytes written at successive indices. -/
def Memory.load (m : Memory) (a : Nat) : List Byte → Memory
  | [] => m
  | b :: bs => Memory.load (Memory.write m a b) (a + 1) bs

/-! ## The window of capacity c (42_window.md) -/

/-- WIN.WRITE_BYTE: store at the cursor and advance it modulo C (R171). -/
def Window.writeByte (c : Nat) (w : Window) (b : Byte) : Window :=
  { buf := Memory.write w.buf w.cur.toNat b, cur := BitVec.ofNat 15 ((w.cur.toNat + 1) % c) }

/-- WIN.WRITE_BYTES: WIN.WRITE_BYTE of each byte in order (R172). -/
def Window.writeBytes (c : Nat) (w : Window) (seq : List Byte) : Window :=
  seq.foldl (Window.writeByte c) w

/-- The pattern stands at index i and on in the linear buffer. -/
def Window.matchesAt (m : Memory) (i : Nat) : List Byte → Bool
  | [] => true
  | b :: bs => decide (Memory.read m i = b) && Window.matchesAt m (i + 1) bs

/-- WIN.SEARCH: the least index from start on at which the pattern lies wholly in the linear buffer (R174,
R175); none is NOT_FOUND. -/
def Window.search (c : Nat) (w : Window) (pattern : List Byte) (start : Nat) : Option Nat :=
  (List.range' start (c + 1 - pattern.length - start)).find? fun i => Window.matchesAt w.buf i pattern

/-- WIN.READ_SPAN: len bytes from pos on, the index wrapping modulo C (R178). -/
def Window.readSpan (c : Nat) (w : Window) (pos len : Nat) : List Byte :=
  (List.range len).map fun k => Memory.read w.buf ((pos + k) % c)

/-- A new window: the cells below C at Config.windowInit, the cursor at 0 (R222, R262). -/
def Window.fresh (c : Nat) (w : Window) : Window := { buf := Memory.clearBelow w.buf c, cur := 0#15 }

/-! ## Engines and their registers -/

/-- The window of an engine (R20: each has its own). -/
def State.window (s : State) : Engine → Window
  | .compressor => s.cmp.win
  | .decompressor => s.dec.win

/-- The configuration registers of an engine. -/
def State.cfgOf (s : State) : Engine → Cfg
  | .compressor => s.cmp.cfg
  | .decompressor => s.dec.cfg

/-- The state with another window in an engine. -/
def State.setWindow (s : State) (e : Engine) (w : Window) : State :=
  match e with
  | .compressor => { s with cmp := { s.cmp with win := w } }
  | .decompressor => { s with dec := { s.dec with win := w } }

/-- Bytes appended to an engine's window (R171, R172). -/
def State.appendWindow (s : State) (e : Engine) (seq : List Byte) : State :=
  s.setWindow e (Window.writeBytes (s.cfgOf e).cap (s.window e) seq)

/-- The state with other Bit Writer registers. -/
def State.setBw (s : State) (bw : BitWriter) : State := { s with cmp := { s.cmp with bw := bw } }

/-- The state with other Bit Reader registers. -/
def State.setBr (s : State) (br : BitReader) : State := { s with dec := { s.dec with br := br } }

/-- The state with another response. -/
def State.respond (s : State) (r : Response) : State := { s with resp := r }

/-! ## Taking a fault (60_exceptions.md R340)

There is no return from a fault (R342): CMP.INIT, DEC.INIT and hardware reset are what a FAULTED engine
accepts, and their own meanings say what they do. -/

/-- The code of a fault (R331). -/
def FaultInfo.code : FaultInfo → FaultCode
  | .excessBits _ _ => .excessBits
  | .endOfStream => .endOfStream
  | .unsupportedHeader _ => .unsupportedHeader
  | .invalidConfig _ _ _ => .invalidConfig
  | .sinkError => .sinkError
  | .sourceError => .sourceError

/-- Configuration registers with unspecified values (R336, R337). -/
def Cfg.unspecified (k : Nat) : Cfg :=
  { wb := Config.freeWb k, sb := Config.freeSb k, lb := Config.freeLb k }

/-- A window with unspecified contents and cursor (R336, R337). -/
def Window.unspecified (k : Nat) : Window :=
  { buf := Memory.load [] 0 ((Config.freeWindow k).take Config.windowCells), cur := Config.freeCursor k }

/-- A compressor engine of which only the state and fault registers are specified (R336). -/
def Compressor.unspecified (k : Nat) : Compressor :=
  { bw := { acc := Config.freeAcc k, nbits := Config.freeNbits k, flushed := Config.freeFlag k },
    win := Window.unspecified k, cfg := Cfg.unspecified k, state := .faulted, fault := .sinkError }

/-- A decompressor engine of which only the state and fault registers are specified (R337). -/
def Decompressor.unspecified (k : Nat) : Decompressor :=
  { br := { acc := Config.freeAcc k, nbits := Config.freeNbits k, eos := Config.freeFlag k },
    win := Window.unspecified k, cfg := Cfg.unspecified k, ovf := Config.freeOvf k, state := .faulted,
    fault := .sourceError }

/-- Fault entry: the response is the fault, the engine's state register becomes FAULTED and its fault register
the code. After the precise faults everything else stands as the rule that raises left it; after SinkError and
SourceError every other register, the window and OVF of the engine are unspecified (R336, R337, R340). -/
def enterFault (f : FaultInfo) (s : State) : State :=
  match f with
  | .excessBits _ _ =>
    { s with cmp := { s.cmp with state := .faulted, fault := f.code }, resp := .fault f }
  | .invalidConfig _ _ _ =>
    { s with cmp := { s.cmp with state := .faulted, fault := f.code }, resp := .fault f }
  | .sinkError =>
    { s with cmp := Compressor.unspecified s.freeCount, resp := .fault f, freeCount := s.freeCount + 1 }
  | .endOfStream =>
    { s with dec := { s.dec with state := .faulted, fault := f.code }, pull := none, resp := .fault f }
  | .unsupportedHeader _ =>
    { s with dec := { s.dec with state := .faulted, fault := f.code }, pull := none, resp := .fault f }
  | .sourceError =>
    { s with dec := Decompressor.unspecified s.freeCount, pull := none, resp := .fault f,
             freeCount := s.freeCount + 1 }

/-! ## The three outcomes inside an engine (00_scope.md R14) -/

/-- ok with a value, a fault, or refused; a fault carries the state it leaves. -/
inductive Result (α : Type) where
  | ok (a : α) (s : State)
  | fault (f : FaultInfo) (s : State)
  | refused (r : Refusal)

/-- Go on after ok; a fault and a refusal end the operation (R339). -/
def Result.bind {α β : Type} (x : Result α) (k : α → State → Result β) : Result β :=
  match x with
  | .ok a s => k a s
  | .fault f s => .fault f s
  | .refused r => .refused r

/-- The outcome of an operation that the host or a test bench issued: its response is its result or its fault;
a refused operation has no next state (R345; log 4). -/
def Result.answer {α : Type} (x : Result α) (reply : α → Response) : Host.Outcome State Fault Refusal :=
  match x with
  | .ok a s => .next (s.respond (reply a))
  | .fault f s => .next (s.respond (.fault f))
  | .refused r => .refused r

/-! ## The sink and the source (20_memory.md R66 to R69) -/

/-- SinkPut(b): the sink accepts the byte, or fails and the operation ends with SinkError (R66, R67, R336). -/
def sinkPut (b : Byte) (s : State) : Result Unit :=
  match s.sink.answers with
  | [] => .ok () { s with sink := { s.sink with taken := s.sink.taken ++ [b] } }
  | .accepts :: rest => .ok () { s with sink := { taken := s.sink.taken ++ [b], answers := rest } }
  | .fails :: rest =>
    .fault .sinkError (enterFault .sinkError { s with sink := { s.sink with answers := rest } })

/-- SourceGet(): the source's next answer and the state after it (R68, R69). -/
def sourceGet (s : State) : SourceAnswer × State :=
  match s.source.answers with
  | [] => (.exhausted, s)
  | .byte b :: rest => (.byte b, { s with source := { answers := rest, delivered := s.source.delivered + 1 } })
  | .exhausted :: rest => (.exhausted, { s with source := { s.source with answers := rest } })
  | .fails :: rest => (.fails, { s with source := { s.source with answers := rest } })

end Sys2Proof.Machine
end

