-- ==== Sys2Proof/Machine/Flags.lean ====
section
/-! DEFINITION. The flags and status registers: BW.FLUSHED, BR.EOS, finished, faulted (10_state.md R28), and
the codes of the status registers (R31, R32, R331). -/

namespace Sys2Proof.Machine

/-- BR.EOS becomes 1; BR.ACC and BR.NBITS are unspecified from then on (R153, R157; log 8). -/
def State.markEos (s : State) : State :=
  { s with
    dec := { s.dec with br := { acc := Config.freeAcc s.freeCount, nbits := Config.freeNbits s.freeCount, eos := true } }
    freeCount := s.freeCount + 1 }

/-- DEC.STATE becomes FINISHED (R270). -/
def State.finish (s : State) : State := { s with dec := { s.dec with state := .finished } }

/-- The accumulator emptied and BW.FLUSHED set (R134). -/
def State.markFlushed (s : State) : State := s.setBw { acc := 0#7, nbits := 0#3, flushed := true }

/-- CMP.STATE's encoding (R31). -/
def CmpState.code : CmpState → BitVec 2
  | .unconfigured => 0
  | .active => 1
  | .flushed => 2
  | .faulted => 3

/-- DEC.STATE's encoding (R32). -/
def DecState.code : DecState → BitVec 2
  | .hdrPending => 0
  | .midStream => 1
  | .finished => 2
  | .faulted => 3

/-- CMP.FAULT's and DEC.FAULT's encoding (R331). -/
def FaultCode.code : FaultCode → BitVec 3
  | .none => 0
  | .excessBits => 1
  | .endOfStream => 2
  | .unsupportedHeader => 3
  | .invalidConfig => 4
  | .sinkError => 5
  | .sourceError => 6

end Sys2Proof.Machine
end

