-- ==== Sys2Proof/Machine/Operands.lean ====
section
/-! DEFINITION. Operand forms: the signed limit of DEC.DECOMPRESS, the room in its output, the operand ranges
of the unit operations, and the derived stream position. -/

namespace Sys2Proof.Machine

/-- max_size as a limit: any negative value is no limit (R261). -/
def limitOf (maxSize : Int) : Option Nat := if maxSize < 0 then none else some maxSize.toNat

/-- limit - len(out), none where there is no limit (R267). -/
def Pull.room (p : Pull) : Option Nat := p.limit.map fun l => l - p.out.length

/-- len(out) < limit (R261, R263). -/
def Pull.hasRoom (p : Pull) : Bool :=
  match p.limit with
  | none => true
  | some l => decide (p.out.length < l)

/-- How many of n bytes the output still takes (R261, R267). -/
def Pull.accepts (p : Pull) (n : Nat) : Nat :=
  match p.room with
  | none => n
  | some r => min n r

/-- BW.WRITE and BR.READ move at most NMAX bits (R132, R155). -/
def widthOk (n : Nat) : Bool := decide (n ≤ Config.nMax)

/-- WIN.SEARCH's operands: a non-empty pattern and start <= C (R177). -/
def searchOk (c : Nat) (pattern : List Byte) (start : Nat) : Bool := decide (pattern ≠ []) && decide (start ≤ c)

/-- WIN.READ_SPAN's operands: pos < C and 1 <= len <= MAXLEN (R345). -/
def spanOk (cfg : Cfg) (pos len : Nat) : Bool :=
  decide (pos < cfg.cap) && decide (1 ≤ len) && decide (len ≤ cfg.maxLen)

/-- BR.POS = 8 * (bytes delivered since initialisation) - BR.NBITS, the stream bit index of the next bit
(10_state.md R27). -/
def State.brPos (s : State) : Nat := 8 * s.source.delivered - s.dec.br.nbits.toNat

end Sys2Proof.Machine
end

