-- ==== Sys2Proof/Machine/BitWriter.lean ====
section
/-! DEFINITION. The Bit Writer: BW.WRITE and BW.FLUSH (40_bit_writer.md). -/

namespace Sys2Proof.Machine

/-- The loop of R131: q whole bytes of the m bits of t go to the sink, the oldest first; the bits left are
BW.ACC and BW.NBITS. -/
def putBytes : Nat → Nat → Nat → State → Result Unit
  | 0, t, m, s =>
    .ok () (s.setBw { s.cmp.bw with acc := BitVec.ofNat 7 (t % 2 ^ m), nbits := BitVec.ofNat 3 m })
  | q + 1, t, m, s =>
    (sinkPut (BitVec.ofNat 8 ((t >>> (m - 8)) % 256)) s).bind fun _ s => putBytes q t (m - 8) s

/-- BW.WRITE(value, n): the n low bits of value behind the pending bits; whole bytes go to the sink (R131 to
R133, R136). -/
def bwWrite (value n : Nat) (s : State) : Result Unit :=
  if s.cmp.bw.flushed then .refused .useAfterFlush
  else if !widthOk n then .refused .badWidth
  else
    putBytes ((s.cmp.bw.nbits.toNat + n) / 8) (s.cmp.bw.acc.toNat * 2 ^ n + value % 2 ^ n)
      (s.cmp.bw.nbits.toNat + n) s

/-- BW.FLUSH: a partial byte is padded with zeros and goes to the sink; nothing pending, nothing emitted (R134
to R136). -/
def bwFlush (s : State) : Result Unit :=
  if s.cmp.bw.flushed then .refused .useAfterFlush
  else if s.cmp.bw.nbits = 0#3 then .ok () s.markFlushed
  else
    (sinkPut (BitVec.ofNat 8 (s.cmp.bw.acc.toNat * 2 ^ (8 - s.cmp.bw.nbits.toNat))) s).bind fun _ s =>
      .ok () s.markFlushed

/-- BW.WRITE as an operation of the unit alone (R107; log 6). -/
def execBwWrite (value n : Nat) (s : State) : Host.Outcome State Fault Refusal :=
  (bwWrite value n s).answer fun _ => .ok

/-- BW.FLUSH as an operation of the unit alone (R107; log 6). -/
def execBwFlush (s : State) : Host.Outcome State Fault Refusal :=
  (bwFlush s).answer fun _ => .ok

end Sys2Proof.Machine
end

