-- ==== Sys2Proof/Machine/HeaderCodec.lean ====
section
/-! DEFINITION. The Header codec: HDR.ENCODE and HDR.DECODE (43_header_codec.md). -/

namespace Sys2Proof.Machine

/-- HDR.ENCODE(wb, sb, lb): the header byte, or InvalidConfig; no state (R200). -/
def hdrEncode (wb sb lb : Nat) (s : State) : Result Byte :=
  if configLegal wb sb lb then .ok (headerByte wb sb lb) s else .fault (.invalidConfig wb sb lb) s

/-- HDR.DECODE(h): the configuration, or UnsupportedHeader; no state (R201). -/
def hdrDecode (h : Byte) (s : State) : Result Cfg :=
  match decodeConfig h with
  | some c => .ok c s
  | none => .fault (.unsupportedHeader h) s

/-- HDR.ENCODE as an operation of the unit alone: its fault is its response and writes no register (R200; log 7). -/
def execHdrEncode (wb sb lb : Nat) (s : State) : Host.Outcome State Fault Refusal :=
  (hdrEncode wb sb lb s).answer .header

/-- HDR.DECODE as an operation of the unit alone: its fault is its response and writes no register (R201; log 7). -/
def execHdrDecode (h : Byte) (s : State) : Host.Outcome State Fault Refusal :=
  (hdrDecode h s).answer .config

end Sys2Proof.Machine
end

