-- ==== Sys2Proof/Machine/Compressor.lean ====
section
/-! DEFINITION. The Compressor: CMP.INIT, CMP.COMPRESS, CMP.FLUSH (44_compressor.md). -/

namespace Sys2Proof.Machine

/-! ## CMP.INIT -/

/-- The compressor engine as CMP.INIT sets it before the header is written (R222): configuration, a new window,
an empty Bit Writer, no fault; CMP.STATE is written last. -/
def Compressor.init (c : Compressor) (cfg : Cfg) : Compressor :=
  { c with bw := { acc := 0#7, nbits := 0#3, flushed := false }, win := Window.fresh cfg.cap c.win, cfg := cfg,
           fault := .none }

/-- CMP.INIT: validation first (R221), then the new stream and its header byte (R222). -/
def initCompressor (wb sb lb : Nat) (s : State) : Result Unit :=
  match hdrEncode wb sb lb s with
  | .ok h s =>
    (bwWrite h.toNat 8 { s with cmp := s.cmp.init (Cfg.ofNats wb sb lb) }).bind fun _ s =>
      .ok () { s with cmp := { s.cmp with state := .active } }
  | .fault f s => .fault f (enterFault f s)
  | .refused r => .refused r

/-- CMP.INIT(wb, sb, lb), accepted in every state (R221, R222). -/
def execCmpInit (wb sb lb : Nat) (s : State) : Host.Outcome State Fault Refusal :=
  (initCompressor wb sb lb s).answer fun _ => .ok

/-! ## CMP.COMPRESS -/

/-- The loop of FindMatch over k candidate lengths from len on: each search starts at the index found for the
length before it (R224). -/
def searchLengths (c : Nat) (w : Window) (rest : List Byte) : Nat → Nat → Nat → Nat → Nat → Nat × Nat
  | 0, _, _, best, idx => (best, idx)
  | k + 1, len, start, best, idx =>
    if rest.length < len then (best, idx)
    else
      match Window.search c w (rest.take len) start with
      | none => (best, idx)
      | some r => searchLengths c w rest k (len + 1) r len r

/-- FindMatch at the front of the rest of the chunk: the longest length from MINLEN to MAXLEN that occurs in
the window, and its lowest index; length 0 where there is none (R224, R229). -/
def findMatch (cfg : Cfg) (w : Window) (rest : List Byte) : Nat × Nat :=
  searchLengths cfg.cap w rest (cfg.maxLen + 1 - cfg.minLen) cfg.minLen 0 0 0

/-- EmitReference(idx, len): flag 0, the index, the length less MINLEN (R227). -/
def emitReference (idx len : Nat) (s : State) : Result Unit :=
  (bwWrite 0 1 s).bind fun _ s =>
    (bwWrite idx s.cmp.cfg.wb.toNat s).bind fun _ s =>
      bwWrite (len - s.cmp.cfg.minLen) s.cmp.cfg.sb.toNat s

/-- EmitLiteral(b) at CMP.IPOS: a byte that does not fit LB bits raises ExcessBitsError before any bit of the
token is written; otherwise flag 1 and the value (R228). -/
def emitLiteral (b : Byte) (ipos : Nat) (s : State) : Result Unit :=
  if 2 ^ s.cmp.cfg.lb.toNat ≤ b.toNat then
    .fault (.excessBits b ipos) (enterFault (.excessBits b ipos) s)
  else
    (bwWrite 1 1 s).bind fun _ s => bwWrite b.toNat s.cmp.cfg.lb.toNat s

/-- One token for the front of the rest of the chunk: a reference where the best length reaches MINLEN, else a
literal; the bytes it covers then go to the window (R223, R225, R226). The value is how many bytes it covers. -/
def emitToken (rest : List Byte) (ipos : Nat) (s : State) : Result Nat :=
  match rest with
  | [] => .ok 0 s
  | b :: bs =>
    match findMatch s.cmp.cfg s.cmp.win (b :: bs) with
    | (best, idx) =>
      if s.cmp.cfg.minLen ≤ best then
        (emitReference idx best s).bind fun _ s =>
          .ok best (s.appendWindow .compressor ((b :: bs).take best))
      else
        (emitLiteral b ipos s).bind fun _ s => .ok 1 (s.appendWindow .compressor [b])

/-- The loop of R223: one token after another until the chunk is consumed. The first argument bounds the number
of tokens; a token covers at least one byte, so the chunk's length is enough. -/
def compressLoop : Nat → List Byte → Nat → State → Result Unit
  | 0, _, _, s => .ok () s
  | k + 1, rest, ipos, s =>
    match rest with
    | [] => .ok () s
    | b :: bs =>
      (emitToken (b :: bs) ipos s).bind fun n s => compressLoop k ((b :: bs).drop n) (ipos + n) s

/-- CMP.COMPRESS: only in ACTIVE; the whole chunk is consumed (R223, R230, R231, R233). -/
def compressChunk (data : List Byte) (s : State) : Result Unit :=
  if s.cmp.state = .active then compressLoop data.length data 0 s else .refused .badState

/-- CMP.COMPRESS(data) (R223). -/
def execCmpCompress (data : List Byte) (s : State) : Host.Outcome State Fault Refusal :=
  (compressChunk data s).answer fun _ => .ok

/-! ## CMP.FLUSH and the reserved code -/

/-- CMP.FLUSH: only in ACTIVE; BW.FLUSH, then FLUSHED (R232, R233). -/
def flushCompressor (s : State) : Result Unit :=
  if s.cmp.state = .active then
    (bwFlush s).bind fun _ s => .ok () { s with cmp := { s.cmp with state := .flushed } }
  else .refused .badState

/-- CMP.FLUSH (R232). -/
def execCmpFlush (s : State) : Host.Outcome State Fault Refusal :=
  (flushCompressor s).answer fun _ => .ok

/-- The reserved code of cmp_cmd is refused: BadCommand (R106, R345). -/
def execCmpReserved (_s : State) : Host.Outcome State Fault Refusal := .refused .badCommand

/-- Hardware reset of the compressor engine (R370, R372; log 24). -/
def resetCompressor (s : State) : State := { s with cmp := Compressor.reset }

end Sys2Proof.Machine
end

