-- ==== Sys2Proof/Machine/BitReader.lean ====
section
/-! DEFINITION. The Bit Reader: BR.READ (41_bit_reader.md). -/

namespace Sys2Proof.Machine

/-- The loop of R151: k bytes pulled from the source, one at a time, behind the bits of t. A source that is
exhausted raises EndOfStream (R153); one that fails, SourceError (R156). -/
def pullBytes : Nat → Nat → State → Result Nat
  | 0, t, s => .ok t s
  | k + 1, t, s =>
    match sourceGet s with
    | (.byte x, s) => pullBytes k (t * 256 + x.toNat) s
    | (.exhausted, s) => .fault .endOfStream s.markEos
    | (.fails, s) => .fault .sourceError (enterFault .sourceError s)

/-- The number of bytes a request of n bits pulls when m bits are buffered: only as many as it needs (R152). -/
def bytesNeeded (m n : Nat) : Nat := (n - m + 7) / 8

/-- The n oldest of the m buffered bits t are returned, the rest stay in BR.ACC and BR.NBITS (R151). -/
def giveBits (n m t : Nat) (s : State) : Result Nat :=
  .ok ((t >>> (m - n)) % 2 ^ n)
    (s.setBr { s.dec.br with acc := BitVec.ofNat 7 (t % 2 ^ (m - n)), nbits := BitVec.ofNat 3 (m - n) })

/-- BR.READ(n): the next n bits of the stream as an unsigned integer (R151 to R157). -/
def brRead (n : Nat) (s : State) : Result Nat :=
  if !widthOk n then .refused .badWidth
  else if s.dec.br.eos then .fault .endOfStream s
  else
    (pullBytes (bytesNeeded s.dec.br.nbits.toNat n) s.dec.br.acc.toNat s).bind fun t s' =>
      giveBits n (s.dec.br.nbits.toNat + 8 * bytesNeeded s.dec.br.nbits.toNat n) t s'

/-- BR.READ as an operation of the unit alone (R107; log 6, log 7). -/
def execBrRead (n : Nat) (s : State) : Host.Outcome State Fault Refusal :=
  (brRead n s).answer .value

end Sys2Proof.Machine
end

