-- ==== Sys2Proof/Machine/Decompressor.lean ====
section
/-! DEFINITION. The Decompressor: the stream's header, tokens and padding, DEC.INIT and DEC.DECOMPRESS
(45_decompressor.md). A DEC.DECOMPRESS in progress stands in State.pull; its meaning runs pullStep until it has
ended, and the machine's step runs one pullStep on a state that holds one (log 11). -/

namespace Sys2Proof.Machine

/-! ## The stream's instructions -/

/-- A stream instruction runs inside a DEC.DECOMPRESS (R261), in the decoder state that fetches it (R262, R264;
log 13); the room in the output and OVF, which R263 settles before a token is fetched, are not checked again
(log 33). -/
def inPull (want : DecState) (s : State) (run : Pull → Host.Outcome State Fault Refusal) :
    Host.Outcome State Fault Refusal :=
  match s.pull with
  | none => .refused .noOperation
  | some p => if s.dec.state = want then run p else .refused .badState

/-- The header's effect: the configuration registers, a new window of the decoded capacity, MID_STREAM (R262). -/
def openStream (cfg : Cfg) (s : State) : State :=
  { s with dec := { s.dec with cfg := cfg, win := Window.fresh cfg.cap s.dec.win, state := .midStream } }

/-- HEADER (R262). -/
def execHeader (w : BitVec 3) (sz : BitVec 2) (l : BitVec 2) (s : State) : Host.Outcome State Fault Refusal :=
  inPull .hdrPending s fun _ => .next (openStream (headerCfg w sz l) s)

/-- LITERAL: the byte goes to the window and to the output (R266). R263 has no token where the output is full or OVF
is not empty; used alone there, the literal runs all the same, past the limit and ahead of OVF (DESIGN CHOICE,
log 33). So does a value of 2^LB or more (log 28). -/
def execLiteral (v : Byte) (s : State) : Host.Outcome State Fault Refusal :=
  inPull .midStream s fun p =>
    .next { s.appendWindow .decompressor [v] with pull := some { p with out := p.out ++ [v] } }

/-- The snapshot copy: the whole span is read, then written to the window; the bytes the output has room for go
to it, the rest of the span to OVF (R267 to R269; 90_conflicts.md C1). R263 has OVF empty and room for a byte
here; for a reference used alone elsewhere the same assignments are made: with no room the whole span is OVF, and OVF
loses what it held (DESIGN CHOICE, log 33). -/
def copySpan (p : Pull) (span : List Byte) (s : State) : State :=
  let s := s.appendWindow .decompressor span
  { s with
    dec := { s.dec with ovf := if p.accepts span.length < span.length then span.drop (p.accepts span.length) else s.dec.ovf }
    pull := some { p with out := p.out ++ span.take (p.accepts span.length) } }

/-- REFERENCE: len = n + MINLEN (R264, R267). A position or length that no field of this configuration holds is
out of WIN.READ_SPAN's range (R345; log 28). Whether the output has room and OVF is empty is not asked, as in the
pseudocode of R267 (R263; log 33). -/
def execReference (pos : BitVec 15) (n : BitVec 7) (s : State) : Host.Outcome State Fault Refusal :=
  inPull .midStream s fun p =>
    if spanOk s.dec.cfg pos.toNat (n.toNat + s.dec.cfg.minLen) then
      .next (copySpan p (Window.readSpan s.dec.cfg.cap s.dec.win pos.toNat (n.toNat + s.dec.cfg.minLen)) s)
    else .refused .badOperand

/-- PAD: what is left of the stream is no token, so the reader raises EndOfStream, and the decompressor takes it
as the end of the stream: nothing is decoded (R104, R270; log 12). -/
def execPad (_k : BitVec 3) (s : State) : Host.Outcome State Fault Refusal :=
  inPull .midStream s fun _ => .next s.markEos.finish

/-! ## Fetching -/

/-- A token's fields, all read before any of its effects (R264). -/
def fetchToken (s : State) : Result Token :=
  (brRead 1 s).bind fun flag s =>
    if flag = 1 then (brRead s.dec.cfg.lb.toNat s).bind fun v s => .ok (literalOfField v) s
    else
      (brRead s.dec.cfg.wb.toNat s).bind fun pos s =>
        (brRead s.dec.cfg.sb.toNat s).bind fun n s => .ok (referenceOfFields pos n) s

/-- A token's meaning. -/
def runToken (t : Token) (s : State) : Host.Outcome State Fault Refusal :=
  match t with
  | .literal v => execLiteral v s
  | .reference pos n => execReference pos n s

/-- ExecuteToken: an EndOfStream anywhere in it ends the stream with no effect of the token (R264, R270);
a SourceError ends the operation (R276). -/
def tokenStep (s : State) : Host.Outcome State Fault Refusal :=
  match fetchToken s with
  | .ok t s => runToken t s
  | .fault f s => if f = .endOfStream then .next s.finish else .next s
  | .refused r => .refused r

/-- ReadHeader: 8 bits; bit 0 set is UnsupportedHeader, no byte at all is EndOfStream, and both are faults of the
operation (R262, R272). -/
def headerStep (s : State) : Host.Outcome State Fault Refusal :=
  match brRead 8 s with
  | .ok h s =>
    match headerFields (BitVec.ofNat 8 h) with
    | some (w, sz, l) => execHeader w sz l s
    | none => .next (enterFault (.unsupportedHeader (BitVec.ofNat 8 h)) s)
  | .fault f s => if f = .endOfStream then .next (enterFault f s) else .next s
  | .refused r => .refused r

/-! ## DEC.DECOMPRESS -/

/-- Bytes of OVF go to the output first, oldest first, as many as it has room for (R263). -/
def drainOverflow (p : Pull) (s : State) : State :=
  { s with
    dec := { s.dec with ovf := s.dec.ovf.drop (p.accepts s.dec.ovf.length) }
    pull := some { p with out := p.out ++ s.dec.ovf.take (p.accepts s.dec.ovf.length) } }

/-- The operation returns out (R261). -/
def closePull (p : Pull) (s : State) : State := { s with pull := none, resp := .bytes p.out }

/-- One step of a DEC.DECOMPRESS in progress: the header if it is pending, then the bytes of OVF, then one token
while the output has room and the stream goes on, then the return (R261 to R263). -/
def pullStep (s : State) : Host.Outcome State Fault Refusal :=
  match s.pull with
  | none => .refused .noOperation
  | some p =>
    match s.dec.state with
    | .hdrPending => headerStep s
    | .midStream =>
      if p.hasRoom then (if s.dec.ovf = [] then tokenStep s else .next (drainOverflow p s))
      else .next (closePull p s)
    | .finished =>
      if p.hasRoom && decide (s.dec.ovf ≠ []) then .next (drainOverflow p s) else .next (closePull p s)
    | .faulted => .refused .badState

/-- The bits the source and the reader can still feed, at most: a token takes at least one of them. -/
def bitsLeft (s : State) : Nat := 8 * s.source.answers.length + s.dec.br.nbits.toNat

/-- The operation runs until it has ended. The first argument bounds the number of steps (log 27). -/
def pullLoop : Nat → State → Host.Outcome State Fault Refusal
  | 0, s =>
    match s.pull with
    | none => .next s
    | some _ => .fault .pullUnfinished
  | k + 1, s =>
    match s.pull with
    | none => .next s
    | some _ =>
      match pullStep s with
      | .next s => pullLoop k s
      | .fault f => .fault f
      | .refused r => .refused r

/-- The operation begins with an empty output (R261). -/
def openPull (maxSize : Int) (s : State) : State :=
  { s with pull := some { limit := limitOf maxSize, out := [] } }

/-- DEC.DECOMPRESS(max_size): refused in FAULTED (R265), otherwise run to its end (R261); a step for the header,
one for OVF, one for each token, one for EndOfStream, one for the return. -/
def execDecDecompress (maxSize : Int) (s : State) : Host.Outcome State Fault Refusal :=
  match s.pull with
  | some _ => .refused .operationInProgress
  | none =>
    if s.dec.state = .faulted then .refused .badState
    else pullLoop (bitsLeft s + 4) (openPull maxSize s)

/-! ## DEC.INIT and the reserved codes -/

/-- The decompressor engine as DEC.INIT sets it: reader, OVF, fault and state; the window and the configuration
registers stay (R260). -/
def Decompressor.init (d : Decompressor) : Decompressor :=
  { d with br := { acc := 0#7, nbits := 0#3, eos := false }, ovf := [], fault := .none, state := .hdrPending }

/-- DEC.INIT, accepted in every state (R260); the count of delivered bytes starts again (R27; log 30). -/
def execDecInit (s : State) : Host.Outcome State Fault Refusal :=
  match s.pull with
  | some _ => .refused .operationInProgress
  | none =>
    .next { s with dec := s.dec.init, source := { s.source with delivered := 0 }, resp := .ok }

/-- The reserved codes of dec_cmd are refused: BadCommand (R106, R345). -/
def execDecReserved (_x : BitVec 1) (_s : State) : Host.Outcome State Fault Refusal := .refused .badCommand

/-- Hardware reset of the decompressor engine; an operation in progress is gone with it (R370, R372; log 24). -/
def resetDecompressor (s : State) : State :=
  { s with dec := Decompressor.reset, source := { s.source with delivered := 0 }, pull := none }

end Sys2Proof.Machine
end

