-- ==== Sys2Proof/Machine/WindowUnit.lean ====
section
/-! DEFINITION. The Window's operations used alone (42_window.md). -/

namespace Sys2Proof.Machine

/-- WIN.WRITE_BYTE(b): a value above 255 is refused (R171, R345). -/
def execWinWriteByte (e : Engine) (b : Nat) (s : State) : Host.Outcome State Fault Refusal :=
  if 255 < b then .refused .badOperand
  else .next ((s.appendWindow e [BitVec.ofNat 8 b]).respond .ok)

/-- WIN.WRITE_BYTES(seq): the bytes in order; the operand is given by value (R172, R173). -/
def execWinWriteBytes (e : Engine) (seq : List Byte) (s : State) : Host.Outcome State Fault Refusal :=
  .next ((s.appendWindow e seq).respond .ok)

/-- WIN.SEARCH(pattern, start) on the compressor's window: an empty pattern and start > C are refused (R174 to
R177; log 29). -/
def execWinSearch (pattern : List Byte) (start : Nat) (s : State) : Host.Outcome State Fault Refusal :=
  if searchOk s.cmp.cfg.cap pattern start then
    match Window.search s.cmp.cfg.cap s.cmp.win pattern start with
    | some i => .next (s.respond (.found i))
    | none => .next (s.respond .notFound)
  else .refused .badOperand

/-- WIN.READ_SPAN(pos, len) on the decompressor's window: pos >= C and len outside 1 to MAXLEN are refused
(R178, R345; log 29). -/
def execWinReadSpan (pos len : Nat) (s : State) : Host.Outcome State Fault Refusal :=
  if spanOk s.dec.cfg pos len then
    .next (s.respond (.bytes (Window.readSpan s.dec.cfg.cap s.dec.win pos len)))
  else .refused .badOperand

end Sys2Proof.Machine
end

