-- ==== Sys2Proof/Machine/Dispatch.lean ====
section
/-! DEFINITION. One arm per instruction: each calls its meaning. -/

namespace Sys2Proof.Machine

def exec (i : Instr) (s : State) : Host.Outcome State Fault Refusal :=
  match i with
  -- the compressed stream
  | .header w sz l => Sys2Proof.Machine.execHeader w sz l s
  | .literal v => Sys2Proof.Machine.execLiteral v s
  | .reference pos n => Sys2Proof.Machine.execReference pos n s
  | .pad k => Sys2Proof.Machine.execPad k s
  -- the compressor engine
  | .cmpInit wb sb lb => Sys2Proof.Machine.execCmpInit wb sb lb s
  | .cmpCompress data => Sys2Proof.Machine.execCmpCompress data s
  | .cmpFlush => Sys2Proof.Machine.execCmpFlush s
  | .cmpReserved => Sys2Proof.Machine.execCmpReserved s
  -- the decompressor engine
  | .decInit => Sys2Proof.Machine.execDecInit s
  | .decDecompress maxSize => Sys2Proof.Machine.execDecDecompress maxSize s
  | .decReserved x => Sys2Proof.Machine.execDecReserved x s
  -- the units
  | .bwWrite value n => Sys2Proof.Machine.execBwWrite value n s
  | .bwFlush => Sys2Proof.Machine.execBwFlush s
  | .brRead n => Sys2Proof.Machine.execBrRead n s
  | .winWriteByte e b => Sys2Proof.Machine.execWinWriteByte e b s
  | .winWriteBytes e seq => Sys2Proof.Machine.execWinWriteBytes e seq s
  | .winSearch pattern start => Sys2Proof.Machine.execWinSearch pattern start s
  | .winReadSpan pos len => Sys2Proof.Machine.execWinReadSpan pos len s
  | .hdrEncode wb sb lb => Sys2Proof.Machine.execHdrEncode wb sb lb s
  | .hdrDecode h => Sys2Proof.Machine.execHdrDecode h s

end Sys2Proof.Machine
end

