-- ==== Sys2Proof/Machine/Step.lean ====
section
/-! DEFINITION. One step of the machine: a DEC.DECOMPRESS in progress goes on; otherwise the host's next event
is taken; with neither, the machine waits (70_reset_and_hazards.md R373; log 11, log 23). -/

namespace Sys2Proof.Machine

/-- One event of the host. A command is decoded and its meaning runs; hardware reset resets one engine. -/
def takeEvent (e : HostEvent) (s : State) : Host.Outcome State Fault Refusal :=
  match e with
  | .cmp c => exec (decodeCmp c) s
  | .dec d => exec (decodeDec d) s
  | .resetCmp => .next (resetCompressor s)
  | .resetDec => .next (resetDecompressor s)

/-- One step. -/
def step (s : State) : Host.Outcome State Fault Refusal :=
  match s.pull with
  | some _ => pullStep s
  | none =>
    match s.pending with
    | [] => .next s
    | e :: es => takeEvent e { s with pending := es }

/-- The state with an instruction placed where step fetches its next one: a command at the head of the host's
events; a header byte, a token or padding as the bytes of the source, with the decompressor in the middle of a
DEC.DECOMPRESS that fetches them (log 14, log 15). -/
def State.withWire (s : State) (c : Cfg) (wire : Wire) : State :=
  match wire with
  | .cmp w => { s with pull := none, pending := .cmp w :: s.pending }
  | .dec w => { s with pull := none, pending := .dec w :: s.pending }
  | .header h =>
    { s with
      dec := { s.dec with br := { acc := 0#7, nbits := 0#3, eos := false }, state := .hdrPending }
      source := { s.source with answers := [.byte h] }
      pull := some { limit := none, out := [] } }
  | .stream bits =>
    { s with
      dec := { s.dec with br := { acc := 0#7, nbits := 0#3, eos := false }, cfg := c, ovf := [], state := .midStream }
      source := { s.source with answers := (packBits bits).map .byte }
      pull := some { limit := none, out := [] } }

/-- The state with a word of spec/opcode_table.json placed where step fetches (log 14); unchanged where the word
is no instruction's. -/
def State.withFetchWord (s : State) (nbits w : Nat) : State :=
  match tableWire nbits w with
  | some (c, wire) => s.withWire c wire
  | none => s

end Sys2Proof.Machine
end

