-- ==== Sys2Proof/Safety.lean ====
section
/-! DEFINITION. The terms that claims use: the compressed stream as a bit string on both sides, what the sink and
the source will do, and the invariant between operations (10_state.md R38). -/

namespace Sys2Proof.Machine

/-! ## The stream as a bit string -/

/-- The bits written but not yet emitted, oldest first (R21). -/
def BitWriter.bits (bw : BitWriter) : Bits := fieldBits bw.nbits.toNat bw.acc.toNat

/-- The bits pulled from the source but not yet returned, next first (R23). -/
def BitReader.bits (br : BitReader) : Bits := fieldBits br.nbits.toNat br.acc.toNat

/-- Every bit written: the bytes the sink has taken, then the pending bits (40_bit_writer.md R130). -/
def State.writtenBits (s : State) : Bits := bytesBits s.sink.taken ++ s.cmp.bw.bits

/-- The bytes the source will deliver before it answers anything else. -/
def leadingBytes : List SourceAnswer → List Byte
  | .byte b :: rest => b :: leadingBytes rest
  | .exhausted :: _ => []
  | .fails :: _ => []
  | [] => []

/-- Every bit the reader can still return: the buffered bits, then the source's bytes (41_bit_reader.md R150). -/
def State.unreadBits (s : State) : Bits := s.dec.br.bits ++ bytesBits (leadingBytes s.source.answers)

/-- The sink accepts the next k bytes. -/
def Sink.acceptsNext (k : Nat) (sink : Sink) : Prop := ∀ a ∈ sink.answers.take k, a = .accepts

/-- The sink accepts every byte. -/
def Sink.acceptsAll (sink : Sink) : Prop := ∀ a ∈ sink.answers, a = .accepts

/-- No coming access to the source fails. -/
def Source.neverFails (src : Source) : Prop := ∀ a ∈ src.answers, a ≠ .fails

/-- After the bytes it delivers first the source answers EXHAUSTED, not a failure. -/
def Source.endsCleanly (src : Source) : Prop :=
  ∀ a, src.answers[(leadingBytes src.answers).length]? = some a → a = .exhausted

/-- Every byte is less than 2^LB. -/
def narrow (cfg : Cfg) (bytes : List Byte) : Prop := ∀ b ∈ bytes, b.toNat < 2 ^ cfg.lb.toNat

/-- The pattern stands in the linear buffer of capacity c at index i (42_window.md R174). -/
def occursAt (c : Nat) (w : Window) (pattern : List Byte) (i : Nat) : Prop :=
  i + pattern.length ≤ c ∧ ∀ k (h : k < pattern.length), Memory.read w.buf (i + k) = pattern[k]

/-! ## The stream as tokens, and the bytes it stands for (R94, R266 to R268) -/

/-- The stream bits of a token under configuration c (R95, R96). -/
def tokenBits (c : Cfg) : Token → Bits
  | .literal v => true :: fieldBits c.lb.toNat v.toNat
  | .reference pos n => false :: (fieldBits c.wb.toNat pos.toNat ++ fieldBits c.sb.toNat n.toNat)

/-- The bytes a token stands for, in the window as it is before the token (R266 to R268). -/
def tokenSpan (c : Cfg) (w : Window) : Token → List Byte
  | .literal v => [v]
  | .reference pos n => Window.readSpan c.cap w pos.toNat (n.toNat + c.minLen)

/-- The tokens of a bit string, up to where no token is complete (R90, R270); the first argument bounds their
number, and a token takes at least one bit. -/
def tokensUpTo (c : Cfg) : Nat → Bits → List Token
  | 0, _ => []
  | k + 1, bits =>
    match takeToken c bits with
    | some (t, rest) => t :: tokensUpTo c k rest
    | none => []

/-- The tokens of a bit string. -/
def tokensOf (c : Cfg) (bits : Bits) : List Token := tokensUpTo c bits.length bits

/-- The bytes a sequence of tokens stands for: each token's span, read in the window that the spans before it
have been written to (R301). -/
def expand (c : Cfg) (w : Window) : List Token → List Byte
  | [] => []
  | t :: ts => tokenSpan c w t ++ expand c (Window.writeBytes c.cap w (tokenSpan c w t)) ts

/-- All the bytes the decompressor engine has still to return: OVF, then the bytes of the rest of the stream
(R263, R304); of a stream whose header is not read yet, or is no good, see R262. -/
def State.owed (s : State) : List Byte :=
  match s.dec.state with
  | .hdrPending =>
    match takeField 8 s.unreadBits with
    | some (h, rest) =>
      match decodeConfig (BitVec.ofNat 8 h) with
      | some c => s.dec.ovf ++ expand c (Window.fresh c.cap s.dec.win) (tokensOf c rest)
      | none => []
    | none => []
  | .midStream => s.dec.ovf ++ expand s.dec.cfg s.dec.win (tokensOf s.dec.cfg s.unreadBits)
  | .finished => s.dec.ovf
  | .faulted => []

/-- The decompressor's window when the whole stream has been executed (R170, R304). -/
def State.windowAtEnd (s : State) : Window :=
  match s.dec.state with
  | .hdrPending =>
    match takeField 8 s.unreadBits with
    | some (h, rest) =>
      match decodeConfig (BitVec.ofNat 8 h) with
      | some c =>
        Window.writeBytes c.cap (Window.fresh c.cap s.dec.win)
          (expand c (Window.fresh c.cap s.dec.win) (tokensOf c rest))
      | none => s.dec.win
    | none => s.dec.win
  | .midStream =>
    Window.writeBytes s.dec.cfg.cap s.dec.win (expand s.dec.cfg s.dec.win (tokensOf s.dec.cfg s.unreadBits))
  | .finished => s.dec.win
  | .faulted => s.dec.win

/-- The next 8 bits of the stream are a header (R91, R92). -/
def State.goodHeader (s : State) : Prop :=
  ∃ h rest c, takeField 8 s.unreadBits = some (h, rest) ∧ decodeConfig (BitVec.ofNat 8 h) = some c

/-- The decompressor engine can go on to the end of its stream without a fault: it is not FAULTED, and while the
stream has not ended no access to the source will fail, and a header still to be read is a good one. -/
structure State.Readable (s : State) : Prop where
  state : s.dec.state ≠ .faulted
  source : s.dec.state = .hdrPending ∨ s.dec.state = .midStream →
    s.source.endsCleanly ∧ s.dec.br.eos = false
  header : s.dec.state = .hdrPending → s.goodHeader

/-- The token the compressor chooses at the front of the rest of a chunk, and how many bytes it covers: a reference
to the best match where that reaches MINLEN, else a literal (R225). -/
def chosenToken (c : Cfg) (w : Window) (b : Byte) (bs : List Byte) : Token × Nat :=
  if c.minLen ≤ (findMatch c w (b :: bs)).1 then
    (referenceOfFields (findMatch c w (b :: bs)).2 ((findMatch c w (b :: bs)).1 - c.minLen),
      (findMatch c w (b :: bs)).1)
  else (.literal b, 1)

/-- The tokens of the greedy parse (R223, R225); the first argument bounds their number. -/
def greedyUpTo (c : Cfg) : Nat → Window → List Byte → List Token
  | 0, _, _ => []
  | _ + 1, _, [] => []
  | k + 1, w, b :: bs =>
    (chosenToken c w b bs).1 ::
      greedyUpTo c k (Window.writeBytes c.cap w ((b :: bs).take (chosenToken c w b bs).2))
        ((b :: bs).drop (chosenToken c w b bs).2)

/-- The tokens of a chunk. -/
def greedyTokens (c : Cfg) (w : Window) (data : List Byte) : List Token := greedyUpTo c data.length w data

/-! ## Runs of operations and of steps -/

/-- Several operations, one after another. -/
def execAll : List Instr → State → Host.Outcome State Fault Refusal
  | [], s => .next s
  | i :: rest, s =>
    match exec i s with
    | .next t => execAll rest t
    | .fault f => .fault f
    | .refused r => .refused r

/-- Several steps, one after another. -/
def stepMany : Nat → State → Host.Outcome State Fault Refusal
  | 0, s => .next s
  | k + 1, s =>
    match step s with
    | .next t => stepMany k t
    | .fault f => .fault f
    | .refused r => .refused r

/-- DEC.DECOMPRESS once for each limit: the bytes returned, one after another, and the last state; none where an
operation does not return bytes. -/
def pulls : List Nat → State → Option (List Byte × State)
  | [], s => some ([], s)
  | m :: ms, s =>
    match exec (.decDecompress m) s with
    | .next t =>
      match t.resp with
      | .bytes out => (pulls ms t).map fun r => (out ++ r.1, r.2)
      | _ => none
    | _ => none

/-! ## The invariant (R38) -/

/-- BW.ACC < 2^BW.NBITS. -/
def BitWriter.inv (bw : BitWriter) : Prop := bw.acc.toNat < 2 ^ bw.nbits.toNat

/-- BR.ACC < 2^BR.NBITS while BR.EOS = 0. -/
def BitReader.inv (br : BitReader) : Prop := br.eos = false → br.acc.toNat < 2 ^ br.nbits.toNat

/-- 0 <= WIN.CUR < C, and every byte of the window is less than 2^LB. -/
def Window.inv (cfg : Cfg) (w : Window) : Prop :=
  w.cur.toNat < cfg.cap ∧ ∀ i, i < cfg.cap → (Memory.read w.buf i).toNat < 2 ^ cfg.lb.toNat

/-- The compressor engine may have lost its registers: it is FAULTED after a SinkError (R336), or after a CMP.INIT
with illegal operands, which leaves every other register as it was (R221), as a SinkError before it may have left
them. Nothing else is claimed of such an engine (log 31). -/
def Compressor.lost (c : Compressor) : Prop :=
  c.state = .faulted ∧ (c.fault = .sinkError ∨ c.fault = .invalidConfig)

/-- The decompressor engine is FAULTED after a SourceError: nothing else is claimed of it (R337). -/
def Decompressor.lost (d : Decompressor) : Prop := d.state = .faulted ∧ d.fault = .sourceError

/-- The registers of a compressor engine that has not lost its state: R38, and BW.FLUSHED in each CMP.STATE. -/
structure Compressor.Sound (c : Compressor) : Prop where
  cfg : c.cfg.legal = true
  bw : c.bw.inv
  win : c.win.inv c.cfg
  flushed : (c.state = .unconfigured ∨ c.state = .active → c.bw.flushed = false) ∧
    (c.state = .flushed → c.bw.flushed = true)

/-- A decompressor engine that has read its header: legal configuration, window and OVF within R38. -/
structure Decompressor.Open (d : Decompressor) : Prop where
  cfg : d.cfg.legal = true
  win : d.win.inv d.cfg
  ovf : d.ovf.length ≤ d.cfg.maxLen - 1 ∧ narrow d.cfg d.ovf

/-- The registers of a decompressor engine that has not lost its state: R38, and BR.EOS in each DEC.STATE. Before the
header is read, the configuration registers and the window are not claimed: DEC.INIT leaves them as they are
(R260), as a SourceError may have left them (log 31). -/
structure Decompressor.Sound (d : Decompressor) : Prop where
  stream : d.state = .midStream ∨ d.state = .finished → d.Open
  br : d.br.inv
  ovfEmpty : d.state ≠ .midStream → d.ovf = []
  eos : (d.state = .hdrPending ∨ d.state = .midStream → d.br.eos = false) ∧
    (d.state = .finished → d.br.eos = true)

/-- A DEC.DECOMPRESS in progress has not passed its limit, its output is narrow, and the engine is not FAULTED. -/
def State.pullSound (s : State) : Prop :=
  ∀ p, s.pull = some p →
    s.dec.state ≠ .faulted ∧ (∀ l, p.limit = some l → p.out.length ≤ l) ∧
      (s.dec.state = .hdrPending → p.out = []) ∧ narrow s.dec.cfg p.out

/-- The invariant that holds at reset and that every step keeps: R38, less what log 31 leaves out, with the fault
registers, the flags of each state and the operation in progress. -/
structure State.Inv (s : State) : Prop where
  /-- Both windows' cells are in canonical form. -/
  cmpMem : Memory.wf s.cmp.win.buf
  decMem : Memory.wf s.dec.win.buf
  cmp : ¬ s.cmp.lost → s.cmp.Sound
  dec : ¬ s.dec.lost → s.dec.Sound
  /-- A fault register is 0 exactly when its engine is not FAULTED (R33). -/
  cmpFault : s.cmp.state = .faulted ↔ s.cmp.fault ≠ .none
  decFault : s.dec.state = .faulted ↔ s.dec.fault ≠ .none
  /-- Each engine's fault register holds only codes of its own faults (R331). -/
  cmpCode : s.cmp.fault = .none ∨ s.cmp.fault = .excessBits ∨ s.cmp.fault = .invalidConfig ∨ s.cmp.fault = .sinkError
  decCode : s.dec.fault = .none ∨ s.dec.fault = .endOfStream ∨ s.dec.fault = .unsupportedHeader ∨
    s.dec.fault = .sourceError
  pull : s.pullSound

end Sys2Proof.Machine
end

