-- ==== Sys2Proof/WellFormed.lean ====
section
/-! DEFINITION. When an instruction's operands are within the ranges that its encoding (R91, R95, R96, R104,
R106) or, for a unit operation, its operand list (spec/opcode_table.json) gives them. -/

namespace Sys2Proof

/-- The operands of an instruction are in range under configuration c. -/
def Instr.wf (c : Cfg) : Instr → Bool
  | .header _ _ _ => true
  | .literal v => decide (v.toNat < 2 ^ c.lb.toNat)
  | .reference pos n => decide (pos.toNat < 2 ^ c.wb.toNat) && decide (n.toNat < 2 ^ c.sb.toNat)
  | .pad _ => true
  | .cmpInit wb sb lb => decide (wb < 2 ^ 4) && decide (sb < 2 ^ 3) && decide (lb < 2 ^ 4)
  | .cmpCompress data => decide (data.length < 2 ^ Config.dataLenW)
  | .cmpFlush => true
  | .cmpReserved => true
  | .decInit => true
  | .decDecompress m =>
    decide (-(2 : Int) ^ (Config.maxSizeW - 1) ≤ m) && decide (m < (2 : Int) ^ (Config.maxSizeW - 1))
  | .decReserved _ => true
  | .bwWrite _ n => decide (n ≤ Config.nMax)
  | .bwFlush => true
  | .brRead n => decide (n ≤ Config.nMax)
  | .winWriteByte _ b => decide (b < 256)
  | .winWriteBytes _ _ => true
  | .winSearch pattern start => decide (pattern ≠ []) && decide (start ≤ c.cap)
  | .winReadSpan pos len => decide (pos < c.cap) && decide (1 ≤ len) && decide (len ≤ c.maxLen)
  | .hdrEncode wb sb lb => configLegal wb sb lb
  | .hdrDecode h => !h.getLsbD 0

/-- The instruction has a code: a byte or bits of the stream, or a command (R106, R107). -/
def Instr.hasWire : Instr → Bool
  | .header _ _ _ => true
  | .literal _ => true
  | .reference _ _ => true
  | .pad _ => true
  | .cmpInit _ _ _ => true
  | .cmpCompress _ => true
  | .cmpFlush => true
  | .cmpReserved => true
  | .decInit => true
  | .decDecompress _ => true
  | .decReserved _ => true
  | .bwWrite _ _ => false
  | .bwFlush => false
  | .brRead _ => false
  | .winWriteByte _ _ => false
  | .winWriteBytes _ _ => false
  | .winSearch _ _ => false
  | .winReadSpan _ _ => false
  | .hdrEncode _ _ _ => false
  | .hdrDecode _ => false

end Sys2Proof
end

