-- ==== Sys2Proof/Certificates/Slice0/Obligations.lean ====
section
/-! DEFINITION. The statements for the provers. Each docstring says which rule of spec/ its statement formalises,
or that it rests on a choice of the model and on which log entry. -/

open Sys2Proof Sys2Proof.Machine

/-! ## Encoding (30_encoding.md, 43_header_codec.md) -/

/-- Every instruction with a code has a wire, and decoding it under the stream's configuration gives the
instruction back, with every operand its encoding admits (30_encoding.md, sections 2, 3 and 5). -/
def Obligations.DecodeInvertsEncode : Prop :=
  ∀ (c : Cfg) (i : Instr), c.legal = true → i.wf c = true → i.hasWire = true →
    ∃ wire, encode c i = some wire ∧ decode c wire = .ok i

/-- Tokens back to back, then at most 7 zero bits: the tokens are read back and the zeros decode to nothing (R98,
R104). -/
def Obligations.TokensReadBack : Prop :=
  ∀ (c : Cfg) (ts : List Token) (k : Nat), c.legal = true → (∀ t ∈ ts, t.instr.wf c = true) → k ≤ 7 →
    tokensOf c (ts.flatMap (tokenBits c) ++ List.replicate k false) = ts

/-- Words written out from the tables of 30_encoding.md: the header of the defaults and one with its reserved bit
set, the tokens of 44_compressor.md R237, seven zero bits, and each command code, CMP.INIT with its operands and
without (R221; that a command can lack them on the port is the model's choice, log 32). -/
def Obligations.SpecWordsDecode : Prop :=
  decode (Cfg.ofNats 10 4 8) (.header 0x46) = .ok (.header 2 0 3) ∧
  decode (Cfg.ofNats 10 4 8) (.header 0x47) = .error .reservedHeaderBit ∧
  decode (Cfg.ofNats 10 4 8)
    (.stream [true, false, true, true, false, false, true, true, false]) = .ok (.literal 0x66) ∧
  decode (Cfg.ofNats 10 4 8)
    (.stream [false, false, false, false, false, false, false, false, false, false, false, false, false, true, false])
      = .ok (.reference 0 2) ∧
  decode (Cfg.ofNats 10 4 8) (.stream [false, false, false, false, false, false, false]) = .ok (.pad 7) ∧
  (∀ (wb : BitVec 4) (sb : BitVec 3) (lb : BitVec 4) (ops : Option InitOperands) (data : List Byte),
    decodeCmp { code := 0, init := some { wb := wb, sb := sb, lb := lb }, data := data } =
      .cmpInit wb.toNat sb.toNat lb.toNat ∧
    decodeCmp { code := 0, init := none, data := data } = .cmpInit 10 4 8 ∧
    decodeCmp { code := 1, init := ops, data := data } = .cmpCompress data ∧
    decodeCmp { code := 2, init := ops, data := data } = .cmpFlush ∧
    decodeCmp { code := 3, init := ops, data := data } = .cmpReserved) ∧
  ∀ m : BitVec 32,
    decodeDec { code := 0, maxSize := m } = .decInit ∧
    decodeDec { code := 1, maxSize := m } = .decDecompress m.toInt ∧
    decodeDec { code := 2, maxSize := m } = .decReserved 0 ∧
    decodeDec { code := 3, maxSize := m } = .decReserved 1

/-- R202, R203: a legal triple is recovered from its header byte; an even byte is the header of the legal triple it
decodes to; an odd byte has none. -/
def Obligations.HeaderRoundTrip : Prop :=
  (∀ wb sb lb : Nat, 8 ≤ wb → wb ≤ 15 → 4 ≤ sb → sb ≤ 7 → 5 ≤ lb → lb ≤ 8 →
    ∃ c, decodeConfig (headerByte wb sb lb) = some c ∧ c.wb.toNat = wb ∧ c.sb.toNat = sb ∧ c.lb.toNat = lb) ∧
  ∀ h : Byte,
    (h.getLsbD 0 = false → ∃ c, decodeConfig h = some c ∧ c.legal = true ∧
      headerByte c.wb.toNat c.sb.toNat c.lb.toNat = h) ∧
    (h.getLsbD 0 = true → decodeConfig h = none)

/-- R204 to R206 over the legal configurations: the formulas, the ranges that R9 and R30 give, and what R207 says of
MINLEN: the least length whose literals cost no less than a reference. -/
def Obligations.DerivedConstants : Prop :=
  ∀ c : Cfg, c.legal = true →
    c.minLen = (c.wb.toNat + c.sb.toNat) / (c.lb.toNat + 1) + 1 ∧ 2 ≤ c.minLen ∧ c.minLen ≤ 4 ∧
    c.maxLen = c.minLen + 2 ^ c.sb.toNat - 1 ∧ 17 ≤ c.maxLen ∧ c.maxLen ≤ 131 ∧
    c.cap = 2 ^ c.wb.toNat ∧ 256 ≤ c.cap ∧ c.cap ≤ 32768 ∧
    1 + c.wb.toNat + c.sb.toNat ≤ c.minLen * (c.lb.toNat + 1) ∧
    ∀ n, n < c.minLen → n * (c.lb.toNat + 1) < 1 + c.wb.toNat + c.sb.toNat

/-- R200, R201, in every state: the header byte of legal operands, InvalidConfig for others; the three fields of an
even byte, UnsupportedHeader for an odd one. Nothing but the response changes, by a fault either (that a fault of
HDR.ENCODE or HDR.DECODE used alone leaves the state and fault registers as they are is the model's reading,
log 7). -/
def Obligations.HeaderCodec : Prop :=
  ∀ s : State,
    (∀ wb sb lb : Nat,
      ((8 ≤ wb ∧ wb ≤ 15) ∧ (4 ≤ sb ∧ sb ≤ 7) ∧ (5 ≤ lb ∧ lb ≤ 8) →
        exec (.hdrEncode wb sb lb) s =
          .next { s with resp := .header (BitVec.ofNat 8 ((wb - 8) * 32 + (sb - 4) * 8 + (lb - 5) * 2)) }) ∧
      (¬ ((8 ≤ wb ∧ wb ≤ 15) ∧ (4 ≤ sb ∧ sb ≤ 7) ∧ (5 ≤ lb ∧ lb ≤ 8)) →
        exec (.hdrEncode wb sb lb) s = .next { s with resp := .fault (.invalidConfig wb sb lb) })) ∧
    ∀ h : Byte,
      (h.toNat % 2 = 0 → ∃ c, exec (.hdrDecode h) s = .next { s with resp := .config c } ∧
        c.wb.toNat = h.toNat / 32 + 8 ∧ c.sb.toNat = h.toNat / 8 % 4 + 4 ∧ c.lb.toNat = h.toNat / 2 % 4 + 5) ∧
      (h.toNat % 2 = 1 → exec (.hdrDecode h) s = .next { s with resp := .fault (.unsupportedHeader h) })

/-! ## The Bit Writer (40_bit_writer.md) -/

/-- BW.WRITE over a sink that takes the bytes: the field's bits follow the bits written so far, floor((NBITS + n) / 8)
bytes go to the sink, the rest is in BW.ACC; everything else is as before (R130, R131, R133). -/
def Obligations.BwWriteAppends : Prop :=
  ∀ (s : State) (value n : Nat), s.cmp.bw.flushed = false → n ≤ 16 →
    s.sink.acceptsNext ((s.cmp.bw.nbits.toNat + n) / 8) →
    ∃ (bytes : List Byte) (bw : BitWriter),
      exec (.bwWrite value n) s = .next
        { s with
          cmp := { s.cmp with bw := bw }
          sink := { taken := s.sink.taken ++ bytes,
                    answers := s.sink.answers.drop ((s.cmp.bw.nbits.toNat + n) / 8) }
          resp := .ok } ∧
      bytes.length = (s.cmp.bw.nbits.toNat + n) / 8 ∧ bw.nbits.toNat = (s.cmp.bw.nbits.toNat + n) % 8 ∧
      bw.acc.toNat < 2 ^ bw.nbits.toNat ∧ bw.flushed = false ∧
      bytesBits bytes ++ bw.bits = s.cmp.bw.bits ++ fieldBits n value

/-- R130: any sequence of fields written from an empty Bit Writer. B is the fields' bits one after another; the sink
has its whole bytes, BW.NBITS is its length modulo 8, BW.ACC its last bits; and any other fields with the same bits,
such as the same fields cut into parts, leave the same engine and the same sink. -/
def Obligations.BwWritesAreTheBitString : Prop :=
  ∀ (s : State) (fields : List (Nat × Nat)),
    s.cmp.bw = { acc := 0, nbits := 0, flushed := false } → s.sink.taken = [] → s.sink.acceptsAll →
    (∀ f ∈ fields, f.2 ≤ 16) →
    ∃ t, execAll (fields.map fun f => .bwWrite f.1 f.2) s = .next t ∧
      (let bits := fields.flatMap fun f => fieldBits f.2 f.1
       t.sink.taken.length = bits.length / 8 ∧ bytesBits t.sink.taken = bits.take (8 * (bits.length / 8)) ∧
       t.cmp.bw.nbits.toNat = bits.length % 8 ∧
       t.cmp.bw.acc.toNat = bitsValue (bits.drop (8 * (bits.length / 8)))) ∧
      ∀ others : List (Nat × Nat), (∀ f ∈ others, f.2 ≤ 16) →
        (others.flatMap fun f => fieldBits f.2 f.1) = (fields.flatMap fun f => fieldBits f.2 f.1) →
        ∃ u, execAll (others.map fun f => .bwWrite f.1 f.2) s = .next u ∧ u.cmp = t.cmp ∧ u.sink = t.sink

/-- One BW.WRITE and its field written in two consecutive parts leave the same state (R130). -/
def Obligations.BwWriteSplits : Prop :=
  ∀ (s : State) (value a b : Nat), s.cmp.bw.flushed = false → s.cmp.bw.acc.toNat < 2 ^ s.cmp.bw.nbits.toNat →
    s.sink.acceptsAll → a + b ≤ 16 →
    ∃ t, exec (.bwWrite value (a + b)) s = .next t ∧
      execAll [.bwWrite (value / 2 ^ b) a, .bwWrite value b] s = .next t

/-- R132, R155: a field of width 0 changes nothing but the response, on either side, while the unit goes on; a width
above 16 is refused. -/
def Obligations.WidthCorners : Prop :=
  ∀ (s : State) (value n : Nat),
    (s.cmp.bw.flushed = false →
      (s.cmp.bw.acc.toNat < 2 ^ s.cmp.bw.nbits.toNat → exec (.bwWrite value 0) s = .next { s with resp := .ok }) ∧
      (16 < n → exec (.bwWrite value n) s = .refused .badWidth)) ∧
    (s.dec.br.eos = false → s.dec.br.acc.toNat < 2 ^ s.dec.br.nbits.toNat →
      exec (.brRead 0) s = .next { s with resp := .value 0 }) ∧
    (16 < n → exec (.brRead n) s = .refused .badWidth)

/-- R136: BW.FLUSH that answers ok sets BW.FLUSHED; while it is set BW.WRITE and BW.FLUSH are refused; no operation
but CMP.INIT clears it. -/
def Obligations.FlushedUntilInit : Prop :=
  ∀ s : State,
    (∀ t, exec .bwFlush s = .next t → t.resp = .ok → t.cmp.bw.flushed = true) ∧
    (s.cmp.bw.flushed = true →
      (∀ value n, exec (.bwWrite value n) s = .refused .useAfterFlush) ∧
      exec .bwFlush s = .refused .useAfterFlush ∧
      ∀ i t, (∀ wb sb lb, i ≠ .cmpInit wb sb lb) → exec i s = .next t → t.cmp.bw.flushed = true)

/-- BW.FLUSH over a sink that takes the byte: zeros up to the byte boundary, no byte where there is none pending,
then an empty, flushed Bit Writer (R134, R135). -/
def Obligations.BwFlushPads : Prop :=
  ∀ s : State, s.cmp.bw.flushed = false → s.sink.acceptsNext 1 →
    ∃ bytes : List Byte,
      exec .bwFlush s = .next
        { s with
          cmp := { s.cmp with bw := { acc := 0, nbits := 0, flushed := true } }
          sink := { taken := s.sink.taken ++ bytes, answers := s.sink.answers.drop bytes.length }
          resp := .ok } ∧
      bytes.length = (if s.cmp.bw.nbits = 0 then 0 else 1) ∧
      bytesBits bytes = s.cmp.bw.bits ++ List.replicate ((8 - s.cmp.bw.nbits.toNat) % 8) false

/-- R137, R234: an operation that hands bytes to the sink ends at the first access of its own that fails, and has
then answered SinkError; the engine is FAULTED with code 5, and nothing of the other engine has changed. Where no
access fails it answers something else, BW.WRITE and BW.FLUSH ok. -/
def Obligations.SinkErrorStops : Prop :=
  ∀ (i : Instr) (s t : State),
    ((∃ value n, i = .bwWrite value n) ∨ i = .bwFlush ∨ (∃ wb sb lb, i = .cmpInit wb sb lb) ∨
      (∃ data, i = .cmpCompress data) ∨ i = .cmpFlush) →
    exec i s = .next t →
    ((t.resp = .fault .sinkError ∧
        ∃ used, s.sink.answers = used ++ .fails :: t.sink.answers ∧ ∀ a ∈ used, a = .accepts) ∨
      (t.resp ≠ .fault .sinkError ∧
        ∃ used, s.sink.answers = used ++ t.sink.answers ∧ ∀ a ∈ used, a = .accepts)) ∧
    (t.resp = .fault .sinkError → t.cmp.state = .faulted ∧ t.cmp.fault.code = 5) ∧
    ((∃ value n, i = .bwWrite value n) ∨ i = .bwFlush → t.resp = .ok ∨ t.resp = .fault .sinkError) ∧
    t.dec = s.dec ∧ t.source = s.source ∧ t.pull = s.pull ∧ t.pending = s.pending

/-! ## The Bit Reader (41_bit_reader.md) -/

/-- BR.READ where the stream still has the bits: they are the value, the rest of the stream is left, only the bytes
needed are pulled, BR.POS advances by n; everything else is as before (R150 to R152, R27). -/
def Obligations.BrReadNextBits : Prop :=
  ∀ (s : State) (n : Nat), s.dec.br.eos = false → n ≤ 16 → n ≤ s.unreadBits.length →
    ∃ (br : BitReader) (k : Nat) (t : State),
      exec (.brRead n) s = .next t ∧
      t = { s with
            dec := { s.dec with br := br }
            source := { answers := s.source.answers.drop k, delivered := s.source.delivered + k }
            resp := .value (bitsValue (s.unreadBits.take n)) } ∧
      k = (n - s.dec.br.nbits.toNat + 7) / 8 ∧ br.nbits.toNat + n = s.dec.br.nbits.toNat + 8 * k ∧
      br.acc.toNat < 2 ^ br.nbits.toNat ∧ br.eos = false ∧ t.unreadBits = s.unreadBits.drop n

/-- R150 for any sequence of reads: where the stream has their bits they all return, and the next read returns the
bits that follow theirs, or EndOfStream where they are not all there. -/
def Obligations.BrReadsAreTheBitString : Prop :=
  ∀ (s : State) (ns : List Nat) (n : Nat), s.dec.br.eos = false → s.source.endsCleanly →
    (∀ m ∈ ns, m ≤ 16) → n ≤ 16 → ns.sum ≤ s.unreadBits.length →
    ∃ t u, execAll (ns.map .brRead) s = .next t ∧ exec (.brRead n) t = .next u ∧
      (ns.sum + n ≤ s.unreadBits.length →
        u.resp = .value (bitsValue ((s.unreadBits.drop ns.sum).take n))) ∧
      (s.unreadBits.length < ns.sum + n → u.resp = .fault .endOfStream)

/-- R153: a read raises EndOfStream exactly where fewer bits are left than it wants and the source answers EXHAUSTED
after its last byte; then BR.EOS is 1 and no value is returned. The other engine, the window, the configuration
registers and OVF are as before. -/
def Obligations.BrEndOfStream : Prop :=
  ∀ (s : State) (n : Nat), s.dec.br.eos = false → n ≤ 16 →
    ∃ t, exec (.brRead n) s = .next t ∧
      (t.resp = .fault .endOfStream ↔ s.unreadBits.length < n ∧ s.source.endsCleanly) ∧
      (t.resp = .fault .endOfStream → t.dec.br.eos = true ∧ t.dec.win = s.dec.win ∧ t.dec.cfg = s.dec.cfg ∧
        t.dec.ovf = s.dec.ovf ∧ t.pull = s.pull) ∧
      t.cmp = s.cmp ∧ t.sink = s.sink ∧ t.pending = s.pending

/-- R154: once a BR.READ has raised EndOfStream, BR.EOS is 1; while it is 1 a BR.READ raises EndOfStream without
asking the source, and no operation but DEC.INIT clears it. -/
def Obligations.EndOfStreamSticks : Prop :=
  ∀ s : State,
    (∀ n t, exec (.brRead n) s = .next t → t.resp = .fault .endOfStream → t.dec.br.eos = true) ∧
    (s.dec.br.eos = true →
      (∀ n, n ≤ 16 → ∃ t, exec (.brRead n) s = .next t ∧ t.resp = .fault .endOfStream ∧ t.source = s.source) ∧
      ∀ i t, i ≠ .decInit → exec i s = .next t → t.dec.br.eos = true)

/-- R156, R276: BR.READ and DEC.DECOMPRESS end at the first access of their own that fails, and have then answered
SourceError: no bytes are returned, the engine is FAULTED with code 6. Where no access fails they answer something
else. The other engine is as before. -/
def Obligations.SourceErrorStops : Prop :=
  ∀ (i : Instr) (s t : State), ((∃ n, i = .brRead n) ∨ ∃ m, i = .decDecompress m) →
    exec i s = .next t →
    ((t.resp = .fault .sourceError ∧
        ∃ used, s.source.answers = used ++ .fails :: t.source.answers ∧ ∀ a ∈ used, a ≠ .fails) ∨
      (t.resp ≠ .fault .sourceError ∧
        ∃ used, s.source.answers = used ++ t.source.answers ∧ ∀ a ∈ used, a ≠ .fails)) ∧
    (t.resp = .fault .sourceError → t.dec.state = .faulted ∧ t.dec.fault.code = 6 ∧ t.pull = none) ∧
    t.cmp = s.cmp ∧ t.sink = s.sink ∧ t.pending = s.pending

/-- The units' operations used alone: an EndOfStream of BR.READ is its response and leaves the engine's state and
fault registers as they are, and none of them is refused for the engine's state (the model's choices, log 6 and
7). -/
def Obligations.UnitsAlone : Prop :=
  ∀ s : State,
    (∀ n t, exec (.brRead n) s = .next t → t.resp = .fault .endOfStream →
      t.dec.state = s.dec.state ∧ t.dec.fault = s.dec.fault) ∧
    ∀ i, ((∃ value n, i = .bwWrite value n) ∨ i = .bwFlush ∨ (∃ n, i = .brRead n) ∨ (∃ e b, i = .winWriteByte e b) ∨
        (∃ e seq, i = .winWriteBytes e seq) ∨ (∃ pattern start, i = .winSearch pattern start) ∨
        (∃ pos len, i = .winReadSpan pos len) ∨ (∃ wb sb lb, i = .hdrEncode wb sb lb) ∨ ∃ h, i = .hdrDecode h) →
      exec i s ≠ .refused .badState ∧ exec i s ≠ .refused .operationInProgress

/-! ## The Window (42_window.md) -/

/-- R171: the byte is stored at the cursor, every other cell is as before, the cursor advances modulo C, and nothing
else changes but the response; a value above 255 is refused (R345). -/
def Obligations.WindowWriteByte : Prop :=
  ∀ (s : State) (e : Engine) (b : Nat),
    (b < 256 → Memory.wf (s.window e).buf →
      ∃ w, exec (.winWriteByte e b) s = .next { s.setWindow e w with resp := .ok } ∧
        (∀ i, Memory.read w.buf i =
          if i = (s.window e).cur.toNat then BitVec.ofNat 8 b else Memory.read (s.window e).buf i) ∧
        w.cur.toNat = ((s.window e).cur.toNat + 1) % 2 ^ (s.cfgOf e).wb.toNat) ∧
    (255 < b → exec (.winWriteByte e b) s = .refused .badOperand)

/-- R172: WIN.WRITE_BYTES is WIN.WRITE_BYTE of each byte, in order. -/
def Obligations.WindowWriteBytes : Prop :=
  ∀ (s : State) (e : Engine) (seq : List Byte),
    ∃ t, execAll (seq.map fun b => .winWriteByte e b.toNat) s = .next t ∧
      exec (.winWriteBytes e seq) s = .next { t with resp := .ok }

/-- R170: what a new window holds after k bytes: the cursor is k mod C, an index holds the last byte that landed on
it, or zero where none has. -/
def Obligations.WindowContents : Prop :=
  ∀ (s : State) (e : Engine) (seq : List Byte),
    Memory.wf (s.window e).buf → (s.window e).cur = 0 →
    (∀ i, i < (s.cfgOf e).cap → Memory.read (s.window e).buf i = 0) →
    ∃ t, exec (.winWriteBytes e seq) s = .next t ∧
      (t.window e).cur.toNat = seq.length % (s.cfgOf e).cap ∧
      ∀ i, i < (s.cfgOf e).cap →
        (seq.length ≤ i → Memory.read (t.window e).buf i = 0) ∧
        ∀ j (h : j < seq.length), j % (s.cfgOf e).cap = i → seq.length ≤ j + (s.cfgOf e).cap →
          Memory.read (t.window e).buf i = seq[j]

/-- R174, R177: the least index from start on at which the pattern lies wholly in the linear buffer, or NOT_FOUND
where there is none, in particular where the pattern is longer than C - start; nothing but the response changes. An
empty pattern and a start above C are refused. -/
def Obligations.SearchFindsLeast : Prop :=
  ∀ (s : State) (pattern : List Byte) (start : Nat),
    (pattern ≠ [] → start ≤ 2 ^ s.cmp.cfg.wb.toNat →
      ∃ r, exec (.winSearch pattern start) s = .next { s with resp := r } ∧
        ((∃ i, r = .found i ∧ start ≤ i ∧ occursAt (2 ^ s.cmp.cfg.wb.toNat) s.cmp.win pattern i ∧
            ∀ j, start ≤ j → j < i → ¬ occursAt (2 ^ s.cmp.cfg.wb.toNat) s.cmp.win pattern j) ∨
          (r = .notFound ∧ ∀ j, start ≤ j → ¬ occursAt (2 ^ s.cmp.cfg.wb.toNat) s.cmp.win pattern j)) ∧
        (2 ^ s.cmp.cfg.wb.toNat - start < pattern.length → r = .notFound)) ∧
    (pattern = [] ∨ 2 ^ s.cmp.cfg.wb.toNat < start → exec (.winSearch pattern start) s = .refused .badOperand)

/-- R179: the lowest occurrence of a longer pattern is not below that of its first bytes, starting there loses
nothing, and where the first bytes do not occur the longer pattern does not. -/
def Obligations.SearchMonotone : Prop :=
  ∀ (s : State) (p : List Byte) (n i : Nat), 1 ≤ n → n < p.length →
    (exec (.winSearch (p.take n) 0) s = .next { s with resp := .found i } →
      ∀ j, exec (.winSearch (p.take (n + 1)) 0) s = .next { s with resp := .found j } →
        i ≤ j ∧ exec (.winSearch (p.take (n + 1)) i) s = .next { s with resp := .found j }) ∧
    (exec (.winSearch (p.take n) 0) s = .next { s with resp := .notFound } →
      exec (.winSearch (p.take (n + 1)) 0) s = .next { s with resp := .notFound })

/-- R178: len bytes from pos on, the index wrapping modulo C; nothing but the response changes. Operands out of range
are refused (R345). -/
def Obligations.ReadSpan : Prop :=
  ∀ (s : State) (pos len : Nat),
    (pos < s.dec.cfg.cap → 1 ≤ len → len ≤ s.dec.cfg.maxLen →
      ∃ out : List Byte, exec (.winReadSpan pos len) s = .next { s with resp := .bytes out } ∧
        out.length = len ∧
        ∀ k (h : k < out.length), out[k] = Memory.read s.dec.win.buf ((pos + k) % s.dec.cfg.cap)) ∧
    (s.dec.cfg.cap ≤ pos ∨ len = 0 ∨ s.dec.cfg.maxLen < len →
      exec (.winReadSpan pos len) s = .refused .badOperand)

/-! ## The compressor (44_compressor.md) -/

/-- R222: CMP.INIT with legal operands, in every state: over a sink that takes the byte, the whole engine is set, and
the header byte is all that goes to the sink; over one that fails, SinkError. -/
def Obligations.CmpInitLegal : Prop :=
  ∀ (s : State) (wb sb lb : Nat), configLegal wb sb lb = true →
    (s.sink.acceptsNext 1 →
      ∃ (cfg : Cfg) (w : Window),
        exec (.cmpInit wb sb lb) s = .next
          { s with
            cmp := { bw := { acc := 0, nbits := 0, flushed := false }, win := w, cfg := cfg, state := .active,
                     fault := .none }
            sink := { taken := s.sink.taken ++ [headerByte wb sb lb], answers := s.sink.answers.drop 1 }
            resp := .ok } ∧
        cfg.wb.toNat = wb ∧ cfg.sb.toNat = sb ∧ cfg.lb.toNat = lb ∧ w.cur = 0 ∧
        ∀ i, i < 2 ^ wb → Memory.read w.buf i = 0) ∧
    (∀ rest, s.sink.answers = .fails :: rest →
      ∃ t, exec (.cmpInit wb sb lb) s = .next t ∧ t.resp = .fault .sinkError ∧ t.cmp.state = .faulted)

/-- R221: CMP.INIT with an operand out of range, in every state: InvalidConfig, FAULTED, code 4, and every other
register as it was; nothing goes to the sink. A step that takes a CMP.INIT to which the host gives no operands runs
it with 10, 4, 8 (the form of such a command on the port is the model's choice, log 32). -/
def Obligations.CmpInitIllegal : Prop :=
  FaultCode.code .invalidConfig = 4 ∧ CmpState.code .faulted = 3 ∧
  (∀ (s : State) (wb sb lb : Nat),
    ¬ ((8 ≤ wb ∧ wb ≤ 15) ∧ (4 ≤ sb ∧ sb ≤ 7) ∧ (5 ≤ lb ∧ lb ≤ 8)) →
    exec (.cmpInit wb sb lb) s = .next
      { s with
        cmp := { s.cmp with state := .faulted, fault := .invalidConfig }
        resp := .fault (.invalidConfig wb sb lb) }) ∧
  ∀ (s : State) (data : List Byte) (rest : List HostEvent), s.pull = none →
    s.pending = .cmp { code := 0, init := none, data := data } :: rest →
    step s = exec (.cmpInit 10 4 8) { s with pending := rest }

/-- R229: FindMatch without a loop. With M the lesser of MAXLEN and the bytes left, best is the greatest length from
MINLEN to M that occurs in the linear buffer, or 0; idx is the least index at which it occurs. -/
def Obligations.FindMatchIsGreatest : Prop :=
  ∀ (cfg : Cfg) (w : Window) (rest : List Byte),
    let best := (findMatch cfg w rest).1
    let idx := (findMatch cfg w rest).2
    let m := min cfg.maxLen rest.length
    (best = 0 ∨ cfg.minLen ≤ best ∧ best ≤ m ∧ occursAt cfg.cap w (rest.take best) idx ∧
      ∀ j, j < idx → ¬ occursAt cfg.cap w (rest.take best) j) ∧
    ∀ n, best < n → cfg.minLen ≤ n → n ≤ m → ∀ j, ¬ occursAt cfg.cap w (rest.take n) j

/-- CMP.COMPRESS in ACTIVE over a sink that takes every byte, of bytes that all fit: the tokens of the greedy parse
follow the bits written so far, they stand for the chunk, and the chunk goes to the window; everything else is as
before (R223, R225 to R228, R236). -/
def Obligations.CompressWritesGreedyTokens : Prop :=
  ∀ (s : State) (data : List Byte), s.cmp.state = .active → s.cmp.bw.flushed = false → s.sink.acceptsAll →
    narrow s.cmp.cfg data →
    ∃ (bw : BitWriter) (k : Sink) (t : State),
      exec (.cmpCompress data) s = .next t ∧
      t = { s with
            cmp := { s.cmp with bw := bw, win := Window.writeBytes s.cmp.cfg.cap s.cmp.win data }
            sink := k
            resp := .ok } ∧
      bw.flushed = false ∧ k.acceptsAll ∧
      (∀ x ∈ greedyTokens s.cmp.cfg s.cmp.win data, x.instr.wf s.cmp.cfg = true) ∧
      expand s.cmp.cfg s.cmp.win (greedyTokens s.cmp.cfg s.cmp.win data) = data ∧
      t.writtenBits =
        s.writtenBits ++ (greedyTokens s.cmp.cfg s.cmp.win data).flatMap (tokenBits s.cmp.cfg)

/-- R235: a chunk with a byte that does not fit, after bytes that do. The state is that after the bytes before it,
but for the fault: the engine is FAULTED with code 1, refuses CMP.COMPRESS and CMP.FLUSH, and stays so whatever
operation but CMP.INIT follows. The window holds only bytes that fit, as in every state that a run reaches
(StepKeepsInvariant). -/
def Obligations.ExcessBitsIsPrecise : Prop :=
  ∀ (s : State) (before : List Byte) (b : Byte) (after : List Byte),
    s.cmp.state = .active → s.cmp.bw.flushed = false → s.sink.acceptsAll → Memory.wf s.cmp.win.buf →
    s.cmp.win.inv s.cmp.cfg → narrow s.cmp.cfg before → 2 ^ s.cmp.cfg.lb.toNat ≤ b.toNat →
    ∃ u t, exec (.cmpCompress before) s = .next u ∧ exec (.cmpCompress (before ++ b :: after)) s = .next t ∧
      t = { u with
            cmp := { u.cmp with state := .faulted, fault := .excessBits }
            resp := .fault (.excessBits b before.length) } ∧
      t.cmp.fault.code = 1 ∧
      (∀ data, exec (.cmpCompress data) t = .refused .badState) ∧ exec .cmpFlush t = .refused .badState ∧
      ∀ i v, (∀ wb sb lb, i ≠ .cmpInit wb sb lb) → exec i t = .next v → v.cmp.state = .faulted

/-- CMP.FLUSH in ACTIVE over a sink that takes the byte: the pending bits padded with zeros, then FLUSHED; the window
and the rest are as before (R232). -/
def Obligations.CmpFlushEndsStream : Prop :=
  ∀ s : State, s.cmp.state = .active → s.cmp.bw.flushed = false → s.sink.acceptsNext 1 →
    ∃ bytes : List Byte,
      exec .cmpFlush s = .next
        { s with
          cmp := { s.cmp with bw := { acc := 0, nbits := 0, flushed := true }, state := .flushed }
          sink := { taken := s.sink.taken ++ bytes, answers := s.sink.answers.drop bytes.length }
          resp := .ok } ∧
      bytesBits (s.sink.taken ++ bytes) =
        s.writtenBits ++ List.replicate ((8 - s.cmp.bw.nbits.toNat) % 8) false

/-- R231, R233: CMP.COMPRESS and CMP.FLUSH are refused unless CMP.STATE is ACTIVE; CMP.INIT is accepted in every
state; an empty chunk in ACTIVE changes nothing but the response. -/
def Obligations.CompressorStateChecks : Prop :=
  ∀ s : State,
    (s.cmp.state ≠ .active →
      (∀ data, exec (.cmpCompress data) s = .refused .badState) ∧ exec .cmpFlush s = .refused .badState) ∧
    (s.cmp.state = .active → exec (.cmpCompress []) s = .next { s with resp := .ok }) ∧
    ∀ wb sb lb, ∃ t, exec (.cmpInit wb sb lb) s = .next t

/-! ## The decompressor (45_decompressor.md) -/

/-- R260: DEC.INIT between operations, in every state of the engine: reader, OVF, fault and state are set, the window
and the configuration registers are left; the count of bytes delivered starts again (the model's reading of R27,
log 30). -/
def Obligations.DecInitResets : Prop :=
  ∀ s : State, s.pull = none →
    exec .decInit s = .next
      { s with
        dec := { br := { acc := 0, nbits := 0, eos := false }, win := s.dec.win, cfg := s.dec.cfg, ovf := [],
                 state := .hdrPending, fault := .none }
        source := { s.source with delivered := 0 }
        resp := .ok }

/-- The header's effect inside a DEC.DECOMPRESS: the configuration of its fields, a new window, MID_STREAM; the rest
is as before (R262, R91). -/
def Obligations.HeaderOpensStream : Prop :=
  ∀ (s : State) (p : Pull) (w : BitVec 3) (sz l : BitVec 2), s.pull = some p → s.dec.state = .hdrPending →
    ∃ (cfg : Cfg) (win : Window),
      exec (.header w sz l) s =
        .next { s with dec := { s.dec with cfg := cfg, win := win, state := .midStream } } ∧
      cfg.wb.toNat = w.toNat + 8 ∧ cfg.sb.toNat = sz.toNat + 4 ∧ cfg.lb.toNat = l.toNat + 5 ∧ win.cur = 0 ∧
      ∀ i, i < 2 ^ (w.toNat + 8) → Memory.read win.buf i = 0

/-- R266: a literal goes to the window at the cursor and to the output; the rest is as before. (That a value of 2^LB
or more runs too, and a literal where the output is full or OVF is not empty, is the model's choice, log 28 and
33.) -/
def Obligations.LiteralAppends : Prop :=
  ∀ (s : State) (p : Pull) (v : Byte), s.pull = some p → s.dec.state = .midStream → Memory.wf s.dec.win.buf →
    ∃ win : Window,
      exec (.literal v) s =
        .next { s with dec := { s.dec with win := win }, pull := some { p with out := p.out ++ [v] } } ∧
      (∀ i, Memory.read win.buf i = if i = s.dec.win.cur.toNat then v else Memory.read s.dec.win.buf i) ∧
      win.cur.toNat = (s.dec.win.cur.toNat + 1) % s.dec.cfg.cap

/-- R267, R269: the span that WIN.READ_SPAN gives is written to the window whole; the output takes it, or, past the
limit, its first bytes, the rest being OVF; everything else is as before. (That this holds where the output is full
or OVF is not empty too, where R263 has no token, is the model's choice, log 33.) -/
def Obligations.ReferenceCopies : Prop :=
  ∀ (s : State) (p : Pull) (pos : BitVec 15) (n : BitVec 7), s.pull = some p → s.dec.state = .midStream →
    pos.toNat < 2 ^ s.dec.cfg.wb.toNat → n.toNat < 2 ^ s.dec.cfg.sb.toNat →
    ∃ (span out ovf : List Byte),
      exec (.winReadSpan pos.toNat (n.toNat + s.dec.cfg.minLen)) s = .next { s with resp := .bytes span } ∧
      exec (.reference pos n) s = .next
        { s with
          dec := { s.dec with win := Window.writeBytes s.dec.cfg.cap s.dec.win span, ovf := ovf }
          pull := some { p with out := p.out ++ out } } ∧
      (p.limit = none → out = span ∧ ovf = s.dec.ovf) ∧
      ∀ l, p.limit = some l →
        (span.length ≤ l - p.out.length → out = span ∧ ovf = s.dec.ovf) ∧
        (l - p.out.length < span.length →
          out = span.take (l - p.out.length) ∧ ovf = span.drop (l - p.out.length) ∧
          (p.out.length ≤ l → (p.out ++ out).length = l))

/-- R268: the copy is a snapshot copy. After a reference every byte of the span stands in the window as its source
stood before, and every other cell is as before, for a legal configuration and a cursor below C (both part of the
invariant of StepKeepsInvariant in MID_STREAM). -/
def Obligations.ReferenceIsSnapshot : Prop :=
  ∀ (s t : State) (p : Pull) (pos : BitVec 15) (n : BitVec 7), s.pull = some p → s.dec.state = .midStream →
    s.dec.cfg.legal = true → Memory.wf s.dec.win.buf → s.dec.win.cur.toNat < s.dec.cfg.cap →
    exec (.reference pos n) s = .next t →
    (∀ k, k < n.toNat + s.dec.cfg.minLen →
      Memory.read t.dec.win.buf ((s.dec.win.cur.toNat + k) % s.dec.cfg.cap) =
        Memory.read s.dec.win.buf ((pos.toNat + k) % s.dec.cfg.cap)) ∧
    (∀ i, (∀ k, k < n.toNat + s.dec.cfg.minLen → (s.dec.win.cur.toNat + k) % s.dec.cfg.cap ≠ i) →
      Memory.read t.dec.win.buf i = Memory.read s.dec.win.buf i) ∧
    t.dec.win.cur.toNat = (s.dec.win.cur.toNat + (n.toNat + s.dec.cfg.minLen)) % s.dec.cfg.cap

/-- Padding ends the stream and decodes to nothing: FINISHED with BR.EOS set, the window, OVF, the output and the
rest as before; what BR.ACC and BR.NBITS hold is not said (R104, R157, R270; that padding is an instruction of its
own is the model's choice, log 12). -/
def Obligations.PadEndsStream : Prop :=
  ∀ (s : State) (p : Pull) (k : BitVec 3), s.pull = some p → s.dec.state = .midStream →
    ∃ br f, exec (.pad k) s =
        .next { s with dec := { s.dec with br := br, state := .finished }, freeCount := f } ∧ br.eos = true

/-- What DEC.DECOMPRESS's instructions do elsewhere: no effect without an operation in progress, none in another
decoder state, none for a field value that no field of the configuration holds; and no second operation of the
engine inside one (the model's choices, log 13, 21 and 28). -/
def Obligations.StreamInstructionsElsewhere : Prop :=
  ∀ s : State,
    (s.pull = none →
      (∀ w sz l, exec (.header w sz l) s = .refused .noOperation) ∧
      (∀ v, exec (.literal v) s = .refused .noOperation) ∧
      (∀ pos n, exec (.reference pos n) s = .refused .noOperation) ∧
      ∀ k, exec (.pad k) s = .refused .noOperation) ∧
    ∀ p, s.pull = some p →
      (s.dec.state ≠ .hdrPending → ∀ w sz l, exec (.header w sz l) s = .refused .badState) ∧
      (s.dec.state ≠ .midStream →
        (∀ v, exec (.literal v) s = .refused .badState) ∧
        (∀ pos n, exec (.reference pos n) s = .refused .badState) ∧
        ∀ k, exec (.pad k) s = .refused .badState) ∧
      (s.dec.state = .midStream → ∀ (pos : BitVec 15) (n : BitVec 7),
        2 ^ s.dec.cfg.wb.toNat ≤ pos.toNat ∨ 2 ^ s.dec.cfg.sb.toNat ≤ n.toNat →
        exec (.reference pos n) s = .refused .badOperand) ∧
      exec .decInit s = .refused .operationInProgress ∧
      ∀ m, exec (.decDecompress m) s = .refused .operationInProgress

/-- DEC.DECOMPRESS between operations: refused in FAULTED; in every other state it ends, whatever the source answers,
with the compressor engine, the sink and the host's events as before, and with at most max_size bytes (R261,
R265). -/
def Obligations.DecompressEnds : Prop :=
  ∀ (s : State) (m : Int), s.pull = none →
    (s.dec.state = .faulted → exec (.decDecompress m) s = .refused .badState) ∧
    (s.dec.state ≠ .faulted →
      ∃ t, exec (.decDecompress m) s = .next t ∧ t.pull = none ∧ t.cmp = s.cmp ∧ t.sink = s.sink ∧
        t.pending = s.pending ∧ ∀ out, t.resp = .bytes out → 0 ≤ m → (out.length : Int) ≤ m)

/-- DEC.DECOMPRESS over a source that ends and a good header: it returns the first bytes still owed (OVF, then the
bytes that the stream's tokens stand for), as many as max_size allows, and the rest stays owed; the stream is FINISHED
after it exactly where it was before or fewer bytes were owed than max_size (R261 to R273). Whatever the source would
answer, nothing is decoded and the source is not asked where OVF alone fills max_size, and max_size 0 reads the header
and nothing else (R262, R263). -/
def Obligations.DecompressReturnsOwed : Prop :=
  (∀ (s : State) (m : Int), s.pull = none → s.Readable →
    ∃ (t : State) (k : Nat),
      exec (.decDecompress m) s = .next t ∧ t.pull = none ∧ t.Readable ∧
      t.resp = .bytes (s.owed.take k) ∧ t.owed = s.owed.drop k ∧ t.windowAtEnd = s.windowAtEnd ∧
      k = (if m < 0 then s.owed.length else min s.owed.length m.toNat) ∧
      (t.dec.state = .finished ↔ s.dec.state = .finished ∨ m < 0 ∨ s.owed.length < m.toNat) ∧
      t.cmp = s.cmp ∧ t.sink = s.sink ∧ t.pending = s.pending) ∧
  (∀ (s : State) (n : Nat), s.pull = none → s.dec.state = .midStream ∨ s.dec.state = .finished →
    n ≤ s.dec.ovf.length →
    exec (.decDecompress n) s = .next
      { s with dec := { s.dec with ovf := s.dec.ovf.drop n }, resp := .bytes (s.dec.ovf.take n) }) ∧
  ∀ (s : State) (h : Nat) (rest : Bits) (c : Cfg), s.pull = none → s.dec.state = .hdrPending →
    s.dec.br.eos = false → takeField 8 s.unreadBits = some (h, rest) →
    decodeConfig (BitVec.ofNat 8 h) = some c →
    ∃ (src : Source) (br : BitReader) (win : Window) (t : State),
      exec (.decDecompress 0) s = .next t ∧
      t = { s with
            dec := { s.dec with br := br, win := win, cfg := c, state := .midStream }
            source := src
            resp := .bytes [] } ∧
      t.unreadBits = rest ∧ win.cur = 0 ∧ ∀ i, i < c.cap → Memory.read win.buf i = 0

/-- R272 and the fault of R262: a source with no header byte gives EndOfStream, a header with its reserved bit set
UnsupportedHeader, from one byte; either way no bytes, FAULTED with that code, and the window, the configuration
registers and OVF as before. -/
def Obligations.HeaderFaults : Prop :=
  ∀ (s : State) (m : Int), s.pull = none → s.dec.state = .hdrPending → s.dec.br.eos = false →
    s.source.endsCleanly →
    (s.unreadBits.length < 8 →
      ∃ t, exec (.decDecompress m) s = .next t ∧ t.pull = none ∧ t.resp = .fault .endOfStream ∧
        t.dec.state = .faulted ∧ t.dec.fault.code = 2 ∧ t.dec.win = s.dec.win ∧ t.dec.cfg = s.dec.cfg ∧
        t.dec.ovf = s.dec.ovf ∧ t.cmp = s.cmp) ∧
    (∀ h rest, takeField 8 s.unreadBits = some (h, rest) → h % 2 = 1 →
      ∃ t, exec (.decDecompress m) s = .next t ∧ t.pull = none ∧
        t.resp = .fault (.unsupportedHeader (BitVec.ofNat 8 h)) ∧ t.dec.state = .faulted ∧
        t.dec.fault.code = 3 ∧ t.dec.win = s.dec.win ∧ t.dec.cfg = s.dec.cfg ∧
        t.dec.ovf = s.dec.ovf ∧ t.unreadBits = rest ∧ t.cmp = s.cmp)

/-- R271: after FINISHED, with OVF empty, every DEC.DECOMPRESS returns the empty sequence and changes nothing
else. -/
def Obligations.FinishedReturnsNothing : Prop :=
  ∀ (s : State) (m : Int), s.pull = none → s.dec.state = .finished → s.dec.ovf = [] →
    exec (.decDecompress m) s = .next { s with resp := .bytes [] }

/-! ## Whole streams (47_properties.md) -/

/-- R304: chunk-invariance. Over any source that ends and a good header, pulls with limits of at least 1 return the
first bytes of what one unbounded pull on the same source returns; pulls whose last returns fewer bytes than its
limit return all of them, and leave the same window. -/
def Obligations.ChunkInvariance : Prop :=
  ∀ s : State, s.pull = none → s.Readable →
    ∃ (u : State) (all : List Byte), exec (.decDecompress (-1)) s = .next u ∧ u.resp = .bytes all ∧
      (∀ ms : List Nat, (∀ m ∈ ms, 1 ≤ m) → ∃ t, pulls ms s = some (all.take ms.sum, t)) ∧
      ∀ (ms : List Nat) (m : Nat) (some₁ last : List Byte) (s₁ t : State), (∀ x ∈ ms, 1 ≤ x) →
        pulls ms s = some (some₁, s₁) → pulls [m] s₁ = some (last, t) → last.length < m →
        some₁ ++ last = all ∧ t.dec.win = u.dec.win

/-- R303: round trip. A legal configuration, any chunks of bytes that fit, a sink that takes every byte: CMP.INIT,
CMP.COMPRESS of each chunk and CMP.FLUSH give a stream; a decompressor engine given that stream as its source
returns, after DEC.INIT, the chunks' bytes from one DEC.DECOMPRESS(-1). The two engines end with equal cursors and
equal windows (R301). -/
def Obligations.RoundTrip : Prop :=
  ∀ (s : State) (wb sb lb : Nat) (chunks : List (List Byte)),
    configLegal wb sb lb = true → s.sink.taken = [] → s.sink.acceptsAll → Memory.wf s.cmp.win.buf →
    (∀ data ∈ chunks, narrow (Cfg.ofNats wb sb lb) data) →
    ∃ t, execAll (.cmpInit wb sb lb :: chunks.map .cmpCompress ++ [.cmpFlush]) s = .next t ∧
      ∀ d : State, d.pull = none → Memory.wf d.dec.win.buf → d.source.answers = t.sink.taken.map .byte →
        ∃ u, execAll [.decInit, .decDecompress (-1)] d = .next u ∧ u.resp = .bytes chunks.flatten ∧
          u.dec.win.cur = t.cmp.win.cur ∧
          ∀ i, i < 2 ^ wb → Memory.read u.dec.win.buf i = Memory.read t.cmp.win.buf i

/-- The last sentence of R308: a stream is never longer than one byte and the bits that literals alone would take,
rounded up to bytes. -/
def Obligations.StreamLength : Prop :=
  ∀ (s : State) (wb sb lb : Nat) (chunks : List (List Byte)),
    configLegal wb sb lb = true → s.sink.taken = [] → s.sink.acceptsAll →
    (∀ data ∈ chunks, narrow (Cfg.ofNats wb sb lb) data) →
    ∃ t, execAll (.cmpInit wb sb lb :: chunks.map .cmpCompress ++ [.cmpFlush]) s = .next t ∧
      t.sink.taken.length ≤ 1 + (chunks.flatten.length * (lb + 1) + 7) / 8

/-- R309: every byte that a DEC.DECOMPRESS returns is less than 2^LB of the stream's header, for any source, from
every state of the invariant of StepKeepsInvariant. -/
def Obligations.OutputAlphabet : Prop :=
  ∀ (s t : State) (m : Int) (out : List Byte), s.Inv → s.pull = none → exec (.decDecompress m) s = .next t →
    t.resp = .bytes out → ∀ b ∈ out, b.toNat < 2 ^ t.dec.cfg.lb.toNat

/-! ## The whole machine -/

/-- R39: the values after reset. -/
def Obligations.ResetValues : Prop :=
  State.reset.cmp.bw = { acc := 0, nbits := 0, flushed := false } ∧
  State.reset.dec.br = { acc := 0, nbits := 0, eos := false } ∧
  State.reset.cmp.win.cur = 0 ∧ State.reset.dec.win.cur = 0 ∧
  (∀ i, Memory.read State.reset.cmp.win.buf i = 0 ∧ Memory.read State.reset.dec.win.buf i = 0) ∧
  State.reset.cmp.cfg = { wb := 10, sb := 4, lb := 8 } ∧ State.reset.dec.cfg = { wb := 10, sb := 4, lb := 8 } ∧
  State.reset.cmp.cfg.minLen = 2 ∧ State.reset.cmp.cfg.maxLen = 17 ∧ State.reset.cmp.cfg.cap = 1024 ∧
  State.reset.cmp.state = .unconfigured ∧ State.reset.cmp.state.code = 0 ∧
  State.reset.dec.state = .hdrPending ∧ State.reset.dec.state.code = 0 ∧
  State.reset.cmp.fault.code = 0 ∧ State.reset.dec.fault.code = 0 ∧ State.reset.dec.ovf = [] ∧
  State.reset.brPos = 0

/-- R20, R77: an operation of one engine changes nothing of the other, of the other's stream, or of what the host
will do. -/
def Obligations.EnginesShareNothing : Prop :=
  ∀ (s t : State),
    (∀ i, ((∃ wb sb lb, i = .cmpInit wb sb lb) ∨ (∃ data, i = .cmpCompress data) ∨ i = .cmpFlush ∨
        (∃ value n, i = .bwWrite value n) ∨ i = .bwFlush ∨ (∃ b, i = .winWriteByte .compressor b) ∨
        (∃ seq, i = .winWriteBytes .compressor seq) ∨ ∃ pattern start, i = .winSearch pattern start) →
      exec i s = .next t → t.dec = s.dec ∧ t.source = s.source ∧ t.pull = s.pull ∧ t.pending = s.pending) ∧
    ∀ i, ((∃ w sz l, i = .header w sz l) ∨ (∃ v, i = .literal v) ∨ (∃ pos n, i = .reference pos n) ∨
        (∃ k, i = .pad k) ∨ i = .decInit ∨ (∃ m, i = .decDecompress m) ∨ (∃ n, i = .brRead n) ∨
        (∃ b, i = .winWriteByte .decompressor b) ∨ (∃ seq, i = .winWriteBytes .decompressor seq) ∨
        ∃ pos len, i = .winReadSpan pos len) →
      exec i s = .next t → t.cmp = s.cmp ∧ t.sink = s.sink ∧ t.pending = s.pending

/-- The compressor engine's operations do not depend on the decompressor engine, its source or its operation in
progress: with others in their place the result is the same but for them (R20, R77). -/
def Obligations.CompressorIgnoresDecompressor : Prop :=
  ∀ (i : Instr) (s t : State) (d : Decompressor) (src : Source) (p : Option Pull),
    ((∃ wb sb lb, i = .cmpInit wb sb lb) ∨ (∃ data, i = .cmpCompress data) ∨ i = .cmpFlush) →
    exec i s = .next t →
    exec i { s with dec := d, source := src, pull := p } =
      .next { t with dec := d, source := src, pull := p }

/-- R29: an engine's configuration registers are written by its initialisation alone, CMP.INIT on one side, the
header on the other, and then with a legal value, but for the faults after which they are unspecified (R336,
R337). -/
def Obligations.ConfigWrittenByInit : Prop :=
  ∀ (i : Instr) (s t : State), exec i s = .next t →
    (t.cmp.cfg = s.cmp.cfg ∨ t.resp = .fault .sinkError ∨
      (∃ wb sb lb, i = .cmpInit wb sb lb) ∧ t.cmp.cfg.legal = true) ∧
    (t.dec.cfg = s.dec.cfg ∨ t.resp = .fault .sourceError ∨
      s.dec.state = .hdrPending ∧ ((∃ w sz l, i = .header w sz l) ∨ ∃ m, i = .decDecompress m) ∧
        t.dec.cfg.legal = true)

/-- R341 for the commands of the two engines: a FAULTED engine refuses them all but its initialisation, and no other
operation takes it out of FAULTED (the units' operations used alone run, log 6). -/
def Obligations.FaultedUntilInit : Prop :=
  ∀ s : State,
    (s.cmp.state = .faulted →
      (∀ data, exec (.cmpCompress data) s = .refused .badState) ∧ exec .cmpFlush s = .refused .badState ∧
      ∀ i t, (∀ wb sb lb, i ≠ .cmpInit wb sb lb) → exec i s = .next t → t.cmp.state = .faulted) ∧
    (s.dec.state = .faulted →
      (s.pull = none → ∀ m, exec (.decDecompress m) s = .refused .badState) ∧
      ∀ i t, i ≠ .decInit → exec i s = .next t → t.dec.state = .faulted)

/-- The reserved codes of cmp_cmd and dec_cmd are refused in every state: BadCommand (R345, R106). -/
def Obligations.ReservedCommandsRefused : Prop :=
  ∀ (s : State) (x : BitVec 1),
    exec .cmpReserved s = .refused .badCommand ∧ exec (.decReserved x) s = .refused .badCommand

/-- A step takes the host's next event where no DEC.DECOMPRESS is in progress: it runs the instruction that a
command's code decodes to, in particular the one it encodes; a hardware reset sets one engine to its values after
reset; with no event it changes nothing (R106, R370, R372, R373; the list of events, and what of the source a reset
leaves, are the model's choices, log 15 and 24). -/
def Obligations.StepTakesEvent : Prop :=
  ∀ (s : State) (rest : List HostEvent), s.pull = none →
    (s.pending = [] → step s = .next s) ∧
    (∀ c, s.pending = .cmp c :: rest → step s = exec (decodeCmp c) { s with pending := rest }) ∧
    (∀ d, s.pending = .dec d :: rest → step s = exec (decodeDec d) { s with pending := rest }) ∧
    (∀ (cfg : Cfg) (i : Instr), i.wf cfg = true →
      (∀ c, encode cfg i = some (.cmp c) → s.pending = .cmp c :: rest →
        step s = exec i { s with pending := rest }) ∧
      ∀ d, encode cfg i = some (.dec d) → s.pending = .dec d :: rest →
        step s = exec i { s with pending := rest }) ∧
    (s.pending = .resetCmp :: rest →
      step s = .next { s with cmp := State.reset.cmp, pending := rest }) ∧
    (s.pending = .resetDec :: rest →
      step s = .next
        { s with dec := State.reset.dec, source := { s.source with delivered := 0 }, pending := rest })

/-- A step inside a DEC.DECOMPRESS once the header is read. Where the output is full, the operation returns it: no
token is decoded, the source is not asked, OVF and the window are as before. Where it has room and OVF is not empty,
bytes of OVF go to it, oldest first, as many as it has room for, and no token is fetched. In MID_STREAM with OVF empty
and room for a byte, the step runs the token that the bits of the stream decode to, on the state with those bits read;
where they decode to none, padding or a cut token, it runs padding on the state with the source's bytes and its
EXHAUSTED read. In FINISHED with OVF empty the operation returns (R261, R263, R264, R270, R271; that a step runs one
part of an operation in progress, and that a cut token runs padding, are the model's choices, log 11 and 12). -/
def Obligations.StepRunsToken : Prop :=
  ∀ (s : State) (p : Pull), s.pull = some p →
    (s.dec.state = .midStream ∨ s.dec.state = .finished →
      (p.hasRoom = false → step s = .next { s with pull := none, resp := .bytes p.out }) ∧
      (p.hasRoom = true → s.dec.ovf ≠ [] →
        let k := match p.limit with
          | none => s.dec.ovf.length
          | some l => min s.dec.ovf.length (l - p.out.length)
        step s = .next
          { s with
            dec := { s.dec with ovf := s.dec.ovf.drop k }
            pull := some { p with out := p.out ++ s.dec.ovf.take k } })) ∧
    (s.dec.state = .finished → s.dec.ovf = [] → step s = .next { s with pull := none, resp := .bytes p.out }) ∧
    (s.dec.state = .midStream → p.hasRoom = true → s.dec.ovf = [] → s.dec.br.eos = false →
      (∀ (t : Token) (rest : Bits), decodeStream s.dec.cfg s.unreadBits = .ok (t.instr, rest) →
        ∃ (src : Source) (br : BitReader) (u : State),
          u = { s with source := src, dec := { s.dec with br := br } } ∧
          u.unreadBits = rest ∧ br.eos = false ∧ step s = exec t.instr u) ∧
      (takeToken s.dec.cfg s.unreadBits = none → s.source.endsCleanly →
        ∀ k, step s = exec (.pad k)
          { s with
            source := { answers := s.source.answers.drop ((leadingBytes s.source.answers).length + 1),
                        delivered := s.source.delivered + (leadingBytes s.source.answers).length } }))

/-- A step inside a DEC.DECOMPRESS in HDR_PENDING runs the header that the next 8 bits decode to, on the state with
them read; an illegal one is UnsupportedHeader (R262; that a step of an operation in progress runs the header alone
is the model's choice, log 11). -/
def Obligations.StepRunsHeader : Prop :=
  ∀ (s : State) (p : Pull) (h : Nat) (rest : Bits), s.pull = some p → s.dec.state = .hdrPending →
    s.dec.br.eos = false → takeField 8 s.unreadBits = some (h, rest) →
    ∃ (src : Source) (br : BitReader) (u : State), u = { s with source := src, dec := { s.dec with br := br } } ∧
      u.unreadBits = rest ∧
      (∀ i, decodeHeader (BitVec.ofNat 8 h) = .ok i → step s = exec i u) ∧
      (decodeHeader (BitVec.ofNat 8 h) = .error .reservedHeaderBit →
        step s = .next
          { u with
            dec := { u.dec with state := .faulted, fault := .unsupportedHeader }
            pull := none
            resp := .fault (.unsupportedHeader (BitVec.ofNat 8 h)) })

/-- The meaning of DEC.DECOMPRESS is the run of the machine's steps from its opening to its end (R261; that the
operation is taken in steps is the model's choice, log 11). -/
def Obligations.DecompressIsItsSteps : Prop :=
  ∀ (s t : State) (m : Int), s.pull = none → exec (.decDecompress m) s = .next t →
    ∃ k, stepMany k { s with pull := some { limit := (if m < 0 then none else some m.toNat), out := [] } } = .next t

/-- Every operation keeps the canonical form of both windows' cells (the model's form of memory, log 9), and an
initialisation leaves the cells at and above the capacity as they are (log 10). -/
def Obligations.MemoryFormKept : Prop :=
  ∀ s t : State,
    (∀ i, Memory.wf s.cmp.win.buf → Memory.wf s.dec.win.buf → exec i s = .next t →
      Memory.wf t.cmp.win.buf ∧ Memory.wf t.dec.win.buf) ∧
    (∀ wb sb lb, exec (.cmpInit wb sb lb) s = .next t → t.resp = .ok →
      ∀ a, 2 ^ wb ≤ a → Memory.read t.cmp.win.buf a = Memory.read s.cmp.win.buf a) ∧
    ∀ w sz l, exec (.header w sz l) s = .next t →
      ∀ a, 2 ^ (w.toNat + 8) ≤ a → Memory.read t.dec.win.buf a = Memory.read s.dec.win.buf a

/-- An invariant in the terms of 10_state.md R38 is kept by every step, from every state. It says less than R38 (the
model's reading, log 31): the configuration, the cursor, the narrow window and the bound of OVF are claimed of a
decompressor engine in MID_STREAM and FINISHED only, not before a header is read (HDR_PENDING, or FAULTED), since
DEC.INIT leaves them as a SourceError may have left them (R260, R337); and nothing of these registers is claimed of a
compressor engine FAULTED after SinkError or InvalidConfig, nor of a decompressor engine FAULTED after SourceError
(R336, R221, R337). With them: the canonical form of memory (log 9), the fault registers (R33, R331), the flags in each
state (R22, R24), and an operation in progress within its limit. -/
def Obligations.StepKeepsInvariant : Prop :=
  ∀ s t : State, s.Inv → step s = .next t → t.Inv

/-- The invariant holds right after reset. -/
def Obligations.ResetMeetsInvariant : Prop := State.reset.Inv
end

