-- ==== Sys2Proof/Laws/Bits.lean ====
section
/-! SUPPORT. Laws of bit fields: a field and its value determine each other, a field splits into consecutive
parts, and taking a field gives back what was put. -/

namespace Sys2Proof

@[simp] theorem length_fieldBits (n v : Nat) : (fieldBits n v).length = n := by
  induction n with
  | zero => rfl
  | succ n ih => simp [fieldBits, ih]

@[simp] theorem fieldBits_zero (v : Nat) : fieldBits 0 v = [] := rfl

/-- Only the n low bits of a value are in its field (40_bit_writer.md R133). -/
theorem fieldBits_mod (n v : Nat) {m : Nat} (h : n ≤ m) : fieldBits n (v % 2 ^ m) = fieldBits n v := by
  induction n with
  | zero => rfl
  | succ n ih =>
    have hn : n < m := by omega
    simp [fieldBits, ih (by omega), Nat.testBit_mod_two_pow, hn]

/-- A field of a + b bits is its a high bits and then its b low bits (40_bit_writer.md R130). -/
theorem fieldBits_add (a b v : Nat) : fieldBits (a + b) v = fieldBits a (v / 2 ^ b) ++ fieldBits b v := by
  induction a with
  | zero => simp
  | succ a ih =>
    have : a + 1 + b = (a + b) + 1 := by omega
    rw [this, fieldBits, ih, fieldBits]
    simp [Nat.testBit_div_two_pow]

theorem bitsValue_lt (bs : Bits) : bitsValue bs < 2 ^ bs.length := by
  induction bs with
  | nil => simp [bitsValue]
  | cons b bs ih =>
    cases b <;> simp [bitsValue, Nat.pow_succ] <;> omega

theorem bitsValue_append (as bs : Bits) : bitsValue (as ++ bs) = bitsValue as * 2 ^ bs.length + bitsValue bs := by
  induction as with
  | nil => simp [bitsValue]
  | cons a as ih => simp [bitsValue, ih, Nat.pow_add, Nat.add_mul, Nat.mul_assoc, Nat.add_assoc]

theorem mod_two_pow_succ (v n : Nat) : v % 2 ^ (n + 1) = (v.testBit n).toNat * 2 ^ n + v % 2 ^ n := by
  rw [Nat.pow_succ, Nat.mod_mul, Nat.testBit_eq_decide_div_mod_eq]
  rcases Nat.mod_two_eq_zero_or_one (v / 2 ^ n) with h | h
  · simp [h]
  · simp [h]; omega

/-- The value of a field is the value written, less the bits above the field. -/
theorem bitsValue_fieldBits (n v : Nat) : bitsValue (fieldBits n v) = v % 2 ^ n := by
  induction n with
  | zero => simp [bitsValue, Nat.mod_one]
  | succ n ih => simp [fieldBits, bitsValue, ih, mod_two_pow_succ]

/-- A bit string is the field of its value. -/
theorem fieldBits_bitsValue (bs : Bits) : fieldBits bs.length (bitsValue bs) = bs := by
  induction bs with
  | nil => rfl
  | cons b bs ih =>
    have hlt := bitsValue_lt bs
    have h1 : (bitsValue (b :: bs)).testBit bs.length = b := by
      rw [bitsValue, Nat.testBit_eq_decide_div_mod_eq, Nat.mul_comm, Nat.mul_add_div (by positivity),
        Nat.div_eq_of_lt hlt]
      cases b <;> simp
    have h2 : fieldBits bs.length (bitsValue (b :: bs)) = bs := by
      rw [← fieldBits_mod bs.length (bitsValue (b :: bs)) (le_refl _), bitsValue, Nat.mul_comm,
        Nat.mul_add_mod, Nat.mod_eq_of_lt hlt, ih]
    simp only [List.length_cons, fieldBits, h1, h2]

/-- The field of a number that fits it: two parts, high and low, in one number. -/
theorem fieldBits_mul_add (a b x y : Nat) (hy : y < 2 ^ b) :
    fieldBits (a + b) (x * 2 ^ b + y) = fieldBits a x ++ fieldBits b y := by
  rw [fieldBits_add]
  have h1 : (x * 2 ^ b + y) / 2 ^ b = x := by
    rw [Nat.mul_comm, Nat.mul_add_div (by positivity), Nat.div_eq_of_lt hy, Nat.add_zero]
  have h2 : fieldBits b (x * 2 ^ b + y) = fieldBits b y := by
    rw [← fieldBits_mod b (x * 2 ^ b + y) (le_refl _), Nat.mul_comm, Nat.mul_add_mod, Nat.mod_eq_of_lt hy]
  rw [h1, h2]

@[simp] theorem bytesBits_nil : bytesBits [] = [] := rfl
@[simp] theorem bytesBits_cons (b : Byte) (bs : List Byte) :
    bytesBits (b :: bs) = fieldBits 8 b.toNat ++ bytesBits bs := rfl
@[simp] theorem bytesBits_append (as bs : List Byte) : bytesBits (as ++ bs) = bytesBits as ++ bytesBits bs := by
  simp [bytesBits]
@[simp] theorem length_bytesBits (bs : List Byte) : (bytesBits bs).length = 8 * bs.length := by
  induction bs with
  | nil => rfl
  | cons b bs ih => simp [ih]; omega

/-- Taking a field gives back the value put there, and what follows it. -/
theorem takeField_fieldBits (n v : Nat) (rest : Bits) :
    takeField n (fieldBits n v ++ rest) = some (v % 2 ^ n, rest) := by
  simp [takeField, bitsValue_fieldBits]

/-- A field is there exactly when enough bits are. -/
theorem takeField_eq (n : Nat) (bits : Bits) (h : n ≤ bits.length) :
    takeField n bits = some (bitsValue (bits.take n), bits.drop n) := by
  simp [takeField, Nat.not_lt.mpr h]

theorem takeField_none (n : Nat) (bits : Bits) (h : bits.length < n) : takeField n bits = none := by
  simp [takeField, h]

end Sys2Proof
end

