-- ==== Sys2Proof/Laws/State.lean ====
section
/-! SUPPORT. What each update of the state leaves in each field: one lemma a field and update, true by rfl, so
that no proof unfolds an update. -/

namespace Sys2Proof.Machine

/-! ## Registers of the units -/

@[simp] theorem setBw_cmp_bw (s : State) (bw : BitWriter) : (s.setBw bw).cmp.bw = bw := rfl
@[simp] theorem setBw_cmp_win (s : State) (bw : BitWriter) : (s.setBw bw).cmp.win = s.cmp.win := rfl
@[simp] theorem setBw_cmp_cfg (s : State) (bw : BitWriter) : (s.setBw bw).cmp.cfg = s.cmp.cfg := rfl
@[simp] theorem setBw_cmp_state (s : State) (bw : BitWriter) : (s.setBw bw).cmp.state = s.cmp.state := rfl
@[simp] theorem setBw_cmp_fault (s : State) (bw : BitWriter) : (s.setBw bw).cmp.fault = s.cmp.fault := rfl
@[simp] theorem setBw_dec (s : State) (bw : BitWriter) : (s.setBw bw).dec = s.dec := rfl
@[simp] theorem setBw_sink (s : State) (bw : BitWriter) : (s.setBw bw).sink = s.sink := rfl
@[simp] theorem setBw_source (s : State) (bw : BitWriter) : (s.setBw bw).source = s.source := rfl
@[simp] theorem setBw_pull (s : State) (bw : BitWriter) : (s.setBw bw).pull = s.pull := rfl
@[simp] theorem setBw_pending (s : State) (bw : BitWriter) : (s.setBw bw).pending = s.pending := rfl
@[simp] theorem setBw_resp (s : State) (bw : BitWriter) : (s.setBw bw).resp = s.resp := rfl
@[simp] theorem setBw_freeCount (s : State) (bw : BitWriter) : (s.setBw bw).freeCount = s.freeCount := rfl

@[simp] theorem setBr_cmp (s : State) (br : BitReader) : (s.setBr br).cmp = s.cmp := rfl
@[simp] theorem setBr_dec_br (s : State) (br : BitReader) : (s.setBr br).dec.br = br := rfl
@[simp] theorem setBr_dec_win (s : State) (br : BitReader) : (s.setBr br).dec.win = s.dec.win := rfl
@[simp] theorem setBr_dec_cfg (s : State) (br : BitReader) : (s.setBr br).dec.cfg = s.dec.cfg := rfl
@[simp] theorem setBr_dec_ovf (s : State) (br : BitReader) : (s.setBr br).dec.ovf = s.dec.ovf := rfl
@[simp] theorem setBr_dec_state (s : State) (br : BitReader) : (s.setBr br).dec.state = s.dec.state := rfl
@[simp] theorem setBr_dec_fault (s : State) (br : BitReader) : (s.setBr br).dec.fault = s.dec.fault := rfl
@[simp] theorem setBr_sink (s : State) (br : BitReader) : (s.setBr br).sink = s.sink := rfl
@[simp] theorem setBr_source (s : State) (br : BitReader) : (s.setBr br).source = s.source := rfl
@[simp] theorem setBr_pull (s : State) (br : BitReader) : (s.setBr br).pull = s.pull := rfl
@[simp] theorem setBr_pending (s : State) (br : BitReader) : (s.setBr br).pending = s.pending := rfl
@[simp] theorem setBr_resp (s : State) (br : BitReader) : (s.setBr br).resp = s.resp := rfl
@[simp] theorem setBr_freeCount (s : State) (br : BitReader) : (s.setBr br).freeCount = s.freeCount := rfl

@[simp] theorem setWindow_compressor_cmp_bw (s : State) (w : Window) : (s.setWindow .compressor w).cmp.bw = s.cmp.bw := rfl
@[simp] theorem setWindow_compressor_cmp_win (s : State) (w : Window) : (s.setWindow .compressor w).cmp.win = w := rfl
@[simp] theorem setWindow_compressor_cmp_cfg (s : State) (w : Window) : (s.setWindow .compressor w).cmp.cfg = s.cmp.cfg := rfl
@[simp] theorem setWindow_compressor_cmp_state (s : State) (w : Window) : (s.setWindow .compressor w).cmp.state = s.cmp.state := rfl
@[simp] theorem setWindow_compressor_cmp_fault (s : State) (w : Window) : (s.setWindow .compressor w).cmp.fault = s.cmp.fault := rfl
@[simp] theorem setWindow_compressor_dec (s : State) (w : Window) : (s.setWindow .compressor w).dec = s.dec := rfl
@[simp] theorem setWindow_compressor_sink (s : State) (w : Window) : (s.setWindow .compressor w).sink = s.sink := rfl
@[simp] theorem setWindow_compressor_source (s : State) (w : Window) : (s.setWindow .compressor w).source = s.source := rfl
@[simp] theorem setWindow_compressor_pull (s : State) (w : Window) : (s.setWindow .compressor w).pull = s.pull := rfl
@[simp] theorem setWindow_compressor_pending (s : State) (w : Window) : (s.setWindow .compressor w).pending = s.pending := rfl
@[simp] theorem setWindow_compressor_resp (s : State) (w : Window) : (s.setWindow .compressor w).resp = s.resp := rfl
@[simp] theorem setWindow_compressor_freeCount (s : State) (w : Window) : (s.setWindow .compressor w).freeCount = s.freeCount := rfl

@[simp] theorem setWindow_decompressor_cmp (s : State) (w : Window) : (s.setWindow .decompressor w).cmp = s.cmp := rfl
@[simp] theorem setWindow_decompressor_dec_br (s : State) (w : Window) : (s.setWindow .decompressor w).dec.br = s.dec.br := rfl
@[simp] theorem setWindow_decompressor_dec_win (s : State) (w : Window) : (s.setWindow .decompressor w).dec.win = w := rfl
@[simp] theorem setWindow_decompressor_dec_cfg (s : State) (w : Window) : (s.setWindow .decompressor w).dec.cfg = s.dec.cfg := rfl
@[simp] theorem setWindow_decompressor_dec_ovf (s : State) (w : Window) : (s.setWindow .decompressor w).dec.ovf = s.dec.ovf := rfl
@[simp] theorem setWindow_decompressor_dec_state (s : State) (w : Window) : (s.setWindow .decompressor w).dec.state = s.dec.state := rfl
@[simp] theorem setWindow_decompressor_dec_fault (s : State) (w : Window) : (s.setWindow .decompressor w).dec.fault = s.dec.fault := rfl
@[simp] theorem setWindow_decompressor_sink (s : State) (w : Window) : (s.setWindow .decompressor w).sink = s.sink := rfl
@[simp] theorem setWindow_decompressor_source (s : State) (w : Window) : (s.setWindow .decompressor w).source = s.source := rfl
@[simp] theorem setWindow_decompressor_pull (s : State) (w : Window) : (s.setWindow .decompressor w).pull = s.pull := rfl
@[simp] theorem setWindow_decompressor_pending (s : State) (w : Window) : (s.setWindow .decompressor w).pending = s.pending := rfl
@[simp] theorem setWindow_decompressor_resp (s : State) (w : Window) : (s.setWindow .decompressor w).resp = s.resp := rfl
@[simp] theorem setWindow_decompressor_freeCount (s : State) (w : Window) : (s.setWindow .decompressor w).freeCount = s.freeCount := rfl

@[simp] theorem appendWindow_compressor_cmp_bw (s : State) (seq : List Byte) : (s.appendWindow .compressor seq).cmp.bw = s.cmp.bw := rfl
@[simp] theorem appendWindow_compressor_cmp_win (s : State) (seq : List Byte) : (s.appendWindow .compressor seq).cmp.win = Window.writeBytes s.cmp.cfg.cap s.cmp.win seq := rfl
@[simp] theorem appendWindow_compressor_cmp_cfg (s : State) (seq : List Byte) : (s.appendWindow .compressor seq).cmp.cfg = s.cmp.cfg := rfl
@[simp] theorem appendWindow_compressor_cmp_state (s : State) (seq : List Byte) : (s.appendWindow .compressor seq).cmp.state = s.cmp.state := rfl
@[simp] theorem appendWindow_compressor_cmp_fault (s : State) (seq : List Byte) : (s.appendWindow .compressor seq).cmp.fault = s.cmp.fault := rfl
@[simp] theorem appendWindow_compressor_dec (s : State) (seq : List Byte) : (s.appendWindow .compressor seq).dec = s.dec := rfl
@[simp] theorem appendWindow_compressor_sink (s : State) (seq : List Byte) : (s.appendWindow .compressor seq).sink = s.sink := rfl
@[simp] theorem appendWindow_compressor_source (s : State) (seq : List Byte) : (s.appendWindow .compressor seq).source = s.source := rfl
@[simp] theorem appendWindow_compressor_pull (s : State) (seq : List Byte) : (s.appendWindow .compressor seq).pull = s.pull := rfl
@[simp] theorem appendWindow_compressor_pending (s : State) (seq : List Byte) : (s.appendWindow .compressor seq).pending = s.pending := rfl
@[simp] theorem appendWindow_compressor_resp (s : State) (seq : List Byte) : (s.appendWindow .compressor seq).resp = s.resp := rfl
@[simp] theorem appendWindow_compressor_freeCount (s : State) (seq : List Byte) : (s.appendWindow .compressor seq).freeCount = s.freeCount := rfl

@[simp] theorem appendWindow_decompressor_cmp (s : State) (seq : List Byte) : (s.appendWindow .decompressor seq).cmp = s.cmp := rfl
@[simp] theorem appendWindow_decompressor_dec_br (s : State) (seq : List Byte) : (s.appendWindow .decompressor seq).dec.br = s.dec.br := rfl
@[simp] theorem appendWindow_decompressor_dec_win (s : State) (seq : List Byte) : (s.appendWindow .decompressor seq).dec.win = Window.writeBytes s.dec.cfg.cap s.dec.win seq := rfl
@[simp] theorem appendWindow_decompressor_dec_cfg (s : State) (seq : List Byte) : (s.appendWindow .decompressor seq).dec.cfg = s.dec.cfg := rfl
@[simp] theorem appendWindow_decompressor_dec_ovf (s : State) (seq : List Byte) : (s.appendWindow .decompressor seq).dec.ovf = s.dec.ovf := rfl
@[simp] theorem appendWindow_decompressor_dec_state (s : State) (seq : List Byte) : (s.appendWindow .decompressor seq).dec.state = s.dec.state := rfl
@[simp] theorem appendWindow_decompressor_dec_fault (s : State) (seq : List Byte) : (s.appendWindow .decompressor seq).dec.fault = s.dec.fault := rfl
@[simp] theorem appendWindow_decompressor_sink (s : State) (seq : List Byte) : (s.appendWindow .decompressor seq).sink = s.sink := rfl
@[simp] theorem appendWindow_decompressor_source (s : State) (seq : List Byte) : (s.appendWindow .decompressor seq).source = s.source := rfl
@[simp] theorem appendWindow_decompressor_pull (s : State) (seq : List Byte) : (s.appendWindow .decompressor seq).pull = s.pull := rfl
@[simp] theorem appendWindow_decompressor_pending (s : State) (seq : List Byte) : (s.appendWindow .decompressor seq).pending = s.pending := rfl
@[simp] theorem appendWindow_decompressor_resp (s : State) (seq : List Byte) : (s.appendWindow .decompressor seq).resp = s.resp := rfl
@[simp] theorem appendWindow_decompressor_freeCount (s : State) (seq : List Byte) : (s.appendWindow .decompressor seq).freeCount = s.freeCount := rfl

@[simp] theorem respond_cmp (s : State) (r : Response) : (s.respond r).cmp = s.cmp := rfl
@[simp] theorem respond_dec (s : State) (r : Response) : (s.respond r).dec = s.dec := rfl
@[simp] theorem respond_sink (s : State) (r : Response) : (s.respond r).sink = s.sink := rfl
@[simp] theorem respond_source (s : State) (r : Response) : (s.respond r).source = s.source := rfl
@[simp] theorem respond_pull (s : State) (r : Response) : (s.respond r).pull = s.pull := rfl
@[simp] theorem respond_pending (s : State) (r : Response) : (s.respond r).pending = s.pending := rfl
@[simp] theorem respond_resp (s : State) (r : Response) : (s.respond r).resp = r := rfl
@[simp] theorem respond_freeCount (s : State) (r : Response) : (s.respond r).freeCount = s.freeCount := rfl

/-! ## Flags -/

@[simp] theorem markEos_cmp (s : State) : (s.markEos).cmp = s.cmp := rfl
@[simp] theorem markEos_dec_br (s : State) : (s.markEos).dec.br = { acc := Config.freeAcc s.freeCount, nbits := Config.freeNbits s.freeCount, eos := true } := rfl
@[simp] theorem markEos_dec_win (s : State) : (s.markEos).dec.win = s.dec.win := rfl
@[simp] theorem markEos_dec_cfg (s : State) : (s.markEos).dec.cfg = s.dec.cfg := rfl
@[simp] theorem markEos_dec_ovf (s : State) : (s.markEos).dec.ovf = s.dec.ovf := rfl
@[simp] theorem markEos_dec_state (s : State) : (s.markEos).dec.state = s.dec.state := rfl
@[simp] theorem markEos_dec_fault (s : State) : (s.markEos).dec.fault = s.dec.fault := rfl
@[simp] theorem markEos_sink (s : State) : (s.markEos).sink = s.sink := rfl
@[simp] theorem markEos_source (s : State) : (s.markEos).source = s.source := rfl
@[simp] theorem markEos_pull (s : State) : (s.markEos).pull = s.pull := rfl
@[simp] theorem markEos_pending (s : State) : (s.markEos).pending = s.pending := rfl
@[simp] theorem markEos_resp (s : State) : (s.markEos).resp = s.resp := rfl
@[simp] theorem markEos_freeCount (s : State) : (s.markEos).freeCount = s.freeCount + 1 := rfl

@[simp] theorem finish_cmp (s : State) : (s.finish).cmp = s.cmp := rfl
@[simp] theorem finish_dec_br (s : State) : (s.finish).dec.br = s.dec.br := rfl
@[simp] theorem finish_dec_win (s : State) : (s.finish).dec.win = s.dec.win := rfl
@[simp] theorem finish_dec_cfg (s : State) : (s.finish).dec.cfg = s.dec.cfg := rfl
@[simp] theorem finish_dec_ovf (s : State) : (s.finish).dec.ovf = s.dec.ovf := rfl
@[simp] theorem finish_dec_state (s : State) : (s.finish).dec.state = .finished := rfl
@[simp] theorem finish_dec_fault (s : State) : (s.finish).dec.fault = s.dec.fault := rfl
@[simp] theorem finish_sink (s : State) : (s.finish).sink = s.sink := rfl
@[simp] theorem finish_source (s : State) : (s.finish).source = s.source := rfl
@[simp] theorem finish_pull (s : State) : (s.finish).pull = s.pull := rfl
@[simp] theorem finish_pending (s : State) : (s.finish).pending = s.pending := rfl
@[simp] theorem finish_resp (s : State) : (s.finish).resp = s.resp := rfl
@[simp] theorem finish_freeCount (s : State) : (s.finish).freeCount = s.freeCount := rfl

@[simp] theorem markFlushed_cmp_bw (s : State) : (s.markFlushed).cmp.bw = { acc := 0#7, nbits := 0#3, flushed := true } := rfl
@[simp] theorem markFlushed_cmp_win (s : State) : (s.markFlushed).cmp.win = s.cmp.win := rfl
@[simp] theorem markFlushed_cmp_cfg (s : State) : (s.markFlushed).cmp.cfg = s.cmp.cfg := rfl
@[simp] theorem markFlushed_cmp_state (s : State) : (s.markFlushed).cmp.state = s.cmp.state := rfl
@[simp] theorem markFlushed_cmp_fault (s : State) : (s.markFlushed).cmp.fault = s.cmp.fault := rfl
@[simp] theorem markFlushed_dec (s : State) : (s.markFlushed).dec = s.dec := rfl
@[simp] theorem markFlushed_sink (s : State) : (s.markFlushed).sink = s.sink := rfl
@[simp] theorem markFlushed_source (s : State) : (s.markFlushed).source = s.source := rfl
@[simp] theorem markFlushed_pull (s : State) : (s.markFlushed).pull = s.pull := rfl
@[simp] theorem markFlushed_pending (s : State) : (s.markFlushed).pending = s.pending := rfl
@[simp] theorem markFlushed_resp (s : State) : (s.markFlushed).resp = s.resp := rfl
@[simp] theorem markFlushed_freeCount (s : State) : (s.markFlushed).freeCount = s.freeCount := rfl

/-! ## Fault entry -/

@[simp] theorem enterFault_excessBits_cmp_bw (b : Byte) (i : Nat) (s : State) : (enterFault (.excessBits b i) s).cmp.bw = s.cmp.bw := rfl
@[simp] theorem enterFault_excessBits_cmp_win (b : Byte) (i : Nat) (s : State) : (enterFault (.excessBits b i) s).cmp.win = s.cmp.win := rfl
@[simp] theorem enterFault_excessBits_cmp_cfg (b : Byte) (i : Nat) (s : State) : (enterFault (.excessBits b i) s).cmp.cfg = s.cmp.cfg := rfl
@[simp] theorem enterFault_excessBits_cmp_state (b : Byte) (i : Nat) (s : State) : (enterFault (.excessBits b i) s).cmp.state = .faulted := rfl
@[simp] theorem enterFault_excessBits_cmp_fault (b : Byte) (i : Nat) (s : State) : (enterFault (.excessBits b i) s).cmp.fault = .excessBits := rfl
@[simp] theorem enterFault_excessBits_dec (b : Byte) (i : Nat) (s : State) : (enterFault (.excessBits b i) s).dec = s.dec := rfl
@[simp] theorem enterFault_excessBits_sink (b : Byte) (i : Nat) (s : State) : (enterFault (.excessBits b i) s).sink = s.sink := rfl
@[simp] theorem enterFault_excessBits_source (b : Byte) (i : Nat) (s : State) : (enterFault (.excessBits b i) s).source = s.source := rfl
@[simp] theorem enterFault_excessBits_pull (b : Byte) (i : Nat) (s : State) : (enterFault (.excessBits b i) s).pull = s.pull := rfl
@[simp] theorem enterFault_excessBits_pending (b : Byte) (i : Nat) (s : State) : (enterFault (.excessBits b i) s).pending = s.pending := rfl
@[simp] theorem enterFault_excessBits_resp (b : Byte) (i : Nat) (s : State) : (enterFault (.excessBits b i) s).resp = .fault (.excessBits b i) := rfl
@[simp] theorem enterFault_excessBits_freeCount (b : Byte) (i : Nat) (s : State) : (enterFault (.excessBits b i) s).freeCount = s.freeCount := rfl

@[simp] theorem enterFault_invalidConfig_cmp_bw (wb sb lb : Nat) (s : State) : (enterFault (.invalidConfig wb sb lb) s).cmp.bw = s.cmp.bw := rfl
@[simp] theorem enterFault_invalidConfig_cmp_win (wb sb lb : Nat) (s : State) : (enterFault (.invalidConfig wb sb lb) s).cmp.win = s.cmp.win := rfl
@[simp] theorem enterFault_invalidConfig_cmp_cfg (wb sb lb : Nat) (s : State) : (enterFault (.invalidConfig wb sb lb) s).cmp.cfg = s.cmp.cfg := rfl
@[simp] theorem enterFault_invalidConfig_cmp_state (wb sb lb : Nat) (s : State) : (enterFault (.invalidConfig wb sb lb) s).cmp.state = .faulted := rfl
@[simp] theorem enterFault_invalidConfig_cmp_fault (wb sb lb : Nat) (s : State) : (enterFault (.invalidConfig wb sb lb) s).cmp.fault = .invalidConfig := rfl
@[simp] theorem enterFault_invalidConfig_dec (wb sb lb : Nat) (s : State) : (enterFault (.invalidConfig wb sb lb) s).dec = s.dec := rfl
@[simp] theorem enterFault_invalidConfig_sink (wb sb lb : Nat) (s : State) : (enterFault (.invalidConfig wb sb lb) s).sink = s.sink := rfl
@[simp] theorem enterFault_invalidConfig_source (wb sb lb : Nat) (s : State) : (enterFault (.invalidConfig wb sb lb) s).source = s.source := rfl
@[simp] theorem enterFault_invalidConfig_pull (wb sb lb : Nat) (s : State) : (enterFault (.invalidConfig wb sb lb) s).pull = s.pull := rfl
@[simp] theorem enterFault_invalidConfig_pending (wb sb lb : Nat) (s : State) : (enterFault (.invalidConfig wb sb lb) s).pending = s.pending := rfl
@[simp] theorem enterFault_invalidConfig_resp (wb sb lb : Nat) (s : State) : (enterFault (.invalidConfig wb sb lb) s).resp = .fault (.invalidConfig wb sb lb) := rfl
@[simp] theorem enterFault_invalidConfig_freeCount (wb sb lb : Nat) (s : State) : (enterFault (.invalidConfig wb sb lb) s).freeCount = s.freeCount := rfl

@[simp] theorem enterFault_endOfStream_cmp (s : State) : (enterFault (.endOfStream) s).cmp = s.cmp := rfl
@[simp] theorem enterFault_endOfStream_dec_br (s : State) : (enterFault (.endOfStream) s).dec.br = s.dec.br := rfl
@[simp] theorem enterFault_endOfStream_dec_win (s : State) : (enterFault (.endOfStream) s).dec.win = s.dec.win := rfl
@[simp] theorem enterFault_endOfStream_dec_cfg (s : State) : (enterFault (.endOfStream) s).dec.cfg = s.dec.cfg := rfl
@[simp] theorem enterFault_endOfStream_dec_ovf (s : State) : (enterFault (.endOfStream) s).dec.ovf = s.dec.ovf := rfl
@[simp] theorem enterFault_endOfStream_dec_state (s : State) : (enterFault (.endOfStream) s).dec.state = .faulted := rfl
@[simp] theorem enterFault_endOfStream_dec_fault (s : State) : (enterFault (.endOfStream) s).dec.fault = .endOfStream := rfl
@[simp] theorem enterFault_endOfStream_sink (s : State) : (enterFault (.endOfStream) s).sink = s.sink := rfl
@[simp] theorem enterFault_endOfStream_source (s : State) : (enterFault (.endOfStream) s).source = s.source := rfl
@[simp] theorem enterFault_endOfStream_pull (s : State) : (enterFault (.endOfStream) s).pull = none := rfl
@[simp] theorem enterFault_endOfStream_pending (s : State) : (enterFault (.endOfStream) s).pending = s.pending := rfl
@[simp] theorem enterFault_endOfStream_resp (s : State) : (enterFault (.endOfStream) s).resp = .fault (.endOfStream) := rfl
@[simp] theorem enterFault_endOfStream_freeCount (s : State) : (enterFault (.endOfStream) s).freeCount = s.freeCount := rfl

@[simp] theorem enterFault_unsupportedHeader_cmp (h : Byte) (s : State) : (enterFault (.unsupportedHeader h) s).cmp = s.cmp := rfl
@[simp] theorem enterFault_unsupportedHeader_dec_br (h : Byte) (s : State) : (enterFault (.unsupportedHeader h) s).dec.br = s.dec.br := rfl
@[simp] theorem enterFault_unsupportedHeader_dec_win (h : Byte) (s : State) : (enterFault (.unsupportedHeader h) s).dec.win = s.dec.win := rfl
@[simp] theorem enterFault_unsupportedHeader_dec_cfg (h : Byte) (s : State) : (enterFault (.unsupportedHeader h) s).dec.cfg = s.dec.cfg := rfl
@[simp] theorem enterFault_unsupportedHeader_dec_ovf (h : Byte) (s : State) : (enterFault (.unsupportedHeader h) s).dec.ovf = s.dec.ovf := rfl
@[simp] theorem enterFault_unsupportedHeader_dec_state (h : Byte) (s : State) : (enterFault (.unsupportedHeader h) s).dec.state = .faulted := rfl
@[simp] theorem enterFault_unsupportedHeader_dec_fault (h : Byte) (s : State) : (enterFault (.unsupportedHeader h) s).dec.fault = .unsupportedHeader := rfl
@[simp] theorem enterFault_unsupportedHeader_sink (h : Byte) (s : State) : (enterFault (.unsupportedHeader h) s).sink = s.sink := rfl
@[simp] theorem enterFault_unsupportedHeader_source (h : Byte) (s : State) : (enterFault (.unsupportedHeader h) s).source = s.source := rfl
@[simp] theorem enterFault_unsupportedHeader_pull (h : Byte) (s : State) : (enterFault (.unsupportedHeader h) s).pull = none := rfl
@[simp] theorem enterFault_unsupportedHeader_pending (h : Byte) (s : State) : (enterFault (.unsupportedHeader h) s).pending = s.pending := rfl
@[simp] theorem enterFault_unsupportedHeader_resp (h : Byte) (s : State) : (enterFault (.unsupportedHeader h) s).resp = .fault (.unsupportedHeader h) := rfl
@[simp] theorem enterFault_unsupportedHeader_freeCount (h : Byte) (s : State) : (enterFault (.unsupportedHeader h) s).freeCount = s.freeCount := rfl

@[simp] theorem enterFault_sinkError_cmp (s : State) : (enterFault .sinkError s).cmp = Compressor.unspecified s.freeCount := rfl
@[simp] theorem enterFault_sinkError_dec (s : State) : (enterFault .sinkError s).dec = s.dec := rfl
@[simp] theorem enterFault_sinkError_sink (s : State) : (enterFault .sinkError s).sink = s.sink := rfl
@[simp] theorem enterFault_sinkError_source (s : State) : (enterFault .sinkError s).source = s.source := rfl
@[simp] theorem enterFault_sinkError_pull (s : State) : (enterFault .sinkError s).pull = s.pull := rfl
@[simp] theorem enterFault_sinkError_pending (s : State) : (enterFault .sinkError s).pending = s.pending := rfl
@[simp] theorem enterFault_sinkError_resp (s : State) : (enterFault .sinkError s).resp = .fault .sinkError := rfl
@[simp] theorem enterFault_sinkError_freeCount (s : State) : (enterFault .sinkError s).freeCount = s.freeCount + 1 := rfl

@[simp] theorem enterFault_sourceError_cmp (s : State) : (enterFault .sourceError s).cmp = s.cmp := rfl
@[simp] theorem enterFault_sourceError_dec (s : State) : (enterFault .sourceError s).dec = Decompressor.unspecified s.freeCount := rfl
@[simp] theorem enterFault_sourceError_sink (s : State) : (enterFault .sourceError s).sink = s.sink := rfl
@[simp] theorem enterFault_sourceError_source (s : State) : (enterFault .sourceError s).source = s.source := rfl
@[simp] theorem enterFault_sourceError_pull (s : State) : (enterFault .sourceError s).pull = none := rfl
@[simp] theorem enterFault_sourceError_pending (s : State) : (enterFault .sourceError s).pending = s.pending := rfl
@[simp] theorem enterFault_sourceError_resp (s : State) : (enterFault .sourceError s).resp = .fault .sourceError := rfl
@[simp] theorem enterFault_sourceError_freeCount (s : State) : (enterFault .sourceError s).freeCount = s.freeCount + 1 := rfl

/-! ## The decompressor's operation -/

@[simp] theorem openStream_cmp (cfg : Cfg) (s : State) : (openStream cfg s).cmp = s.cmp := rfl
@[simp] theorem openStream_dec_br (cfg : Cfg) (s : State) : (openStream cfg s).dec.br = s.dec.br := rfl
@[simp] theorem openStream_dec_win (cfg : Cfg) (s : State) : (openStream cfg s).dec.win = Window.fresh cfg.cap s.dec.win := rfl
@[simp] theorem openStream_dec_cfg (cfg : Cfg) (s : State) : (openStream cfg s).dec.cfg = cfg := rfl
@[simp] theorem openStream_dec_ovf (cfg : Cfg) (s : State) : (openStream cfg s).dec.ovf = s.dec.ovf := rfl
@[simp] theorem openStream_dec_state (cfg : Cfg) (s : State) : (openStream cfg s).dec.state = .midStream := rfl
@[simp] theorem openStream_dec_fault (cfg : Cfg) (s : State) : (openStream cfg s).dec.fault = s.dec.fault := rfl
@[simp] theorem openStream_sink (cfg : Cfg) (s : State) : (openStream cfg s).sink = s.sink := rfl
@[simp] theorem openStream_source (cfg : Cfg) (s : State) : (openStream cfg s).source = s.source := rfl
@[simp] theorem openStream_pull (cfg : Cfg) (s : State) : (openStream cfg s).pull = s.pull := rfl
@[simp] theorem openStream_pending (cfg : Cfg) (s : State) : (openStream cfg s).pending = s.pending := rfl
@[simp] theorem openStream_resp (cfg : Cfg) (s : State) : (openStream cfg s).resp = s.resp := rfl
@[simp] theorem openStream_freeCount (cfg : Cfg) (s : State) : (openStream cfg s).freeCount = s.freeCount := rfl

@[simp] theorem openPull_cmp (m : Int) (s : State) : (openPull m s).cmp = s.cmp := rfl
@[simp] theorem openPull_dec (m : Int) (s : State) : (openPull m s).dec = s.dec := rfl
@[simp] theorem openPull_sink (m : Int) (s : State) : (openPull m s).sink = s.sink := rfl
@[simp] theorem openPull_source (m : Int) (s : State) : (openPull m s).source = s.source := rfl
@[simp] theorem openPull_pull (m : Int) (s : State) : (openPull m s).pull = some { limit := limitOf m, out := [] } := rfl
@[simp] theorem openPull_pending (m : Int) (s : State) : (openPull m s).pending = s.pending := rfl
@[simp] theorem openPull_resp (m : Int) (s : State) : (openPull m s).resp = s.resp := rfl
@[simp] theorem openPull_freeCount (m : Int) (s : State) : (openPull m s).freeCount = s.freeCount := rfl

@[simp] theorem closePull_cmp (p : Pull) (s : State) : (closePull p s).cmp = s.cmp := rfl
@[simp] theorem closePull_dec (p : Pull) (s : State) : (closePull p s).dec = s.dec := rfl
@[simp] theorem closePull_sink (p : Pull) (s : State) : (closePull p s).sink = s.sink := rfl
@[simp] theorem closePull_source (p : Pull) (s : State) : (closePull p s).source = s.source := rfl
@[simp] theorem closePull_pull (p : Pull) (s : State) : (closePull p s).pull = none := rfl
@[simp] theorem closePull_pending (p : Pull) (s : State) : (closePull p s).pending = s.pending := rfl
@[simp] theorem closePull_resp (p : Pull) (s : State) : (closePull p s).resp = .bytes p.out := rfl
@[simp] theorem closePull_freeCount (p : Pull) (s : State) : (closePull p s).freeCount = s.freeCount := rfl

@[simp] theorem drainOverflow_cmp (p : Pull) (s : State) : (drainOverflow p s).cmp = s.cmp := rfl
@[simp] theorem drainOverflow_dec_br (p : Pull) (s : State) : (drainOverflow p s).dec.br = s.dec.br := rfl
@[simp] theorem drainOverflow_dec_win (p : Pull) (s : State) : (drainOverflow p s).dec.win = s.dec.win := rfl
@[simp] theorem drainOverflow_dec_cfg (p : Pull) (s : State) : (drainOverflow p s).dec.cfg = s.dec.cfg := rfl
@[simp] theorem drainOverflow_dec_ovf (p : Pull) (s : State) : (drainOverflow p s).dec.ovf = s.dec.ovf.drop (p.accepts s.dec.ovf.length) := rfl
@[simp] theorem drainOverflow_dec_state (p : Pull) (s : State) : (drainOverflow p s).dec.state = s.dec.state := rfl
@[simp] theorem drainOverflow_dec_fault (p : Pull) (s : State) : (drainOverflow p s).dec.fault = s.dec.fault := rfl
@[simp] theorem drainOverflow_sink (p : Pull) (s : State) : (drainOverflow p s).sink = s.sink := rfl
@[simp] theorem drainOverflow_source (p : Pull) (s : State) : (drainOverflow p s).source = s.source := rfl
@[simp] theorem drainOverflow_pull (p : Pull) (s : State) : (drainOverflow p s).pull = some { p with out := p.out ++ s.dec.ovf.take (p.accepts s.dec.ovf.length) } := rfl
@[simp] theorem drainOverflow_pending (p : Pull) (s : State) : (drainOverflow p s).pending = s.pending := rfl
@[simp] theorem drainOverflow_resp (p : Pull) (s : State) : (drainOverflow p s).resp = s.resp := rfl
@[simp] theorem drainOverflow_freeCount (p : Pull) (s : State) : (drainOverflow p s).freeCount = s.freeCount := rfl

@[simp] theorem copySpan_cmp (p : Pull) (span : List Byte) (s : State) : (copySpan p span s).cmp = s.cmp := rfl
@[simp] theorem copySpan_dec_br (p : Pull) (span : List Byte) (s : State) : (copySpan p span s).dec.br = s.dec.br := rfl
@[simp] theorem copySpan_dec_win (p : Pull) (span : List Byte) (s : State) : (copySpan p span s).dec.win = Window.writeBytes s.dec.cfg.cap s.dec.win span := rfl
@[simp] theorem copySpan_dec_cfg (p : Pull) (span : List Byte) (s : State) : (copySpan p span s).dec.cfg = s.dec.cfg := rfl
@[simp] theorem copySpan_dec_ovf (p : Pull) (span : List Byte) (s : State) : (copySpan p span s).dec.ovf = (if p.accepts span.length < span.length then span.drop (p.accepts span.length) else s.dec.ovf) := rfl
@[simp] theorem copySpan_dec_state (p : Pull) (span : List Byte) (s : State) : (copySpan p span s).dec.state = s.dec.state := rfl
@[simp] theorem copySpan_dec_fault (p : Pull) (span : List Byte) (s : State) : (copySpan p span s).dec.fault = s.dec.fault := rfl
@[simp] theorem copySpan_sink (p : Pull) (span : List Byte) (s : State) : (copySpan p span s).sink = s.sink := rfl
@[simp] theorem copySpan_source (p : Pull) (span : List Byte) (s : State) : (copySpan p span s).source = s.source := rfl
@[simp] theorem copySpan_pull (p : Pull) (span : List Byte) (s : State) : (copySpan p span s).pull = some { p with out := p.out ++ span.take (p.accepts span.length) } := rfl
@[simp] theorem copySpan_pending (p : Pull) (span : List Byte) (s : State) : (copySpan p span s).pending = s.pending := rfl
@[simp] theorem copySpan_resp (p : Pull) (span : List Byte) (s : State) : (copySpan p span s).resp = s.resp := rfl
@[simp] theorem copySpan_freeCount (p : Pull) (span : List Byte) (s : State) : (copySpan p span s).freeCount = s.freeCount := rfl

@[simp] theorem resetCompressor_cmp (s : State) : (resetCompressor s).cmp = Compressor.reset := rfl
@[simp] theorem resetCompressor_dec (s : State) : (resetCompressor s).dec = s.dec := rfl
@[simp] theorem resetCompressor_sink (s : State) : (resetCompressor s).sink = s.sink := rfl
@[simp] theorem resetCompressor_source (s : State) : (resetCompressor s).source = s.source := rfl
@[simp] theorem resetCompressor_pull (s : State) : (resetCompressor s).pull = s.pull := rfl
@[simp] theorem resetCompressor_pending (s : State) : (resetCompressor s).pending = s.pending := rfl
@[simp] theorem resetCompressor_resp (s : State) : (resetCompressor s).resp = s.resp := rfl
@[simp] theorem resetCompressor_freeCount (s : State) : (resetCompressor s).freeCount = s.freeCount := rfl

@[simp] theorem resetDecompressor_cmp (s : State) : (resetDecompressor s).cmp = s.cmp := rfl
@[simp] theorem resetDecompressor_dec (s : State) : (resetDecompressor s).dec = Decompressor.reset := rfl
@[simp] theorem resetDecompressor_sink (s : State) : (resetDecompressor s).sink = s.sink := rfl
@[simp] theorem resetDecompressor_source_answers (s : State) : (resetDecompressor s).source.answers = s.source.answers := rfl
@[simp] theorem resetDecompressor_source_delivered (s : State) : (resetDecompressor s).source.delivered = 0 := rfl
@[simp] theorem resetDecompressor_pull (s : State) : (resetDecompressor s).pull = none := rfl
@[simp] theorem resetDecompressor_pending (s : State) : (resetDecompressor s).pending = s.pending := rfl
@[simp] theorem resetDecompressor_resp (s : State) : (resetDecompressor s).resp = s.resp := rfl
@[simp] theorem resetDecompressor_freeCount (s : State) : (resetDecompressor s).freeCount = s.freeCount := rfl

/-! ## The engines' initialisation -/

@[simp] theorem Compressor_init_bw (c : Compressor) (cfg : Cfg) : (c.init cfg).bw = { acc := 0#7, nbits := 0#3, flushed := false } := rfl
@[simp] theorem Compressor_init_win (c : Compressor) (cfg : Cfg) : (c.init cfg).win = Window.fresh cfg.cap c.win := rfl
@[simp] theorem Compressor_init_cfg (c : Compressor) (cfg : Cfg) : (c.init cfg).cfg = cfg := rfl
@[simp] theorem Compressor_init_state (c : Compressor) (cfg : Cfg) : (c.init cfg).state = c.state := rfl
@[simp] theorem Compressor_init_fault (c : Compressor) (cfg : Cfg) : (c.init cfg).fault = .none := rfl
@[simp] theorem Decompressor_init_br (d : Decompressor) : (d.init).br = { acc := 0#7, nbits := 0#3, eos := false } := rfl
@[simp] theorem Decompressor_init_win (d : Decompressor) : (d.init).win = d.win := rfl
@[simp] theorem Decompressor_init_cfg (d : Decompressor) : (d.init).cfg = d.cfg := rfl
@[simp] theorem Decompressor_init_ovf (d : Decompressor) : (d.init).ovf = [] := rfl
@[simp] theorem Decompressor_init_state (d : Decompressor) : (d.init).state = .hdrPending := rfl
@[simp] theorem Decompressor_init_fault (d : Decompressor) : (d.init).fault = .none := rfl

/-! ## Outcomes inside an engine -/

@[simp] theorem bind_ok {α β : Type} (a : α) (s : State) (k : α → State → Result β) :
    (Result.ok a s).bind k = k a s := rfl
@[simp] theorem bind_fault {α β : Type} (f : FaultInfo) (s : State) (k : α → State → Result β) :
    (Result.fault f s : Result α).bind k = .fault f s := rfl
@[simp] theorem bind_refused {α β : Type} (r : Refusal) (k : α → State → Result β) :
    (Result.refused r : Result α).bind k = .refused r := rfl
@[simp] theorem answer_ok {α : Type} (a : α) (s : State) (reply : α → Response) :
    (Result.ok a s).answer reply = .next (s.respond (reply a)) := rfl
@[simp] theorem answer_fault {α : Type} (f : FaultInfo) (s : State) (reply : α → Response) :
    (Result.fault f s : Result α).answer reply = .next (s.respond (.fault f)) := rfl
@[simp] theorem answer_refused {α : Type} (r : Refusal) (reply : α → Response) :
    (Result.refused r : Result α).answer reply = .refused r := rfl

/-- An ok of a bind comes from an ok of its first part. -/
theorem bind_eq_ok {α β : Type} {x : Result α} {k : α → State → Result β} {b : β} {t : State} :
    x.bind k = .ok b t ↔ ∃ a u, x = .ok a u ∧ k a u = .ok b t := by
  cases x <;> simp

/-- A fault of a bind comes from either part. -/
theorem bind_eq_fault {α β : Type} {x : Result α} {k : α → State → Result β} {f : FaultInfo} {t : State} :
    x.bind k = .fault f t ↔ x = .fault f t ∨ ∃ a u, x = .ok a u ∧ k a u = .fault f t := by
  cases x <;> simp

/-- An answer is a next state exactly when the operation was not refused. -/
theorem answer_eq_next {α : Type} {x : Result α} {reply : α → Response} {t : State} :
    x.answer reply = .next t ↔
      (∃ a u, x = .ok a u ∧ t = u.respond (reply a)) ∨ ∃ f u, x = .fault f u ∧ t = u.respond (.fault f) := by
  cases x <;> simp [eq_comm]

end Sys2Proof.Machine
end

