-- ==== Sys2Proof/Laws/BitReader.lean ====
section
/-! SUPPORT. What the Bit Reader's operation can do: the bits it returns where the source still has them, and how
it ends where it has not. -/

namespace Sys2Proof.Machine

/-- The state with another source. -/
abbrev State.setSource (s : State) (k : Source) : State := { s with source := k }

/-! ## The source -/

theorem leadingBytes_drop (answers : List SourceAnswer) (k : Nat) (h : k ≤ (leadingBytes answers).length) :
    leadingBytes (answers.drop k) = (leadingBytes answers).drop k := by
  induction k generalizing answers with
  | zero => rfl
  | succ k ih =>
    cases answers with
    | nil => simp [leadingBytes]
    | cons a rest => cases a <;> simp_all [leadingBytes]

/-- A source that delivers bytes only. -/
theorem leadingBytes_map (bs : List Byte) : leadingBytes (bs.map SourceAnswer.byte) = bs := by
  induction bs with
  | nil => rfl
  | cons b bs ih => simp [leadingBytes, ih]

/-! ## Pulling bytes -/

/-- k bytes the source has ready are pulled behind the bits of t (R151). -/
theorem pullBytes_bytes (k t : Nat) (s : State) (h : k ≤ (leadingBytes s.source.answers).length) :
    pullBytes k t s =
      .ok (t * 2 ^ (8 * k) + bitsValue (bytesBits ((leadingBytes s.source.answers).take k)))
        (s.setSource { answers := s.source.answers.drop k, delivered := s.source.delivered + k }) := by
  induction k generalizing t s with
  | zero => simp [pullBytes, State.setSource, bitsValue]
  | succ k ih =>
    cases ha : s.source.answers with
    | nil => simp [ha, leadingBytes] at h
    | cons a rest =>
      cases a with
      | byte b =>
        simp only [ha, leadingBytes, List.length_cons] at h
        rw [pullBytes]
        simp only [sourceGet, ha]
        rw [ih _ _ (by simpa using h)]
        have hb : b.toNat < 2 ^ 8 := b.isLt
        have e : bitsValue (fieldBits 8 b.toNat ++ bytesBits ((leadingBytes rest).take k)) =
            b.toNat * 2 ^ (8 * (min k (leadingBytes rest).length)) +
              bitsValue (bytesBits ((leadingBytes rest).take k)) := by
          rw [bitsValue_append, bitsValue_fieldBits, Nat.mod_eq_of_lt hb]
          simp
        simp only [leadingBytes, List.take_succ_cons, bytesBits_cons, e, List.drop_succ_cons, State.setSource]
        rw [Nat.min_eq_left (by omega), Nat.mul_add 8 k 1, Nat.pow_add]
        congr 1
        · ring
        · simp [Nat.add_assoc, Nat.add_comm 1 k]
      | exhausted => simp [ha, leadingBytes] at h
      | fails => simp [ha, leadingBytes] at h

/-- More bytes wanted than the source has, and then it is exhausted: EndOfStream (R153). -/
theorem pullBytes_exhausted (k t : Nat) (s : State) (h : (leadingBytes s.source.answers).length < k)
    (hc : s.source.endsCleanly) :
    pullBytes k t s = .fault .endOfStream
      (s.setSource { answers := s.source.answers.drop ((leadingBytes s.source.answers).length + 1),
                     delivered := s.source.delivered + (leadingBytes s.source.answers).length }).markEos := by
  induction k generalizing t s with
  | zero => omega
  | succ k ih =>
    rw [pullBytes]
    cases ha : s.source.answers with
    | nil =>
      have e : s = s.setSource { answers := [], delivered := s.source.delivered } := by
        rw [← ha]
      simp only [sourceGet, ha, leadingBytes]
      exact congrArg (fun u : State => Result.fault .endOfStream u.markEos) e
    | cons a rest =>
      cases a with
      | byte b =>
        simp only [ha, leadingBytes, List.length_cons] at h
        simp only [sourceGet, ha]
        rw [ih _ _ (by simpa using h)]
        · simp [State.setSource, leadingBytes, Nat.add_assoc, Nat.add_comm 1]
        · intro a h'
          apply hc
          rw [ha]
          simpa [leadingBytes] using h'
      | exhausted => simp [sourceGet, ha, leadingBytes, State.setSource]
      | fails =>
        have := hc .fails (by simp [ha, leadingBytes])
        simp at this

/-- Whatever the source answers: the bytes wanted, EndOfStream, or SourceError; only the source is read. -/
theorem pullBytes_cases (k t : Nat) (s : State) :
    (∃ v src, src.answers.length + k = s.source.answers.length ∧ pullBytes k t s = .ok v (s.setSource src)) ∨
      (∃ src, pullBytes k t s = .fault .endOfStream (s.setSource src).markEos) ∨
      ∃ src, pullBytes k t s = .fault .sourceError (enterFault .sourceError (s.setSource src)) := by
  induction k generalizing t s with
  | zero => exact .inl ⟨t, s.source, rfl, rfl⟩
  | succ k ih =>
    rw [pullBytes]
    cases ha : s.source.answers with
    | nil => exact .inr (.inl ⟨s.source, by simp [sourceGet, ha]⟩)
    | cons a rest =>
      cases a with
      | byte b =>
        simp only [sourceGet, ha]
        obtain ⟨v, src, hl, h⟩ | h | h :=
          ih (t * 256 + b.toNat) (s.setSource { answers := rest, delivered := s.source.delivered + 1 })
        · refine .inl ⟨v, src, ?_, h⟩
          simp only [List.length_cons]
          have : src.answers.length + k = rest.length := hl
          omega
        · exact .inr (.inl h)
        · exact .inr (.inr h)
      | exhausted => exact .inr (.inl ⟨{ s.source with answers := rest }, by simp [sourceGet, ha]⟩)
      | fails => exact .inr (.inr ⟨{ s.source with answers := rest }, by simp [sourceGet, ha]⟩)

/-! ## BR.READ -/

theorem BitReader.bits_of (t m : Nat) (f : Bool) (hm : m < 8) :
    BitReader.bits { acc := BitVec.ofNat 7 (t % 2 ^ m), nbits := BitVec.ofNat 3 m, eos := f } = fieldBits m t := by
  have h2 : t % 2 ^ m < 2 ^ 7 :=
    Nat.lt_of_lt_of_le (Nat.mod_lt _ (by positivity)) (Nat.pow_le_pow_right (by omega) (by omega))
  simp only [BitReader.bits, BitVec.toNat_ofNat]
  rw [Nat.mod_eq_of_lt (show m < 2 ^ 3 by omega), Nat.mod_eq_of_lt h2, fieldBits_mod _ _ (le_refl _)]

theorem BitReader.inv_of (t m : Nat) (f : Bool) (hm : m < 8) :
    BitReader.inv { acc := BitVec.ofNat 7 (t % 2 ^ m), nbits := BitVec.ofNat 3 m, eos := f } := by
  have h0 : t % 2 ^ m < 2 ^ m := Nat.mod_lt _ (by positivity)
  have h2 : 2 ^ m ≤ 2 ^ 7 := Nat.pow_le_pow_right (by omega) (by omega)
  intro _
  simp only [BitVec.toNat_ofNat]
  rw [Nat.mod_eq_of_lt (show m < 2 ^ 3 by omega), Nat.mod_eq_of_lt (by omega)]
  exact h0

@[simp] theorem BitReader.length_bits (br : BitReader) : br.bits.length = br.nbits.toNat := by
  simp [BitReader.bits]

theorem State.length_unreadBits (s : State) :
    s.unreadBits.length = s.dec.br.nbits.toNat + 8 * (leadingBytes s.source.answers).length := by
  simp [State.unreadBits]

/-- BR.READ where the stream still has n bits: it returns them, they are gone from the stream, and the source has
delivered only the bytes needed (R150 to R152). -/
theorem brRead_accepts {n : Nat} {s : State} (he : s.dec.br.eos = false)
    (hn : n ≤ Config.nMax) (h : n ≤ s.unreadBits.length) :
    ∃ br : BitReader, br.eos = false ∧ br.inv ∧
      br.bits ++ bytesBits ((leadingBytes s.source.answers).drop (bytesNeeded s.dec.br.nbits.toNat n)) =
        s.unreadBits.drop n ∧
      bytesNeeded s.dec.br.nbits.toNat n ≤ (leadingBytes s.source.answers).length ∧
      brRead n s = .ok (bitsValue (s.unreadBits.take n))
        ((s.setSource { answers := s.source.answers.drop (bytesNeeded s.dec.br.nbits.toNat n),
                        delivered := s.source.delivered + bytesNeeded s.dec.br.nbits.toNat n }).setBr br) := by
  rw [State.length_unreadBits] at h
  have hm : s.dec.br.nbits.toNat < 8 := s.dec.br.nbits.isLt
  generalize hk : bytesNeeded s.dec.br.nbits.toNat n = k
  have hkle : k ≤ (leadingBytes s.source.answers).length := by
    rw [← hk, bytesNeeded]
    omega
  have hle : n ≤ s.dec.br.nbits.toNat + 8 * k := by
    rw [← hk, bytesNeeded]
    omega
  have hlt : s.dec.br.nbits.toNat + 8 * k - n < 8 := by
    rw [← hk, bytesNeeded]
    omega
  generalize hl : leadingBytes s.source.answers = lead at *
  have hlen : (lead.take k).length = k := by simp [hkle]
  -- the buffered bits and the pulled bytes as one number
  generalize ht : s.dec.br.acc.toNat * 2 ^ (8 * k) + bitsValue (bytesBits (lead.take k)) = t
  have hbits : fieldBits (s.dec.br.nbits.toNat + 8 * k) t = s.dec.br.bits ++ bytesBits (lead.take k) := by
    have hv := bitsValue_lt (bytesBits (lead.take k))
    rw [length_bytesBits, hlen] at hv
    rw [← ht, fieldBits_mul_add _ _ _ _ hv, BitReader.bits]
    congr 1
    have := fieldBits_bitsValue (bytesBits (lead.take k))
    rwa [length_bytesBits, hlen] at this
  have hsplit : s.unreadBits = fieldBits (s.dec.br.nbits.toNat + 8 * k) t ++ bytesBits (lead.drop k) := by
    rw [hbits, List.append_assoc, ← bytesBits_append, List.take_append_drop, State.unreadBits, hl]
  have hn2 : s.dec.br.nbits.toNat + 8 * k = n + (s.dec.br.nbits.toNat + 8 * k - n) := by omega
  have hsplit2 : s.unreadBits = fieldBits n (t / 2 ^ (s.dec.br.nbits.toNat + 8 * k - n)) ++
      (fieldBits (s.dec.br.nbits.toNat + 8 * k - n) t ++ bytesBits (lead.drop k)) := by
    rw [hsplit, ← List.append_assoc]
    congr 1
    conv_lhs => rw [hn2, fieldBits_add]
  refine ⟨{ acc := BitVec.ofNat 7 (t % 2 ^ (s.dec.br.nbits.toNat + 8 * k - n)),
            nbits := BitVec.ofNat 3 (s.dec.br.nbits.toNat + 8 * k - n), eos := s.dec.br.eos },
    he, BitReader.inv_of _ _ _ hlt, ?_, hkle, ?_⟩
  · rw [BitReader.bits_of _ _ _ hlt, hsplit2, List.drop_left' (by simp)]
  · have hw : widthOk n = true := by simpa [widthOk] using hn
    rw [hsplit2, List.take_left' (by simp), bitsValue_fieldBits, ← Nat.shiftRight_eq_div_pow]
    unfold brRead
    rw [hw, hk, pullBytes_bytes k _ s (by rw [hl]; exact hkle), hl, ht]
    simp [he, giveBits]

/-- BR.READ where the stream has fewer bits and then ends: EndOfStream (R153). -/
theorem brRead_ends {n : Nat} {s : State} (he : s.dec.br.eos = false) (hn : n ≤ Config.nMax)
    (h : s.unreadBits.length < n) (hc : s.source.endsCleanly) :
    brRead n s = .fault .endOfStream
      (s.setSource { answers := s.source.answers.drop ((leadingBytes s.source.answers).length + 1),
                     delivered := s.source.delivered + (leadingBytes s.source.answers).length }).markEos := by
  rw [State.length_unreadBits] at h
  have hw : widthOk n = true := by simpa [widthOk] using hn
  unfold brRead
  rw [hw, he, pullBytes_exhausted _ _ _ (by rw [bytesNeeded]; omega) hc]
  rfl

/-- BR.READ after EndOfStream raises it again (R154). -/
theorem brRead_eos {n : Nat} {s : State} (he : s.dec.br.eos = true) (hn : n ≤ Config.nMax) :
    brRead n s = .fault .endOfStream s := by
  have hw : widthOk n = true := by simpa [widthOk] using hn
  unfold brRead
  rw [hw, he]
  rfl

/-- Whatever the source answers, BR.READ writes the Bit Reader and the source only, or raises EndOfStream or
SourceError, or is refused. -/
theorem brRead_cases (n : Nat) (s : State) :
    (∃ v src br, br.eos = false ∧ brRead n s = .ok v ((s.setSource src).setBr br)) ∨
      (∃ src, brRead n s = .fault .endOfStream (s.setSource src).markEos) ∨
      (s.dec.br.eos = true ∧ brRead n s = .fault .endOfStream s) ∨
      (∃ src, brRead n s = .fault .sourceError (enterFault .sourceError (s.setSource src))) ∨
      (brRead n s = .refused .badWidth ∧ Config.nMax < n) := by
  unfold brRead
  by_cases hw : widthOk n = true
  · cases he : s.dec.br.eos with
    | true => exact .inr (.inr (.inl ⟨rfl, by rw [hw]; rfl⟩))
    | false =>
      rw [hw]
      obtain ⟨v, src, -, h⟩ | ⟨src, h⟩ | ⟨src, h⟩ :=
        pullBytes_cases (bytesNeeded s.dec.br.nbits.toNat n) s.dec.br.acc.toNat s
      · rw [h]
        exact .inl ⟨_, src, { s.dec.br with acc := BitVec.ofNat 7 _, nbits := BitVec.ofNat 3 _ }, he, rfl⟩
      · rw [h]
        exact .inr (.inl ⟨src, rfl⟩)
      · rw [h]
        exact .inr (.inr (.inr (.inl ⟨src, rfl⟩)))
  · refine .inr (.inr (.inr (.inr ⟨?_, by simpa [widthOk] using hw⟩)))
    simp [hw]

end Sys2Proof.Machine
end

