-- ==== Sys2Proof/Laws/BitWriter.lean ====
section
/-! SUPPORT. What the Bit Writer's operations can do: the bits they append where the sink accepts, and the one
fault they raise where it does not. -/

namespace Sys2Proof.Machine

/-- The state with another sink. -/
abbrev State.setSink (s : State) (k : Sink) : State := { s with sink := k }

/-! ## SinkPut -/

/-- An accepted byte (R66). -/
theorem sinkPut_accepts {s : State} (h : s.sink.acceptsNext 1) (b : Byte) :
    sinkPut b s = .ok () (s.setSink { taken := s.sink.taken ++ [b], answers := s.sink.answers.drop 1 }) := by
  unfold sinkPut
  cases hs : s.sink.answers with
  | nil => simp [hs]
  | cons a rest =>
    have ha : a = .accepts := h a (by simp [hs])
    subst ha
    simp

/-- SinkPut hands the byte over or fails; it changes nothing else (R66, R67). -/
theorem sinkPut_cases (b : Byte) (s : State) :
    (∃ k, sinkPut b s = .ok () (s.setSink k) ∧ k.taken = s.sink.taken ++ [b]) ∨
      ∃ k, sinkPut b s = .fault .sinkError (enterFault .sinkError (s.setSink k)) ∧ k.taken = s.sink.taken := by
  unfold sinkPut
  cases s.sink.answers with
  | nil => exact .inl ⟨_, rfl, rfl⟩
  | cons a rest =>
    cases a with
    | accepts => exact .inl ⟨_, rfl, rfl⟩
    | fails => exact .inr ⟨_, rfl, rfl⟩

theorem Sink.acceptsNext_mono {j k : Nat} {sink : Sink} (h : sink.acceptsNext k) (hj : j ≤ k) :
    sink.acceptsNext j := by
  intro a ha
  obtain ⟨i, hi, rfl⟩ := List.getElem_of_mem ha
  rw [List.getElem_take]
  rw [List.length_take] at hi
  exact h _ (List.mem_iff_getElem.mpr ⟨i, by rw [List.length_take]; omega, by rw [List.getElem_take]⟩)

theorem Sink.acceptsNext_drop {j k : Nat} {sink : Sink} (h : sink.acceptsNext (j + k)) (taken : List Byte) :
    Sink.acceptsNext k { taken := taken, answers := sink.answers.drop j } := by
  intro a ha
  have : a ∈ (sink.answers.take (j + k)) := by
    rw [List.take_add]
    exact List.mem_append_right _ ha
  exact h a this

theorem Sink.acceptsNext_of_all {sink : Sink} (h : sink.acceptsAll) (k : Nat) : sink.acceptsNext k :=
  fun a ha => h a (List.mem_of_mem_take ha)

/-! ## Whole bytes -/

/-- q whole bytes of m bits go to the sink; the rest stay (R131). -/
theorem putBytes_accepts (q t m : Nat) (s : State) (hm : 8 * q ≤ m) (h : s.sink.acceptsNext q) :
    ∃ bytes : List Byte, bytes.length = q ∧ fieldBits m t = bytesBits bytes ++ fieldBits (m - 8 * q) t ∧
      putBytes q t m s = .ok () ((s.setSink
        { taken := s.sink.taken ++ bytes, answers := s.sink.answers.drop q }).setBw
          { s.cmp.bw with acc := BitVec.ofNat 7 (t % 2 ^ (m - 8 * q)), nbits := BitVec.ofNat 3 (m - 8 * q) }) := by
  induction q generalizing m s with
  | zero => exact ⟨[], rfl, by simp, by simp [putBytes, State.setSink]⟩
  | succ q ih =>
    obtain ⟨bytes, hlen, hbits, hput⟩ := ih (m - 8)
      (s.setSink { taken := s.sink.taken ++ [BitVec.ofNat 8 ((t >>> (m - 8)) % 256)],
                   answers := s.sink.answers.drop 1 })
      (by omega) (Sink.acceptsNext_drop (j := 1) (by rwa [Nat.add_comm]) _)
    have hsub : m - 8 - 8 * q = m - 8 * (q + 1) := by omega
    rw [hsub] at hbits hput
    refine ⟨BitVec.ofNat 8 ((t >>> (m - 8)) % 256) :: bytes, by simp [hlen], ?_, ?_⟩
    · have hadd : m = 8 + (m - 8) := by omega
      conv_lhs => rw [hadd, fieldBits_add]
      rw [hbits, bytesBits_cons, List.append_assoc]
      congr 1
      rw [BitVec.toNat_ofNat, Nat.mod_mod, Nat.shiftRight_eq_div_pow]
      exact (fieldBits_mod 8 (t / 2 ^ (m - 8)) (m := 8) (le_refl _)).symm
    · rw [putBytes, sinkPut_accepts (Sink.acceptsNext_mono h (by omega)), bind_ok, hput]
      simp

theorem BitWriter.inv_of (t m : Nat) (f : Bool) (hm : m < 8) :
    BitWriter.inv { acc := BitVec.ofNat 7 (t % 2 ^ m), nbits := BitVec.ofNat 3 m, flushed := f } := by
  have h0 : t % 2 ^ m < 2 ^ m := Nat.mod_lt _ (by positivity)
  have h2 : 2 ^ m ≤ 2 ^ 7 := Nat.pow_le_pow_right (by omega) (by omega)
  simp only [BitWriter.inv, BitVec.toNat_ofNat]
  rw [Nat.mod_eq_of_lt (show m < 2 ^ 3 by omega), Nat.mod_eq_of_lt (by omega)]
  exact h0

/-- Whatever the sink answers: the bytes go out, or SinkError with only the sink changed before it. -/
theorem putBytes_cases (q t m : Nat) (s : State) (hm : m - 8 * q < 8) :
    (∃ k bw, bw.flushed = s.cmp.bw.flushed ∧ bw.inv ∧ putBytes q t m s = .ok () ((s.setSink k).setBw bw)) ∨
      ∃ k, putBytes q t m s = .fault .sinkError (enterFault .sinkError (s.setSink k)) := by
  induction q generalizing m s with
  | zero =>
    exact .inl ⟨s.sink, { s.cmp.bw with acc := BitVec.ofNat 7 (t % 2 ^ m), nbits := BitVec.ofNat 3 m }, rfl,
      BitWriter.inv_of _ _ _ (by omega), rfl⟩
  | succ q ih =>
    rw [putBytes]
    obtain ⟨k, hk, -⟩ | ⟨k, hk, -⟩ := sinkPut_cases (BitVec.ofNat 8 ((t >>> (m - 8)) % 256)) s
    · rw [hk, bind_ok]
      exact ih (m - 8) (s.setSink k) (by omega)
    · rw [hk]
      exact .inr ⟨k, rfl⟩

/-! ## BW.WRITE -/

theorem BitWriter.bits_of (acc m : Nat) (f : Bool) (hm : m < 8) :
    BitWriter.bits { acc := BitVec.ofNat 7 (acc % 2 ^ m), nbits := BitVec.ofNat 3 m, flushed := f } =
      fieldBits m acc := by
  have h2 : acc % 2 ^ m < 2 ^ 7 :=
    Nat.lt_of_lt_of_le (Nat.mod_lt _ (by positivity)) (Nat.pow_le_pow_right (by omega) (by omega))
  simp only [BitWriter.bits, BitVec.toNat_ofNat]
  rw [Nat.mod_eq_of_lt (show m < 2 ^ 3 by omega), Nat.mod_eq_of_lt h2, fieldBits_mod _ _ (le_refl _)]

/-- BW.WRITE with an accepting sink: the field's bits follow the bits written so far (R130, R131, R133). -/
theorem bwWrite_accepts {value n : Nat} {s : State} (hf : s.cmp.bw.flushed = false) (hn : n ≤ Config.nMax)
    (h : s.sink.acceptsNext ((s.cmp.bw.nbits.toNat + n) / 8)) :
    ∃ (bytes : List Byte) (bw : BitWriter),
      bytes.length = (s.cmp.bw.nbits.toNat + n) / 8 ∧
      s.cmp.bw.bits ++ fieldBits n value = bytesBits bytes ++ bw.bits ∧
      bw.nbits.toNat = (s.cmp.bw.nbits.toNat + n) % 8 ∧ bw.inv ∧ bw.flushed = false ∧
      bwWrite value n s = .ok () ((s.setSink
        { taken := s.sink.taken ++ bytes,
          answers := s.sink.answers.drop ((s.cmp.bw.nbits.toNat + n) / 8) }).setBw bw) := by
  have hw : widthOk n = true := by simpa [widthOk] using hn
  obtain ⟨bytes, hlen, hbits, hput⟩ := putBytes_accepts ((s.cmp.bw.nbits.toNat + n) / 8)
    (s.cmp.bw.acc.toNat * 2 ^ n + value % 2 ^ n) (s.cmp.bw.nbits.toNat + n) s (by omega) h
  have hm : s.cmp.bw.nbits.toNat + n - 8 * ((s.cmp.bw.nbits.toNat + n) / 8) =
      (s.cmp.bw.nbits.toNat + n) % 8 := by omega
  rw [hm] at hbits hput
  have hlt : (s.cmp.bw.nbits.toNat + n) % 8 < 8 := Nat.mod_lt _ (by omega)
  refine ⟨bytes,
    { acc := BitVec.ofNat 7 ((s.cmp.bw.acc.toNat * 2 ^ n + value % 2 ^ n) % 2 ^ ((s.cmp.bw.nbits.toNat + n) % 8)),
      nbits := BitVec.ofNat 3 ((s.cmp.bw.nbits.toNat + n) % 8), flushed := s.cmp.bw.flushed },
    hlen, ?_, ?_, ?_, hf, ?_⟩
  rotate_left 3
  · rw [← hput]
    simp only [bwWrite, hf, hw, Bool.not_true, Bool.false_eq_true, if_false]
  · rw [BitWriter.bits_of _ _ _ hlt, ← hbits,
      fieldBits_mul_add _ _ _ _ (Nat.mod_lt _ (by positivity)), fieldBits_mod _ _ (le_refl _)]
    rfl
  · simp only [BitVec.toNat_ofNat]
    exact Nat.mod_eq_of_lt (by omega)
  · exact BitWriter.inv_of _ _ _ hlt

/-- Whatever the sink answers, BW.WRITE writes the Bit Writer and the sink only, or raises SinkError. -/
theorem bwWrite_cases (value n : Nat) (s : State) :
    (∃ k bw, bw.flushed = false ∧ bw.inv ∧ bwWrite value n s = .ok () ((s.setSink k).setBw bw)) ∨
      (∃ k, bwWrite value n s = .fault .sinkError (enterFault .sinkError (s.setSink k))) ∨
      ∃ r, bwWrite value n s = .refused r ∧ (s.cmp.bw.flushed = true ∨ Config.nMax < n) := by
  unfold bwWrite
  split
  · next h => exact .inr (.inr ⟨_, rfl, .inl h⟩)
  · split
    · next h => exact .inr (.inr ⟨_, rfl, .inr (by simpa [widthOk] using h)⟩)
    · next hf _ =>
      obtain ⟨k, bw, hb, hi, h⟩ | ⟨k, h⟩ := putBytes_cases ((s.cmp.bw.nbits.toNat + n) / 8)
        (s.cmp.bw.acc.toNat * 2 ^ n + value % 2 ^ n) (s.cmp.bw.nbits.toNat + n) s (by omega)
      · exact .inl ⟨k, bw, by rw [hb]; simpa using hf, hi, h⟩
      · exact .inr (.inl ⟨k, h⟩)

/-! ## BW.FLUSH -/

/-- BW.FLUSH with an accepting sink: zeros up to the byte boundary, nothing where none is needed (R134, R135). -/
theorem bwFlush_accepts {s : State} (hf : s.cmp.bw.flushed = false) (h : s.sink.acceptsNext 1) :
    ∃ bytes : List Byte,
      bytes.length = (if s.cmp.bw.nbits = 0#3 then 0 else 1) ∧
      bytesBits bytes = s.cmp.bw.bits ++ List.replicate ((8 - s.cmp.bw.nbits.toNat) % 8) false ∧
      bwFlush s = .ok () ((s.setSink
        { taken := s.sink.taken ++ bytes, answers := s.sink.answers.drop bytes.length }).markFlushed) := by
  unfold bwFlush
  by_cases h0 : s.cmp.bw.nbits = 0#3
  · rw [if_pos h0]
    refine ⟨[], rfl, by simp [BitWriter.bits, h0], ?_⟩
    rw [if_neg (by simp [hf]), if_pos h0]
    simp [State.setSink]
  · rw [if_neg h0]
    have hlt : s.cmp.bw.nbits.toNat < 8 := s.cmp.bw.nbits.isLt
    have hpos : 0 < s.cmp.bw.nbits.toNat := by
      rcases Nat.eq_zero_or_pos s.cmp.bw.nbits.toNat with h | h
      · exact absurd (BitVec.eq_of_toNat_eq (by simpa using h)) h0
      · exact h
    refine ⟨[BitVec.ofNat 8 (s.cmp.bw.acc.toNat * 2 ^ (8 - s.cmp.bw.nbits.toNat))], rfl, ?_, ?_⟩
    · have h8 : 8 = s.cmp.bw.nbits.toNat + (8 - s.cmp.bw.nbits.toNat) := by omega
      rw [bytesBits_cons, bytesBits_nil, List.append_nil, BitVec.toNat_ofNat, fieldBits_mod _ _ (le_refl _)]
      have hz : ∀ k, fieldBits k 0 = List.replicate k false := by
        intro k
        induction k with
        | zero => rfl
        | succ k ih => simp [fieldBits, ih, List.replicate_succ]
      have := fieldBits_mul_add s.cmp.bw.nbits.toNat (8 - s.cmp.bw.nbits.toNat) s.cmp.bw.acc.toNat 0 (by positivity)
      rw [Nat.add_zero, ← h8, hz] at this
      rw [this, Nat.mod_eq_of_lt (by omega)]
      rfl
    · rw [if_neg (by simp [hf]), if_neg h0, sinkPut_accepts h]
      rfl

/-- Whatever the sink answers, BW.FLUSH sets BW.FLUSHED, or raises SinkError, or is refused. -/
theorem bwFlush_cases (s : State) :
    (∃ k, bwFlush s = .ok () ((s.setSink k).markFlushed)) ∨
      (∃ k, bwFlush s = .fault .sinkError (enterFault .sinkError (s.setSink k))) ∨
      (bwFlush s = .refused .useAfterFlush ∧ s.cmp.bw.flushed = true) := by
  unfold bwFlush
  split
  · next h => exact .inr (.inr ⟨rfl, h⟩)
  · split
    · exact .inl ⟨s.sink, rfl⟩
    · obtain ⟨k, hk, -⟩ | ⟨k, hk, -⟩ := sinkPut_cases
        (BitVec.ofNat 8 (s.cmp.bw.acc.toNat * 2 ^ (8 - s.cmp.bw.nbits.toNat))) s
      · rw [hk]
        exact .inl ⟨k, rfl⟩
      · rw [hk]
        exact .inr (.inl ⟨k, rfl⟩)

end Sys2Proof.Machine
end

