-- ==== Sys2Proof/Laws/Memory.lean ====
section
/-! SUPPORT. Laws of memory: a read after a write, and that every operation keeps the canonical form. -/

namespace Sys2Proof.Machine

@[simp] theorem Memory.read_nil (a : Nat) : Memory.read [] a = Config.windowInit := rfl

theorem Memory.wf_nil : Memory.wf [] := ⟨List.Pairwise.nil, by simp⟩

theorem Memory.wf_tail {c : Host.Cell} {rest : Memory} (h : Memory.wf (c :: rest)) : Memory.wf rest :=
  ⟨(List.pairwise_cons.mp h.1).2, fun x hx => h.2 x (List.mem_cons_of_mem _ hx)⟩

/-- An index below every listed one reads as the initial byte. -/
theorem Memory.read_below {m : Memory} {a : Nat} (h : ∀ c ∈ m, a < c.1) :
    Memory.read m a = Config.windowInit := by
  induction m with
  | nil => rfl
  | cons c rest ih =>
    obtain ⟨k, v⟩ := c
    have hk : a < k := h (k, v) (by simp)
    rw [Memory.read, if_neg (by omega), ih fun c hc => h c (List.mem_cons_of_mem _ hc)]

theorem Memory.mem_cons {a : Nat} {b : Byte} {rest : Memory} {c : Host.Cell}
    (h : c ∈ Memory.cons a b rest) : c = (a, b) ∨ c ∈ rest := by
  unfold Memory.cons at h
  split at h
  · exact .inr h
  · simpa using h

theorem Memory.wf_cons {a : Nat} {b : Byte} {rest : Memory} (hr : Memory.wf rest) (h : ∀ c ∈ rest, a < c.1) :
    Memory.wf (Memory.cons a b rest) := by
  unfold Memory.cons
  split
  · exact hr
  · next hb =>
    refine ⟨List.pairwise_cons.mpr ⟨h, hr.1⟩, ?_⟩
    intro c hc
    rcases List.mem_cons.mp hc with rfl | hc
    · exact hb
    · exact hr.2 c hc

theorem Memory.read_cons {a : Nat} {b : Byte} {rest : Memory} (h : ∀ c ∈ rest, a < c.1) (i : Nat) :
    Memory.read (Memory.cons a b rest) i = if i = a then b else Memory.read rest i := by
  unfold Memory.cons
  split
  · next hb =>
    split
    · next hi => rw [hi, Memory.read_below h, hb]
    · rfl
  · rfl

/-- A written index is the one written or one that was listed. -/
theorem Memory.mem_write {m : Memory} {a : Nat} {b : Byte} {c : Host.Cell} (h : c ∈ Memory.write m a b) :
    c = (a, b) ∨ c ∈ m := by
  induction m with
  | nil => exact Memory.mem_cons h
  | cons d rest ih =>
    obtain ⟨k, v⟩ := d
    rw [Memory.write] at h
    split at h
    · exact Memory.mem_cons h
    · split at h
      · rcases Memory.mem_cons h with h | h
        · exact .inl h
        · exact .inr (List.mem_cons_of_mem _ h)
      · rcases List.mem_cons.mp h with h | h
        · exact .inr (h ▸ List.mem_cons_self ..)
        · rcases ih h with h | h
          · exact .inl h
          · exact .inr (List.mem_cons_of_mem _ h)

/-- Writing a byte keeps the canonical form. -/
theorem Memory.wf_write {m : Memory} (h : Memory.wf m) (a : Nat) (b : Byte) : Memory.wf (Memory.write m a b) := by
  induction m with
  | nil => exact Memory.wf_cons h (by simp)
  | cons d rest ih =>
    obtain ⟨k, v⟩ := d
    have hk := (List.pairwise_cons.mp h.1).1
    rw [Memory.write]
    split
    · next hlt =>
      refine Memory.wf_cons h fun c hc => ?_
      rcases List.mem_cons.mp hc with rfl | hc
      · exact hlt
      · exact Nat.lt_trans hlt (hk c hc)
    · split
      · next hne heq => exact Memory.wf_cons (Memory.wf_tail h) fun c hc => heq ▸ hk c hc
      · next hge hne =>
        have hr := ih (Memory.wf_tail h)
        refine ⟨List.pairwise_cons.mpr ⟨fun c hc => ?_, hr.1⟩, fun c hc => ?_⟩
        · rcases Memory.mem_write hc with rfl | hc
          · show k < a
            omega
          · exact hk c hc
        · rcases List.mem_cons.mp hc with rfl | hc
          · exact h.2 _ (List.mem_cons_self ..)
          · exact hr.2 c hc

/-- Reading after a write: the byte written at its index, the old byte elsewhere. -/
theorem Memory.read_write {m : Memory} (h : Memory.wf m) (a : Nat) (b : Byte) (i : Nat) :
    Memory.read (Memory.write m a b) i = if i = a then b else Memory.read m i := by
  induction m with
  | nil => exact Memory.read_cons (by simp) i
  | cons d rest ih =>
    obtain ⟨k, v⟩ := d
    have hk := (List.pairwise_cons.mp h.1).1
    rw [Memory.write]
    split
    · next hlt =>
      refine Memory.read_cons (fun c hc => ?_) i
      rcases List.mem_cons.mp hc with rfl | hc
      · exact hlt
      · exact Nat.lt_trans hlt (hk c hc)
    · split
      · next hne heq =>
        subst heq
        rw [Memory.read_cons (fun c hc => hk c hc), Memory.read]
        split <;> rfl
      · next hge hne =>
        rw [Memory.read, Memory.read, ih (Memory.wf_tail h)]
        by_cases hi : i = k
        · rw [if_pos hi, if_pos hi, if_neg (by omega)]
        · rw [if_neg hi, if_neg hi]

/-- Clearing the cells below c keeps the canonical form. -/
theorem Memory.wf_clearBelow {m : Memory} (h : Memory.wf m) (c : Nat) : Memory.wf (Memory.clearBelow m c) :=
  ⟨h.1.filter _, fun x hx => h.2 x (List.mem_filter.mp hx).1⟩

/-- After clearing, the cells below c are initial and the others as before. -/
theorem Memory.read_clearBelow (m : Memory) (c i : Nat) :
    Memory.read (Memory.clearBelow m c) i = if i < c then Config.windowInit else Memory.read m i := by
  induction m with
  | nil => simp [Memory.clearBelow]
  | cons d rest ih =>
    obtain ⟨k, v⟩ := d
    unfold Memory.clearBelow at ih ⊢
    by_cases hk : c ≤ k
    · simp only [List.filter_cons, hk, decide_true, if_true, Memory.read, ih]
      by_cases hi : i = k
      · simp [hi, Nat.not_lt.mpr hk]
      · simp [hi]
    · simp only [List.filter_cons, hk, decide_false, Memory.read]
      rw [if_neg (by simp), ih]
      by_cases hi : i < c
      · simp [hi]
      · have : i ≠ k := by omega
        simp [hi, this]

/-- Loading bytes keeps the canonical form. -/
theorem Memory.wf_load {m : Memory} (h : Memory.wf m) (a : Nat) (bs : List Byte) :
    Memory.wf (Memory.load m a bs) := by
  induction bs generalizing m a with
  | nil => exact h
  | cons b bs ih => exact ih (Memory.wf_write h a b) (a + 1)

end Sys2Proof.Machine
end

