-- ==== Sys2Proof/Laws/Window.lean ====
section
/-! SUPPORT. Laws of the window: writing at the cursor, the search by its result, the span read, and what of the
invariant each keeps. -/

namespace Sys2Proof.Machine

theorem Cfg.cap_pos (c : Cfg) : 0 < c.cap := by simp [Cfg.cap]

theorem Cfg.cap_le (c : Cfg) : c.cap ≤ 2 ^ 15 := by
  have : c.wb.toNat < 16 := c.wb.isLt
  exact Nat.pow_le_pow_right (by omega) (by omega)

theorem Cfg.minLen_pos (c : Cfg) : 1 ≤ c.minLen := by simp [Cfg.minLen]

theorem Cfg.maxLen_add (c : Cfg) : c.maxLen + 1 = c.minLen + 2 ^ c.sb.toNat := by
  have : 0 < 2 ^ c.sb.toNat := by positivity
  have := Cfg.minLen_pos c
  simp only [Cfg.maxLen]
  omega

/-! ## Writing -/

@[simp] theorem Window.writeByte_buf (c : Nat) (w : Window) (b : Byte) :
    (Window.writeByte c w b).buf = Memory.write w.buf w.cur.toNat b := rfl

/-- The cursor after a write (R171). -/
theorem Window.writeByte_cur {c : Nat} (hc : 0 < c) (hle : c ≤ 2 ^ 15) (w : Window) (b : Byte) :
    (Window.writeByte c w b).cur.toNat = (w.cur.toNat + 1) % c := by
  have : (w.cur.toNat + 1) % c < c := Nat.mod_lt _ hc
  simp only [Window.writeByte, BitVec.toNat_ofNat]
  exact Nat.mod_eq_of_lt (by omega)

@[simp] theorem Window.writeBytes_nil (c : Nat) (w : Window) : Window.writeBytes c w [] = w := rfl
@[simp] theorem Window.writeBytes_cons (c : Nat) (w : Window) (b : Byte) (bs : List Byte) :
    Window.writeBytes c w (b :: bs) = Window.writeBytes c (Window.writeByte c w b) bs := rfl
theorem Window.writeBytes_append (c : Nat) (w : Window) (as bs : List Byte) :
    Window.writeBytes c w (as ++ bs) = Window.writeBytes c (Window.writeBytes c w as) bs := by
  simp [Window.writeBytes]

theorem Window.wf_writeBytes {c : Nat} {w : Window} (h : Memory.wf w.buf) (seq : List Byte) :
    Memory.wf (Window.writeBytes c w seq).buf := by
  induction seq generalizing w with
  | nil => exact h
  | cons b bs ih => exact ih (w := Window.writeByte c w b) (Memory.wf_write h _ _)

/-- The cursor after a sequence (R172). -/
theorem Window.writeBytes_cur {c : Nat} (hc : 0 < c) (hle : c ≤ 2 ^ 15) (w : Window) (hw : w.cur.toNat < c)
    (seq : List Byte) : (Window.writeBytes c w seq).cur.toNat = (w.cur.toNat + seq.length) % c := by
  induction seq generalizing w with
  | nil => simp [Nat.mod_eq_of_lt hw]
  | cons b bs ih =>
    have h1 := Window.writeByte_cur hc hle w b
    rw [Window.writeBytes_cons, ih _ (by rw [h1]; exact Nat.mod_lt _ hc), h1]
    simp [Nat.add_assoc, Nat.add_comm 1]

theorem Window.writeBytes_cur_lt {c : Nat} (hc : 0 < c) (hle : c ≤ 2 ^ 15) {w : Window} (hw : w.cur.toNat < c)
    (seq : List Byte) : (Window.writeBytes c w seq).cur.toNat < c := by
  rw [Window.writeBytes_cur hc hle w hw]
  exact Nat.mod_lt _ hc

/-- A cell that no byte of the sequence lands on is as before. -/
theorem Window.read_writeBytes_other {c : Nat} (hc : 0 < c) (hle : c ≤ 2 ^ 15) {w : Window}
    (hm : Memory.wf w.buf) (hw : w.cur.toNat < c) (seq : List Byte) (i : Nat)
    (hi : ∀ k, k < seq.length → (w.cur.toNat + k) % c ≠ i) :
    Memory.read (Window.writeBytes c w seq).buf i = Memory.read w.buf i := by
  induction seq generalizing w with
  | nil => rfl
  | cons b bs ih =>
    have h1 := Window.writeByte_cur hc hle w b
    rw [Window.writeBytes_cons, ih (Memory.wf_write hm _ _) (by rw [h1]; exact Nat.mod_lt _ hc)]
    · rw [Window.writeByte_buf, Memory.read_write hm, if_neg]
      intro h
      exact hi 0 (by simp) (by simp [Nat.mod_eq_of_lt hw, h])
    · intro k hk
      rw [h1, Nat.mod_add_mod]
      have := hi (k + 1) (by simp; omega)
      rwa [Nat.add_comm k 1, ← Nat.add_assoc] at this

/-- Byte k of a sequence stands at the cursor plus k modulo C, if no later byte lands there (R170, R172). -/
theorem Window.read_writeBytes {c : Nat} (hc : 0 < c) (hle : c ≤ 2 ^ 15) {w : Window} (hm : Memory.wf w.buf)
    (hw : w.cur.toNat < c) (seq : List Byte) (k : Nat) (hk : k < seq.length) (hlast : seq.length ≤ k + c) :
    Memory.read (Window.writeBytes c w seq).buf ((w.cur.toNat + k) % c) = seq[k] := by
  induction seq generalizing w k with
  | nil => simp at hk
  | cons b bs ih =>
    have h1 := Window.writeByte_cur hc hle w b
    have h1' : (Window.writeByte c w b).cur.toNat < c := by rw [h1]; exact Nat.mod_lt _ hc
    rw [Window.writeBytes_cons]
    cases k with
    | zero =>
      rw [Window.read_writeBytes_other hc hle (Memory.wf_write hm _ _) h1', Window.writeByte_buf,
        Memory.read_write hm, if_pos (by simp [Nat.mod_eq_of_lt hw])]
      · rfl
      · intro j hj
        simp only [List.length_cons] at hlast
        rw [h1, Nat.mod_add_mod, Nat.add_zero]
        intro h
        have h2 : (w.cur.toNat + (1 + j)) % c = (w.cur.toNat + 0) % c := by
          rw [← Nat.add_assoc, h, Nat.add_zero]
        have h3 : (1 + j) % c = 0 % c := (Nat.ModEq.add_left_cancel' _ h2)
        rw [Nat.zero_mod, Nat.mod_eq_of_lt (by omega)] at h3
        omega
    | succ k =>
      have := ih (Memory.wf_write hm _ _) h1' k (by simpa using hk) (by simp at hlast; omega)
      rw [h1, Nat.mod_add_mod] at this
      have e : w.cur.toNat + (k + 1) = w.cur.toNat + 1 + k := by omega
      rw [e, this, List.getElem_cons_succ]

/-- Every byte of the window after a write was written or stood there before. -/
theorem Window.narrow_writeBytes {cfg : Cfg} {w : Window} (hm : Memory.wf w.buf) (h : w.inv cfg)
    {seq : List Byte} (hs : narrow cfg seq) : (Window.writeBytes cfg.cap w seq).inv cfg := by
  induction seq generalizing w with
  | nil => exact h
  | cons b bs ih =>
    refine ih (Memory.wf_write hm _ _) ⟨?_, fun i hi => ?_⟩ fun x hx => hs x (List.mem_cons_of_mem _ hx)
    · rw [Window.writeByte_cur (Cfg.cap_pos _) (Cfg.cap_le _)]
      exact Nat.mod_lt _ (Cfg.cap_pos _)
    · rw [Window.writeByte_buf, Memory.read_write hm]
      split
      · exact hs b (List.mem_cons_self ..)
      · exact h.2 i hi

/-- A new window meets the invariant: all zero, cursor 0 (R372). -/
theorem Window.inv_fresh (cfg : Cfg) (w : Window) : (Window.fresh cfg.cap w).inv cfg := by
  refine ⟨Cfg.cap_pos cfg, fun i hi => ?_⟩
  rw [Window.fresh, Memory.read_clearBelow, if_pos hi]
  simp [Config.windowInit]

/-! ## Searching -/

theorem Window.matchesAt_iff (m : Memory) (i : Nat) (pattern : List Byte) :
    Window.matchesAt m i pattern = true ↔ ∀ k (h : k < pattern.length), Memory.read m (i + k) = pattern[k] := by
  induction pattern generalizing i with
  | nil => simp [Window.matchesAt]
  | cons b bs ih =>
    rw [Window.matchesAt, Bool.and_eq_true, decide_eq_true_iff, ih]
    constructor
    · rintro ⟨h0, h⟩ k hk
      cases k with
      | zero => exact h0
      | succ k =>
        have := h k (by simpa using hk)
        have e : i + (k + 1) = i + 1 + k := by omega
        rw [e, this, List.getElem_cons_succ]
    · intro h
      refine ⟨h 0 (by simp), fun k hk => ?_⟩
      have := h (k + 1) (by simpa using hk)
      have e : i + (k + 1) = i + 1 + k := by omega
      rwa [e, List.getElem_cons_succ] at this

/-- The search finds the least index from start on at which the pattern occurs (R174). -/
theorem Window.search_some {c : Nat} {w : Window} {pattern : List Byte} {start i : Nat}
    (hp : pattern ≠ []) (h : Window.search c w pattern start = some i) :
    start ≤ i ∧ occursAt c w pattern i ∧ ∀ j, start ≤ j → j < i → ¬ occursAt c w pattern j := by
  rw [Window.search, List.find?_range'_eq_some] at h
  obtain ⟨hm, hi, hlt⟩ := h
  have hpos : 0 < pattern.length := List.length_pos_iff.mpr hp
  simp only [List.mem_range'_1] at hi
  refine ⟨hi.1, ⟨by omega, (Window.matchesAt_iff _ _ _).mp hm⟩, fun j hj hji ho => ?_⟩
  have := hlt j hj hji
  simp only [Bool.not_eq_true', ← Bool.not_eq_true] at this
  exact this ((Window.matchesAt_iff _ _ _).mpr ho.2)

/-- NOT_FOUND: the pattern occurs nowhere from start on (R174). -/
theorem Window.search_none {c : Nat} {w : Window} {pattern : List Byte} {start : Nat}
    (h : Window.search c w pattern start = none) : ∀ j, start ≤ j → ¬ occursAt c w pattern j := by
  rw [Window.search, List.find?_eq_none] at h
  intro j hj ho
  refine h j ?_ ((Window.matchesAt_iff _ _ _).mpr ho.2)
  rw [List.mem_range'_1]
  have := ho.1
  omega

/-- The search answers some index exactly when the pattern occurs from start on. -/
theorem Window.search_isSome {c : Nat} {w : Window} {pattern : List Byte} {start j : Nat}
    (hj : start ≤ j) (ho : occursAt c w pattern j) : ∃ i, Window.search c w pattern start = some i := by
  cases h : Window.search c w pattern start with
  | none => exact absurd ho (Window.search_none h j hj)
  | some i => exact ⟨i, rfl⟩

/-- An occurrence of a sequence is one of each of its prefixes. -/
theorem occursAt_take {c : Nat} {w : Window} {pattern : List Byte} {i : Nat} (h : occursAt c w pattern i)
    (n : Nat) : occursAt c w (pattern.take n) i := by
  refine ⟨?_, fun k hk => ?_⟩
  · have := h.1
    rw [List.length_take]
    omega
  · rw [List.getElem_take]
    exact h.2 k (by rw [List.length_take] at hk; omega)

/-! ## Reading a span -/

@[simp] theorem Window.length_readSpan (c : Nat) (w : Window) (pos len : Nat) :
    (Window.readSpan c w pos len).length = len := by
  simp [Window.readSpan]

/-- Byte k of a span (R178). -/
theorem Window.getElem_readSpan (c : Nat) (w : Window) (pos len k : Nat)
    (h : k < (Window.readSpan c w pos len).length) :
    (Window.readSpan c w pos len)[k] = Memory.read w.buf ((pos + k) % c) := by
  simp [Window.readSpan]

/-- The span at an occurrence is the pattern: what the compressor found is what the decompressor copies (R301). -/
theorem Window.readSpan_of_occursAt {c : Nat} {w : Window} {pattern : List Byte} {i : Nat}
    (h : occursAt c w pattern i) : Window.readSpan c w i pattern.length = pattern := by
  refine List.ext_getElem (by simp) fun k hk hk' => ?_
  rw [Window.getElem_readSpan, Nat.mod_eq_of_lt (by have := h.1; omega), h.2 k hk']

/-- The bytes of a span are narrow where the window is. -/
theorem Window.narrow_readSpan {cfg : Cfg} {w : Window} (h : w.inv cfg) (pos len : Nat) :
    narrow cfg (Window.readSpan cfg.cap w pos len) := by
  intro b hb
  obtain ⟨k, hk, rfl⟩ := List.getElem_of_mem hb
  rw [Window.getElem_readSpan]
  exact h.2 _ (Nat.mod_lt _ (Cfg.cap_pos _))

end Sys2Proof.Machine
end

