-- ==== Sys2Proof/Laws/Tokens.lean ====
section
/-! SUPPORT. Tokens and their bits: taking a token gives back the token put there, and a bit string's tokens one
after another. -/

namespace Sys2Proof.Machine

/-! ## One token -/

/-- A token's bits are the bits of the instruction it is (R95, R96). -/
theorem streamBits_instr (c : Cfg) (t : Token) : streamBits c t.instr = some (tokenBits c t) := by
  cases t <;> rfl

theorem tokenBits_ne_nil (c : Cfg) (t : Token) : tokenBits c t ≠ [] := by
  cases t <;> simp [tokenBits]

/-- Taking a token whose fields fit the configuration gives it back, and what follows it (R98). -/
theorem takeToken_tokenBits {c : Cfg} {t : Token} (h : t.instr.wf c = true) (rest : Bits) :
    takeToken c (tokenBits c t ++ rest) = some (t, rest) := by
  cases t with
  | literal v =>
    have hv : v.toNat < 2 ^ c.lb.toNat := by simpa [Token.instr, Instr.wf] using h
    simp [tokenBits, takeToken, takeField_fieldBits, Nat.mod_eq_of_lt hv, literalOfField]
  | reference pos n =>
    have hp : pos.toNat < 2 ^ c.wb.toNat ∧ n.toNat < 2 ^ c.sb.toNat := by
      simpa [Token.instr, Instr.wf] using h
    simp [tokenBits, takeToken, takeField_fieldBits, Nat.mod_eq_of_lt hp.1, Nat.mod_eq_of_lt hp.2,
      referenceOfFields]

/-- A token takes at least one bit. -/
theorem takeToken_length {c : Cfg} {bits rest : Bits} {t : Token} (h : takeToken c bits = some (t, rest)) :
    rest.length < bits.length := by
  unfold takeToken at h
  split at h
  · cases h
  · next bits =>
    by_cases hl : c.lb.toNat ≤ bits.length
    · rw [takeField_eq _ _ hl] at h
      cases h
      simp
    · rw [takeField_none _ _ (by omega)] at h
      cases h
  · next bits =>
    by_cases hl : c.wb.toNat ≤ bits.length
    · rw [takeField_eq _ _ hl] at h
      dsimp only at h
      by_cases hs : c.sb.toNat ≤ (bits.drop c.wb.toNat).length
      · rw [takeField_eq _ _ hs] at h
        cases h
        simp
      · rw [takeField_none _ _ (by omega)] at h
        cases h
    · rw [takeField_none _ _ (by omega)] at h
      cases h

/-- At most 7 zero bits hold no token, where a reference is at least 8 bits (R104). -/
theorem takeToken_pad {c : Cfg} {k : Nat} (hk : k ≤ 7) (hw : 7 ≤ c.wb.toNat) :
    takeToken c (List.replicate k false) = none := by
  cases k with
  | zero => rfl
  | succ k =>
    rw [List.replicate_succ, takeToken, takeField_none _ _ (by simp; omega)]

/-! ## All the tokens of a bit string -/

theorem tokensUpTo_fuel (c : Cfg) (k j : Nat) (bits : Bits) (hk : bits.length ≤ k) (hj : bits.length ≤ j) :
    tokensUpTo c k bits = tokensUpTo c j bits := by
  induction k generalizing j bits with
  | zero =>
    have : bits = [] := List.eq_nil_of_length_eq_zero (by omega)
    subst this
    cases j <;> rfl
  | succ k ih =>
    cases j with
    | zero =>
      have : bits = [] := List.eq_nil_of_length_eq_zero (by omega)
      subst this
      rfl
    | succ j =>
      rw [tokensUpTo, tokensUpTo]
      cases h : takeToken c bits with
      | none => rfl
      | some r =>
        obtain ⟨t, rest⟩ := r
        have := takeToken_length h
        simp only
        rw [ih j rest (by omega) (by omega)]

/-- The first token, then the tokens of the rest. -/
theorem tokensOf_cons {c : Cfg} {bits rest : Bits} {t : Token} (h : takeToken c bits = some (t, rest)) :
    tokensOf c bits = t :: tokensOf c rest := by
  have hl := takeToken_length h
  obtain ⟨k, hk⟩ : ∃ k, bits.length = k + 1 := ⟨bits.length - 1, by omega⟩
  unfold tokensOf
  rw [hk, tokensUpTo, h]
  simp only
  rw [tokensUpTo_fuel c k rest.length rest (by omega) (le_refl _)]

/-- No complete token: no tokens. -/
theorem tokensOf_nil {c : Cfg} {bits : Bits} (h : takeToken c bits = none) : tokensOf c bits = [] := by
  unfold tokensOf
  cases hb : bits.length with
  | zero => rfl
  | succ k => rw [tokensUpTo, h]

/-- Tokens written back to back are read back, and the tokens of what follows them (R90, R98). -/
theorem tokensOf_flatMap {c : Cfg} {ts : List Token} (h : ∀ t ∈ ts, t.instr.wf c = true) (rest : Bits) :
    tokensOf c (ts.flatMap (tokenBits c) ++ rest) = ts ++ tokensOf c rest := by
  induction ts with
  | nil => rfl
  | cons t ts ih =>
    rw [List.flatMap_cons, List.append_assoc,
      tokensOf_cons (takeToken_tokenBits (h t (List.mem_cons_self ..)) _),
      ih fun x hx => h x (List.mem_cons_of_mem _ hx)]
    rfl

/-! ## The bytes of tokens -/

@[simp] theorem expand_nil (c : Cfg) (w : Window) : expand c w [] = [] := rfl

@[simp] theorem expand_cons (c : Cfg) (w : Window) (t : Token) (ts : List Token) :
    expand c w (t :: ts) = tokenSpan c w t ++ expand c (Window.writeBytes c.cap w (tokenSpan c w t)) ts := rfl

/-- Tokens in two parts: the second part's spans are read in the window the first part leaves. -/
theorem expand_append (c : Cfg) (w : Window) (as bs : List Token) :
    expand c w (as ++ bs) = expand c w as ++ expand c (Window.writeBytes c.cap w (expand c w as)) bs := by
  induction as generalizing w with
  | nil => rfl
  | cons a as ih =>
    rw [List.cons_append, expand_cons, ih, expand_cons, List.append_assoc, Window.writeBytes_append]

/-- A token's span is not empty. -/
theorem tokenSpan_ne_nil (c : Cfg) (w : Window) (t : Token) : tokenSpan c w t ≠ [] := by
  cases t with
  | literal v => simp [tokenSpan]
  | reference pos n =>
    intro h
    have := congrArg List.length h
    have := Cfg.minLen_pos c
    simp [tokenSpan] at *
    omega

/-! ## Windows that agree below C -/

/-- Equal cursors, and equal bytes below c (R301). -/
def Window.agrees (c : Nat) (v w : Window) : Prop :=
  v.cur = w.cur ∧ ∀ i, i < c → Memory.read v.buf i = Memory.read w.buf i

theorem Window.agrees_writeBytes {c : Nat} {v w : Window} (hv : Memory.wf v.buf)
    (hw : Memory.wf w.buf) (h : Window.agrees c v w) (seq : List Byte) :
    Window.agrees c (Window.writeBytes c v seq) (Window.writeBytes c w seq) := by
  induction seq generalizing v w with
  | nil => exact h
  | cons b bs ih =>
    refine ih (Memory.wf_write hv _ _) (Memory.wf_write hw _ _) ⟨?_, fun i hi => ?_⟩
    · simp only [Window.writeByte, h.1]
    · rw [Window.writeByte_buf, Window.writeByte_buf, Memory.read_write hv, Memory.read_write hw, h.1, h.2 i hi]

theorem Window.agrees_readSpan {c : Nat} (hc : 0 < c) {v w : Window} (h : Window.agrees c v w) (pos len : Nat) :
    Window.readSpan c v pos len = Window.readSpan c w pos len := by
  simp only [Window.readSpan]
  refine List.map_congr_left fun k _ => h.2 _ (Nat.mod_lt _ hc)

/-- Two new windows agree (R372). -/
theorem Window.agrees_fresh (c : Nat) (v w : Window) : Window.agrees c (Window.fresh c v) (Window.fresh c w) := by
  refine ⟨rfl, fun i hi => ?_⟩
  rw [Window.fresh, Window.fresh, Memory.read_clearBelow, Memory.read_clearBelow, if_pos hi, if_pos hi]

/-- Tokens stand for the same bytes in windows that agree (R301). -/
theorem expand_agrees {cfg : Cfg} {v w : Window} (hv : Memory.wf v.buf) (hw : Memory.wf w.buf)
    (h : Window.agrees cfg.cap v w) (ts : List Token) : expand cfg v ts = expand cfg w ts := by
  induction ts generalizing v w with
  | nil => rfl
  | cons t ts ih =>
    have hs : tokenSpan cfg v t = tokenSpan cfg w t := by
      cases t with
      | literal b => rfl
      | reference pos n => exact Window.agrees_readSpan (Cfg.cap_pos cfg) h _ _
    rw [expand_cons, expand_cons, hs]
    congr 1
    exact ih (Window.wf_writeBytes hv _) (Window.wf_writeBytes hw _)
      (Window.agrees_writeBytes hv hw h _)

end Sys2Proof.Machine
end

