-- ==== Sys2Proof/Laws/Compressor.lean ====
section
/-! SUPPORT. What the compressor's operations can do: the match that is found, one token, a whole chunk, and the
three operations, each with an accepting sink and with any sink. -/

namespace Sys2Proof.Machine

/-! ## FindMatch -/

/-- The loop of FindMatch, from a length whose predecessor (if it is not the first) was found at start. -/
theorem searchLengths_spec {c : Nat} {w : Window} {rest : List Byte} (k len start best idx : Nat) (h1 : 1 ≤ len)
    (hs : ∀ j, j < start → ¬ occursAt c w (rest.take len) j)
    (hb : best = 0 ∨ best + 1 = len ∧ best ≤ rest.length ∧ idx = start ∧ occursAt c w (rest.take best) idx ∧
      ∀ j, j < idx → ¬ occursAt c w (rest.take best) j) :
    ∀ b i, searchLengths c w rest k len start best idx = (b, i) →
      ((b = best ∧ i = idx) ∨ len ≤ b ∧ b < len + k ∧ b ≤ rest.length ∧ occursAt c w (rest.take b) i ∧
        ∀ j, j < i → ¬ occursAt c w (rest.take b) j) ∧
      ∀ l, b < l → len ≤ l → l < len + k → l ≤ rest.length → ∀ j, ¬ occursAt c w (rest.take l) j := by
  induction k generalizing len start best idx with
  | zero =>
    intro b i h
    rw [searchLengths] at h
    cases h
    exact ⟨.inl ⟨rfl, rfl⟩, fun l _ h2 h3 => by omega⟩
  | succ k ih =>
    intro b i h
    rw [searchLengths] at h
    split at h
    · next hlt =>
      cases h
      exact ⟨.inl ⟨rfl, rfl⟩, fun l _ h2 _ h4 => by omega⟩
    · next hge =>
      have hpne : rest.take len ≠ [] := by
        intro hnil
        have := congrArg List.length hnil
        rw [List.length_take, List.length_nil] at this
        omega
      split at h
      · next hn =>
        cases h
        refine ⟨.inl ⟨rfl, rfl⟩, fun l _ h2 _ h4 j ho => ?_⟩
        have ho' := occursAt_take ho len
        rw [List.take_take, Nat.min_eq_left h2] at ho'
        by_cases hj : j < start
        · exact hs j hj ho'
        · exact Window.search_none hn j (by omega) ho'
      · next r hr =>
        obtain ⟨hsr, hor, hmin⟩ := Window.search_some hpne hr
        have hminall : ∀ j, j < r → ¬ occursAt c w (rest.take len) j := by
          intro j hj
          by_cases hjs : j < start
          · exact hs j hjs
          · exact hmin j (by omega) hj
        obtain ⟨hfound, habove⟩ := ih (len + 1) r len r (by omega)
          (fun j hj ho => hminall j hj (by
            have := occursAt_take ho len
            rwa [List.take_take, Nat.min_eq_left (by omega)] at this))
          (.inr ⟨rfl, by omega, rfl, hor, hminall⟩) b i h
        refine ⟨.inr ?_, fun l h2 h3 h4 h5 => ?_⟩
        · rcases hfound with ⟨rfl, rfl⟩ | ⟨h2, h3, h4, h5, h6⟩
          · exact ⟨le_refl _, by omega, by omega, hor, hminall⟩
          · exact ⟨by omega, by omega, h4, h5, h6⟩
        · by_cases hl : l = len
          · subst hl
            rcases hfound with ⟨rfl, rfl⟩ | ⟨h6, -⟩
            · omega
            · omega
          · exact habove l h2 (by omega) (by omega) h5

/-- FindMatch without a loop: the greatest length that occurs, with its least index, or 0 (R229). -/
theorem findMatch_spec {cfg : Cfg} {w : Window} {rest : List Byte} {b i : Nat}
    (h : findMatch cfg w rest = (b, i)) :
    (b = 0 ∨ cfg.minLen ≤ b ∧ b ≤ cfg.maxLen ∧ b ≤ rest.length ∧ occursAt cfg.cap w (rest.take b) i ∧
      ∀ j, j < i → ¬ occursAt cfg.cap w (rest.take b) j) ∧
    ∀ l, b < l → cfg.minLen ≤ l → l ≤ cfg.maxLen → l ≤ rest.length →
      ∀ j, ¬ occursAt cfg.cap w (rest.take l) j := by
  have hmin := Cfg.minLen_pos cfg
  have hmax := Cfg.maxLen_add cfg
  have hpos : 0 < 2 ^ cfg.sb.toNat := by positivity
  obtain ⟨hfound, habove⟩ := searchLengths_spec (cfg.maxLen + 1 - cfg.minLen) cfg.minLen 0 0 0 hmin
    (fun j hj => by omega) (.inl rfl) b i h
  refine ⟨?_, fun l h1 h2 h3 h4 => habove l h1 h2 (by omega) h4⟩
  rcases hfound with ⟨rfl, -⟩ | ⟨h1, h2, h3, h4, h5⟩
  · exact .inl rfl
  · exact .inr ⟨h1, by omega, h3, h4, h5⟩

/-- A found match lies wholly in the linear buffer (R227). -/
theorem findMatch_index {cfg : Cfg} {w : Window} {rest : List Byte} {b i : Nat}
    (h : findMatch cfg w rest = (b, i)) (hb : cfg.minLen ≤ b) :
    b ≤ cfg.maxLen ∧ b ≤ rest.length ∧ occursAt cfg.cap w (rest.take b) i ∧ i < cfg.cap := by
  have hmin := Cfg.minLen_pos cfg
  rcases (findMatch_spec h).1 with h0 | ⟨_, h2, h3, h4, -⟩
  · omega
  · refine ⟨h2, h3, h4, ?_⟩
    have := h4.1
    rw [List.length_take, Nat.min_eq_left h3] at this
    omega

/-! ## The state of the engine between tokens -/

/-- The state with another sink, Bit Writer and compressor window: all that compressing changes. -/
abbrev State.setOut (s : State) (k : Sink) (bw : BitWriter) (w : Window) : State :=
  { s with sink := k, cmp := { s.cmp with bw := bw, win := w } }

/-- Several writes in a row, all accepted: their fields' bits follow one another (R130). -/
theorem writtenBits_step {s : State} {value n : Nat} (hf : s.cmp.bw.flushed = false) (hn : n ≤ Config.nMax)
    (h : s.sink.acceptsAll) :
    ∃ (k : Sink) (bw : BitWriter), k.acceptsAll ∧ bw.flushed = false ∧
      bytesBits k.taken ++ bw.bits = s.writtenBits ++ fieldBits n value ∧
      bw.nbits.toNat = (s.cmp.bw.nbits.toNat + n) % 8 ∧
      bwWrite value n s = .ok () (s.setOut k bw s.cmp.win) := by
  obtain ⟨bytes, bw, -, hbits, hnb, -, hfl, hw⟩ := bwWrite_accepts (value := value) hf hn
    (Sink.acceptsNext_of_all h _)
  refine ⟨_, bw, ?_, hfl, ?_, hnb, hw⟩
  · intro a ha
    exact h a (List.mem_of_mem_drop ha)
  · rw [bytesBits_append, List.append_assoc, ← hbits, State.writtenBits, List.append_assoc]

theorem nMax_wb (cfg : Cfg) : cfg.wb.toNat ≤ Config.nMax := by
  have := cfg.wb.isLt
  simp only [Config.nMax]
  omega

theorem nMax_sb (cfg : Cfg) : cfg.sb.toNat ≤ Config.nMax := by
  have := cfg.sb.isLt
  simp only [Config.nMax]
  omega

theorem nMax_lb (cfg : Cfg) : cfg.lb.toNat ≤ Config.nMax := by
  have := cfg.lb.isLt
  simp only [Config.nMax]
  omega

/-! ## One token, the sink accepting -/

/-- EmitReference writes the bits of the reference token (R227, R96). -/
theorem emitReference_accepts {s : State} (idx len : Nat) (hf : s.cmp.bw.flushed = false) (h : s.sink.acceptsAll)
    (hi : idx < s.cmp.cfg.cap) (hl : len - s.cmp.cfg.minLen < 2 ^ s.cmp.cfg.sb.toNat) :
    ∃ (k : Sink) (bw : BitWriter), k.acceptsAll ∧ bw.flushed = false ∧
      bytesBits k.taken ++ bw.bits = s.writtenBits ++
        tokenBits s.cmp.cfg (referenceOfFields idx (len - s.cmp.cfg.minLen)) ∧
      emitReference idx len s = .ok () (s.setOut k bw s.cmp.win) := by
  obtain ⟨k1, bw1, hk1, hf1, hb1, -, hw1⟩ := writtenBits_step (s := s) (value := 0) (n := 1) hf (by decide) h
  obtain ⟨k2, bw2, hk2, hf2, hb2, -, hw2⟩ := writtenBits_step (s := s.setOut k1 bw1 s.cmp.win) (value := idx)
    (n := s.cmp.cfg.wb.toNat) hf1 (nMax_wb _) hk1
  obtain ⟨k3, bw3, hk3, hf3, hb3, -, hw3⟩ := writtenBits_step (s := s.setOut k2 bw2 s.cmp.win)
    (value := len - s.cmp.cfg.minLen) (n := s.cmp.cfg.sb.toNat) hf2 (nMax_sb _) hk2
  refine ⟨k3, bw3, hk3, hf3, ?_, ?_⟩
  · have e2 : (s.setOut k2 bw2 s.cmp.win).writtenBits = bytesBits k2.taken ++ bw2.bits := rfl
    have e1 : (s.setOut k1 bw1 s.cmp.win).writtenBits = bytesBits k1.taken ++ bw1.bits := rfl
    rw [hb3, e2, hb2, e1, hb1]
    have hidx : idx % 2 ^ 15 = idx := Nat.mod_eq_of_lt (Nat.lt_of_lt_of_le hi (Cfg.cap_le _))
    have hsb : 2 ^ s.cmp.cfg.sb.toNat ≤ 2 ^ 7 :=
      Nat.pow_le_pow_right (by omega) (by have := s.cmp.cfg.sb.isLt; omega)
    have hlen : (len - s.cmp.cfg.minLen) % 2 ^ 7 = len - s.cmp.cfg.minLen := Nat.mod_eq_of_lt (by omega)
    simp only [referenceOfFields, tokenBits, BitVec.toNat_ofNat, hidx, hlen]
    simp [fieldBits, List.append_assoc]
  · unfold emitReference
    rw [hw1, bind_ok]
    show (bwWrite idx s.cmp.cfg.wb.toNat (s.setOut k1 bw1 s.cmp.win)).bind _ = _
    rw [hw2, bind_ok]
    exact hw3

/-- EmitLiteral writes the bits of the literal token (R228, R95). -/
theorem emitLiteral_accepts {s : State} (b : Byte) (ipos : Nat) (hf : s.cmp.bw.flushed = false)
    (h : s.sink.acceptsAll) (hb : b.toNat < 2 ^ s.cmp.cfg.lb.toNat) :
    ∃ (k : Sink) (bw : BitWriter), k.acceptsAll ∧ bw.flushed = false ∧
      bytesBits k.taken ++ bw.bits = s.writtenBits ++ tokenBits s.cmp.cfg (.literal b) ∧
      emitLiteral b ipos s = .ok () (s.setOut k bw s.cmp.win) := by
  obtain ⟨k1, bw1, hk1, hf1, hb1, -, hw1⟩ := writtenBits_step (s := s) (value := 1) (n := 1) hf (by decide) h
  obtain ⟨k2, bw2, hk2, hf2, hb2, -, hw2⟩ := writtenBits_step (s := s.setOut k1 bw1 s.cmp.win) (value := b.toNat)
    (n := s.cmp.cfg.lb.toNat) hf1 (nMax_lb _) hk1
  refine ⟨k2, bw2, hk2, hf2, ?_, ?_⟩
  · have e1 : (s.setOut k1 bw1 s.cmp.win).writtenBits = bytesBits k1.taken ++ bw1.bits := rfl
    rw [hb2, e1, hb1]
    simp [tokenBits, fieldBits, List.append_assoc]
  · unfold emitLiteral
    rw [if_neg (by omega), hw1, bind_ok]
    exact hw2

/-- A byte that does not fit LB bits: nothing of it is written (R228, R235). -/
theorem emitLiteral_excess {s : State} (b : Byte) (ipos : Nat) (hb : 2 ^ s.cmp.cfg.lb.toNat ≤ b.toNat) :
    emitLiteral b ipos s = .fault (.excessBits b ipos) (enterFault (.excessBits b ipos) s) := by
  unfold emitLiteral
  rw [if_pos hb]

/-- One token of a chunk whose first byte fits: its bits are written, it stands for the bytes it covers, and those
bytes go to the window (R223 to R227, R301). -/
theorem emitToken_accepts {s : State} (b : Byte) (bs : List Byte) (ipos : Nat) (hf : s.cmp.bw.flushed = false)
    (h : s.sink.acceptsAll) (hb : b.toNat < 2 ^ s.cmp.cfg.lb.toNat) {t : Token} {n : Nat}
    (ht : chosenToken s.cmp.cfg s.cmp.win b bs = (t, n)) :
    ∃ (k : Sink) (bw : BitWriter), k.acceptsAll ∧ bw.flushed = false ∧
      t.instr.wf s.cmp.cfg = true ∧ 1 ≤ n ∧ n ≤ (b :: bs).length ∧
      tokenSpan s.cmp.cfg s.cmp.win t = (b :: bs).take n ∧
      bytesBits k.taken ++ bw.bits = s.writtenBits ++ tokenBits s.cmp.cfg t ∧
      emitToken (b :: bs) ipos s =
        .ok n (s.setOut k bw (Window.writeBytes s.cmp.cfg.cap s.cmp.win ((b :: bs).take n))) := by
  have hmin := Cfg.minLen_pos s.cmp.cfg
  have hmax := Cfg.maxLen_add s.cmp.cfg
  unfold emitToken
  unfold chosenToken at ht
  cases hm : findMatch s.cmp.cfg s.cmp.win (b :: bs) with
  | mk best idx =>
    simp only [hm] at ht ⊢
    by_cases hbest : s.cmp.cfg.minLen ≤ best
    · rw [if_pos hbest] at ht
      cases ht
      obtain ⟨hle, hlen, hocc, hidx⟩ := findMatch_index hm hbest
      have hfit : n - s.cmp.cfg.minLen < 2 ^ s.cmp.cfg.sb.toNat := by omega
      obtain ⟨k, bw, hk, hfl, hbits, he⟩ := emitReference_accepts idx n hf h hidx hfit
      have hidx' : idx % 2 ^ 15 = idx := Nat.mod_eq_of_lt (Nat.lt_of_lt_of_le hidx (Cfg.cap_le _))
      have hsb : 2 ^ s.cmp.cfg.sb.toNat ≤ 2 ^ 7 :=
        Nat.pow_le_pow_right (by omega) (by have := s.cmp.cfg.sb.isLt; omega)
      have hn' : (n - s.cmp.cfg.minLen) % 2 ^ 7 = n - s.cmp.cfg.minLen := Nat.mod_eq_of_lt (by omega)
      refine ⟨k, bw, hk, hfl, ?_, by omega, hlen, ?_, hbits, ?_⟩
      · simp only [referenceOfFields, Token.instr, Instr.wf, BitVec.toNat_ofNat, hidx', hn', Bool.and_eq_true,
          decide_eq_true_eq]
        exact ⟨hidx, hfit⟩
      · simp only [referenceOfFields, tokenSpan, BitVec.toNat_ofNat, hidx', hn']
        rw [Nat.sub_add_cancel hbest]
        have := Window.readSpan_of_occursAt hocc
        rwa [List.length_take, Nat.min_eq_left hlen] at this
      · rw [if_pos hbest, he]
        rfl
    · rw [if_neg hbest] at ht
      cases ht
      obtain ⟨k, bw, hk, hfl, hbits, he⟩ := emitLiteral_accepts b ipos hf h hb
      refine ⟨k, bw, hk, hfl, ?_, le_refl _, by simp, rfl, hbits, ?_⟩
      · simpa [Token.instr, Instr.wf] using hb
      · rw [if_neg hbest, he]
        rfl

/-! ## A chunk, the sink accepting -/

/-- CMP.COMPRESS of bytes that all fit: the greedy parse's tokens are written, they stand for the chunk, and the
chunk goes to the window (R223, R225, R236, R301). -/
theorem compressLoop_accepts (fuel : Nat) (data : List Byte) (ipos : Nat) (s : State) (hfuel : data.length ≤ fuel)
    (hf : s.cmp.bw.flushed = false) (h : s.sink.acceptsAll) (hn : narrow s.cmp.cfg data) :
    ∃ (k : Sink) (bw : BitWriter), k.acceptsAll ∧ bw.flushed = false ∧
      (∀ t ∈ greedyUpTo s.cmp.cfg fuel s.cmp.win data, t.instr.wf s.cmp.cfg = true) ∧
      expand s.cmp.cfg s.cmp.win (greedyUpTo s.cmp.cfg fuel s.cmp.win data) = data ∧
      bytesBits k.taken ++ bw.bits =
        s.writtenBits ++ (greedyUpTo s.cmp.cfg fuel s.cmp.win data).flatMap (tokenBits s.cmp.cfg) ∧
      compressLoop fuel data ipos s =
        .ok () (s.setOut k bw (Window.writeBytes s.cmp.cfg.cap s.cmp.win data)) := by
  induction fuel generalizing data ipos s with
  | zero =>
    have : data = [] := List.eq_nil_of_length_eq_zero (by omega)
    subst this
    exact ⟨s.sink, s.cmp.bw, h, hf, by simp [greedyUpTo], rfl, by simp [greedyUpTo, State.writtenBits], rfl⟩
  | succ fuel ih =>
    cases data with
    | nil => exact ⟨s.sink, s.cmp.bw, h, hf, by simp [greedyUpTo], rfl, by simp [greedyUpTo, State.writtenBits], rfl⟩
    | cons b bs =>
      cases ht : chosenToken s.cmp.cfg s.cmp.win b bs with
      | mk t n =>
        obtain ⟨k, bw, hk, hfl, hwf, hn1, hnle, hspan, hbits, he⟩ :=
          emitToken_accepts b bs ipos hf h (hn b (List.mem_cons_self ..)) ht
        obtain ⟨k', bw', hk', hfl', hwf', hexp, hbits', hloop⟩ := ih ((b :: bs).drop n) (ipos + n)
          (s.setOut k bw (Window.writeBytes s.cmp.cfg.cap s.cmp.win ((b :: bs).take n)))
          (by rw [List.length_drop]; omega) hfl hk fun x hx => hn x (List.mem_of_mem_drop hx)
        simp only [greedyUpTo, ht]
        refine ⟨k', bw', hk', hfl', ?_, ?_, ?_, ?_⟩
        · intro x hx
          rcases List.mem_cons.mp hx with rfl | hx
          · exact hwf
          · exact hwf' x hx
        · rw [expand_cons, hspan]
          exact (congrArg _ hexp).trans (List.take_append_drop n (b :: bs))
        · rw [hbits', List.flatMap_cons, ← List.append_assoc, ← hbits]
          rfl
        · rw [compressLoop, he, bind_ok, hloop]
          have : Window.writeBytes s.cmp.cfg.cap s.cmp.win (b :: bs) =
              Window.writeBytes s.cmp.cfg.cap
                (Window.writeBytes s.cmp.cfg.cap s.cmp.win ((b :: bs).take n)) ((b :: bs).drop n) := by
            rw [← Window.writeBytes_append, List.take_append_drop]
          rw [this]

/-! ## Any sink -/

/-- Whatever the sink answers: EmitReference and EmitLiteral leave the window, and end in one of these ways. -/
theorem bwWrite_out (value n : Nat) (s : State) (hf : s.cmp.bw.flushed = false) (hn : n ≤ Config.nMax) :
    (∃ k bw, bw.flushed = false ∧ bw.inv ∧ bwWrite value n s = .ok () (s.setOut k bw s.cmp.win)) ∨
      ∃ k, bwWrite value n s = .fault .sinkError (enterFault .sinkError (s.setSink k)) := by
  obtain ⟨k, bw, hb, hi, h⟩ | ⟨k, h⟩ | ⟨r, -, h | h⟩ := bwWrite_cases value n s
  · exact .inl ⟨k, bw, hb, hi, h⟩
  · exact .inr ⟨k, h⟩
  · rw [hf] at h
    cases h
  · omega

/-- SinkError's state does not depend on the registers it replaces (R336). -/
theorem enterFault_sink_setOut (s : State) (k : Sink) (bw : BitWriter) (w : Window) :
    enterFault .sinkError (s.setOut k bw w) = enterFault .sinkError (s.setSink k) := rfl

theorem emitReference_cases (idx len : Nat) (s : State) (hf : s.cmp.bw.flushed = false) :
    (∃ k bw, bw.flushed = false ∧ bw.inv ∧ emitReference idx len s = .ok () (s.setOut k bw s.cmp.win)) ∨
      ∃ k, emitReference idx len s = .fault .sinkError (enterFault .sinkError (s.setSink k)) := by
  unfold emitReference
  obtain ⟨k1, bw1, hf1, hi1, h1⟩ | ⟨k1, h1⟩ := bwWrite_out 0 1 s hf (by decide)
  · rw [h1, bind_ok]
    obtain ⟨k2, bw2, hf2, hi2, h2⟩ | ⟨k2, h2⟩ :=
      bwWrite_out idx s.cmp.cfg.wb.toNat (s.setOut k1 bw1 s.cmp.win) hf1 (nMax_wb _)
    · rw [h2, bind_ok]
      obtain ⟨k3, bw3, hf3, hi3, h3⟩ | ⟨k3, h3⟩ :=
        bwWrite_out (len - s.cmp.cfg.minLen) s.cmp.cfg.sb.toNat (s.setOut k2 bw2 s.cmp.win) hf2 (nMax_sb _)
      · exact .inl ⟨k3, bw3, hf3, hi3, h3⟩
      · exact .inr ⟨k3, h3⟩
    · rw [h2]
      exact .inr ⟨k2, rfl⟩
  · rw [h1]
    exact .inr ⟨k1, rfl⟩

theorem emitLiteral_cases (b : Byte) (ipos : Nat) (s : State) (hf : s.cmp.bw.flushed = false)
    (hb : b.toNat < 2 ^ s.cmp.cfg.lb.toNat) :
    (∃ k bw, bw.flushed = false ∧ bw.inv ∧ emitLiteral b ipos s = .ok () (s.setOut k bw s.cmp.win)) ∨
      ∃ k, emitLiteral b ipos s = .fault .sinkError (enterFault .sinkError (s.setSink k)) := by
  unfold emitLiteral
  rw [if_neg (by omega)]
  obtain ⟨k1, bw1, hf1, hi1, h1⟩ | ⟨k1, h1⟩ := bwWrite_out 1 1 s hf (by decide)
  · rw [h1, bind_ok]
    obtain ⟨k2, bw2, hf2, hi2, h2⟩ | ⟨k2, h2⟩ :=
      bwWrite_out b.toNat s.cmp.cfg.lb.toNat (s.setOut k1 bw1 s.cmp.win) hf1 (nMax_lb _)
    · exact .inl ⟨k2, bw2, hf2, hi2, h2⟩
    · exact .inr ⟨k2, h2⟩
  · rw [h1]
    exact .inr ⟨k1, rfl⟩

/-- A byte of the window is narrow; so a match holds only narrow bytes (R236). -/
theorem narrow_of_occursAt {cfg : Cfg} {w : Window} (hw : w.inv cfg) {pattern : List Byte} {i : Nat}
    (h : occursAt cfg.cap w pattern i) : narrow cfg pattern := by
  intro b hb
  obtain ⟨k, hk, rfl⟩ := List.getElem_of_mem hb
  rw [← h.2 k hk]
  exact hw.2 _ (by have := h.1; omega)

/-- One token, whatever the sink answers: it covers a narrow piece of the chunk that goes to the window; or the
first byte does not fit; or SinkError. -/
theorem emitToken_cases (b : Byte) (bs : List Byte) (ipos : Nat) (s : State) (hf : s.cmp.bw.flushed = false)
    (hw : s.cmp.win.inv s.cmp.cfg) :
    (∃ k bw n, bw.flushed = false ∧ bw.inv ∧ 1 ≤ n ∧ n ≤ (b :: bs).length ∧ narrow s.cmp.cfg ((b :: bs).take n) ∧
        emitToken (b :: bs) ipos s =
          .ok n (s.setOut k bw (Window.writeBytes s.cmp.cfg.cap s.cmp.win ((b :: bs).take n)))) ∨
      (2 ^ s.cmp.cfg.lb.toNat ≤ b.toNat ∧
        emitToken (b :: bs) ipos s = .fault (.excessBits b ipos) (enterFault (.excessBits b ipos) s)) ∨
      ∃ k, emitToken (b :: bs) ipos s = .fault .sinkError (enterFault .sinkError (s.setSink k)) := by
  have hmin := Cfg.minLen_pos s.cmp.cfg
  unfold emitToken
  cases hm : findMatch s.cmp.cfg s.cmp.win (b :: bs) with
  | mk best idx =>
    simp only [hm]
    by_cases hbest : s.cmp.cfg.minLen ≤ best
    · rw [if_pos hbest]
      obtain ⟨hle, hlen, hocc, hidx⟩ := findMatch_index hm hbest
      obtain ⟨k, bw, hfl, hi, he⟩ | ⟨k, he⟩ := emitReference_cases idx best s hf
      · rw [he]
        exact .inl ⟨k, bw, best, hfl, hi, by omega, hlen, narrow_of_occursAt hw hocc, rfl⟩
      · rw [he]
        exact .inr (.inr ⟨k, rfl⟩)
    · rw [if_neg hbest]
      by_cases hb : 2 ^ s.cmp.cfg.lb.toNat ≤ b.toNat
      · rw [emitLiteral_excess b ipos hb]
        exact .inr (.inl ⟨hb, rfl⟩)
      · obtain ⟨k, bw, hfl, hi, he⟩ | ⟨k, he⟩ := emitLiteral_cases b ipos s hf (by omega)
        · rw [he]
          refine .inl ⟨k, bw, 1, hfl, hi, le_refl _, by simp, ?_, rfl⟩
          intro x hx
          have : x = b := by simpa using hx
          subst this
          omega
        · rw [he]
          exact .inr (.inr ⟨k, rfl⟩)

/-- A chunk, whatever the sink answers (R223, R235, R236, R336). -/
theorem compressLoop_cases (fuel : Nat) (data : List Byte) (ipos : Nat) (s : State) (hfuel : data.length ≤ fuel)
    (hf : s.cmp.bw.flushed = false) (hbi : s.cmp.bw.inv) (hm : Memory.wf s.cmp.win.buf)
    (hw : s.cmp.win.inv s.cmp.cfg) :
    (∃ k bw, bw.flushed = false ∧ bw.inv ∧ narrow s.cmp.cfg data ∧
        compressLoop fuel data ipos s =
          .ok () (s.setOut k bw (Window.writeBytes s.cmp.cfg.cap s.cmp.win data))) ∨
      (∃ done b rest k bw, data = done ++ b :: rest ∧ narrow s.cmp.cfg done ∧ 2 ^ s.cmp.cfg.lb.toNat ≤ b.toNat ∧
        bw.flushed = false ∧ bw.inv ∧
        compressLoop fuel data ipos s = .fault (.excessBits b (ipos + done.length))
          (enterFault (.excessBits b (ipos + done.length))
            (s.setOut k bw (Window.writeBytes s.cmp.cfg.cap s.cmp.win done)))) ∨
      ∃ k, compressLoop fuel data ipos s = .fault .sinkError (enterFault .sinkError (s.setSink k)) := by
  induction fuel generalizing data ipos s with
  | zero =>
    have : data = [] := List.eq_nil_of_length_eq_zero (by omega)
    subst this
    exact .inl ⟨s.sink, s.cmp.bw, hf, hbi, fun b hb => by simp at hb, rfl⟩
  | succ fuel ih =>
    cases data with
    | nil => exact .inl ⟨s.sink, s.cmp.bw, hf, hbi, fun b hb => by simp at hb, rfl⟩
    | cons b bs =>
      rw [compressLoop]
      obtain ⟨k, bw, n, hfl, hi, hn1, hnle, hnar, he⟩ | ⟨hb, he⟩ | ⟨k, he⟩ := emitToken_cases b bs ipos s hf hw
      · rw [he, bind_ok]
        have hsplit := List.take_append_drop n (b :: bs)
        obtain ⟨k', bw', hfl', hi', hnar', h⟩ | ⟨done, x, rest, k', bw', hd, hnar', hx, hfl', hi', h⟩ | ⟨k', h⟩ :=
          ih ((b :: bs).drop n) (ipos + n)
            (s.setOut k bw (Window.writeBytes s.cmp.cfg.cap s.cmp.win ((b :: bs).take n)))
            (by rw [List.length_drop]; omega) hfl hi (Window.wf_writeBytes hm _) (Window.narrow_writeBytes hm hw hnar)
        · refine .inl ⟨k', bw', hfl', hi', ?_, ?_⟩
          · intro y hy
            rw [← hsplit] at hy
            rcases List.mem_append.mp hy with hy | hy
            · exact hnar y hy
            · exact hnar' y hy
          · rw [h]
            conv_rhs => rw [← hsplit, Window.writeBytes_append]
        · refine .inr (.inl ⟨(b :: bs).take n ++ done, x, rest, k', bw', ?_, ?_, hx, hfl', hi', ?_⟩)
          · rw [List.append_assoc, ← hd, hsplit]
          · intro y hy
            rcases List.mem_append.mp hy with hy | hy
            · exact hnar y hy
            · exact hnar' y hy
          · have hlen : ((b :: bs).take n).length = n := by rw [List.length_take]; omega
            rw [h, Window.writeBytes_append, List.length_append, hlen, Nat.add_assoc]
        · exact .inr (.inr ⟨k', h⟩)
      · rw [he]
        exact .inr (.inl ⟨[], b, bs, s.sink, s.cmp.bw, rfl, fun y hy => by simp at hy, hb, hf, hbi, rfl⟩)
      · rw [he]
        exact .inr (.inr ⟨k, rfl⟩)

/-! ## CMP.INIT and CMP.FLUSH -/

/-- An empty Bit Writer passes a byte straight through (R93). -/
theorem bwWrite_byte (h : Byte) (s : State)
    (hb : s.cmp.bw = { acc := 0#7, nbits := 0#3, flushed := false }) :
    bwWrite h.toNat 8 s = sinkPut h s := by
  have hlt : h.toNat < 256 := h.isLt
  have e0 : putBytes 1 (0 * 2 ^ 8 + h.toNat % 2 ^ 8) 8 s =
      (sinkPut h s).bind fun _ u => .ok () (u.setBw { u.cmp.bw with acc := 0#7, nbits := 0#3 }) := by
    rw [putBytes]
    have e1 : (0 * 2 ^ 8 + h.toNat % 2 ^ 8) >>> (8 - 8) % 256 = h.toNat := by
      simp only [Nat.zero_mul, Nat.zero_add, Nat.sub_self, Nat.shiftRight_zero]
      omega
    rw [e1, BitVec.ofNat_toNat, BitVec.setWidth_eq]
    congr 1
    funext _ u
    rw [putBytes]
    simp [Nat.mod_one]
  have e2 : bwWrite h.toNat 8 s = putBytes 1 (0 * 2 ^ 8 + h.toNat % 2 ^ 8) 8 s := by
    unfold bwWrite
    rw [hb]
    rfl
  rw [e2, e0]
  obtain ⟨k, hk, -⟩ | ⟨k, hk, -⟩ := sinkPut_cases h s
  · rw [hk, bind_ok]
    have : (s.setSink k).setBw { (s.setSink k).cmp.bw with acc := 0#7, nbits := 0#3 } = s.setSink k := by
      obtain ⟨⟨bw, win, cfg, st, ft⟩, dec, sink, source, pull, pending, resp, fc⟩ := s
      cases hb
      rfl
    rw [this]
  · rw [hk]
    rfl

/-- CMP.INIT with an illegal configuration (R221). -/
theorem initCompressor_illegal {wb sb lb : Nat} (h : configLegal wb sb lb = false) (s : State) :
    initCompressor wb sb lb s = .fault (.invalidConfig wb sb lb) (enterFault (.invalidConfig wb sb lb) s) := by
  simp [initCompressor, hdrEncode, h]

/-- CMP.INIT with a legal one: the new engine, its header byte handed to the sink (R222). -/
theorem initCompressor_legal {wb sb lb : Nat} (h : configLegal wb sb lb = true) (s : State) :
    initCompressor wb sb lb s =
      (sinkPut (headerByte wb sb lb) { s with cmp := s.cmp.init (Cfg.ofNats wb sb lb) }).bind fun _ u =>
        .ok () { u with cmp := { u.cmp with state := .active } } := by
  have e := bwWrite_byte (headerByte wb sb lb) { s with cmp := s.cmp.init (Cfg.ofNats wb sb lb) } rfl
  unfold initCompressor
  simp only [hdrEncode, h, if_true]
  rw [e]

/-- CMP.INIT, whatever the sink answers. -/
theorem initCompressor_cases (wb sb lb : Nat) (s : State) :
    (configLegal wb sb lb = false ∧
      initCompressor wb sb lb s = .fault (.invalidConfig wb sb lb) (enterFault (.invalidConfig wb sb lb) s)) ∨
    (configLegal wb sb lb = true ∧ ∃ k, initCompressor wb sb lb s =
      .ok () { s with cmp := { s.cmp.init (Cfg.ofNats wb sb lb) with state := .active }, sink := k }) ∨
    ∃ k, initCompressor wb sb lb s = .fault .sinkError (enterFault .sinkError (s.setSink k)) := by
  cases h : configLegal wb sb lb with
  | false => exact .inl ⟨rfl, initCompressor_illegal h s⟩
  | true =>
    rw [initCompressor_legal h]
    obtain ⟨k, hk, -⟩ | ⟨k, hk, -⟩ :=
      sinkPut_cases (headerByte wb sb lb) { s with cmp := s.cmp.init (Cfg.ofNats wb sb lb) }
    · rw [hk]
      exact .inr (.inl ⟨rfl, k, rfl⟩)
    · rw [hk]
      exact .inr (.inr ⟨k, rfl⟩)

/-- CMP.FLUSH, whatever the sink answers (R232, R233). -/
theorem flushCompressor_cases (s : State) :
    (s.cmp.state = .active ∧ ∃ k, flushCompressor s =
      .ok () { s.setSink k with
        cmp := { s.cmp with bw := { acc := 0#7, nbits := 0#3, flushed := true }, state := .flushed } }) ∨
    (s.cmp.state = .active ∧ ∃ k, flushCompressor s = .fault .sinkError (enterFault .sinkError (s.setSink k))) ∨
    (flushCompressor s = .refused .badState ∧ s.cmp.state ≠ .active) ∨
    (flushCompressor s = .refused .useAfterFlush ∧ s.cmp.state = .active ∧ s.cmp.bw.flushed = true) := by
  unfold flushCompressor
  by_cases ha : s.cmp.state = .active
  · rw [if_pos ha]
    obtain ⟨k, hk⟩ | ⟨k, hk⟩ | ⟨hk, hf⟩ := bwFlush_cases s
    · rw [hk]
      exact .inl ⟨ha, k, rfl⟩
    · rw [hk]
      exact .inr (.inl ⟨ha, k, rfl⟩)
    · rw [hk]
      exact .inr (.inr (.inr ⟨rfl, ha, hf⟩))
  · rw [if_neg ha]
    exact .inr (.inr (.inl ⟨rfl, ha⟩))

end Sys2Proof.Machine
end

