-- ==== Sys2Proof/Laws/Decompressor.lean ====
section
/-! SUPPORT. What the decompressor's operations can do: fetching a token, one token, one step of a
DEC.DECOMPRESS, and the whole operation, over a source that ends cleanly and over any source. -/

namespace Sys2Proof.Machine

/-- The state with another source and Bit Reader: all that reading changes. -/
abbrev State.setIn (s : State) (src : Source) (br : BitReader) : State :=
  { s with source := src, dec := { s.dec with br := br } }

theorem lb_le (cfg : Cfg) : cfg.lb.toNat ≤ Config.nMax := by
  have := cfg.lb.isLt
  simp only [Config.nMax]
  omega

theorem wb_le (cfg : Cfg) : cfg.wb.toNat ≤ Config.nMax := by
  have := cfg.wb.isLt
  simp only [Config.nMax]
  omega

theorem sb_le (cfg : Cfg) : cfg.sb.toNat ≤ Config.nMax := by
  have := cfg.sb.isLt
  simp only [Config.nMax]
  omega

/-! ## BR.READ by the stream -/

/-- A source that ends cleanly still does after it has delivered some bytes. -/
theorem Source.endsCleanly_drop {src : Source} (h : src.endsCleanly) (k d : Nat)
    (hk : k ≤ (leadingBytes src.answers).length) :
    Source.endsCleanly { answers := src.answers.drop k, delivered := d } := by
  intro a ha
  rw [leadingBytes_drop _ _ hk, List.length_drop, List.getElem?_drop] at ha
  apply h a
  rw [← ha]
  congr 1
  omega

/-- BR.READ where the bits are there: they are the value, and the rest of the stream is left. -/
theorem brRead_take {n : Nat} {s : State} (he : s.dec.br.eos = false) (hn : n ≤ Config.nMax)
    (h : n ≤ s.unreadBits.length) :
    ∃ src br, br.eos = false ∧ (s.setIn src br).unreadBits = s.unreadBits.drop n ∧
      (s.source.endsCleanly → src.endsCleanly) ∧
      brRead n s = .ok (bitsValue (s.unreadBits.take n)) (s.setIn src br) := by
  obtain ⟨br, hbr, -, hbits, hk, hr⟩ := brRead_accepts he hn h
  refine ⟨_, br, hbr, ?_, fun hc => Source.endsCleanly_drop hc _ _ hk, hr⟩
  rw [← hbits, State.unreadBits]
  simp only
  rw [leadingBytes_drop _ _ hk]

/-- BR.READ where they are not: EndOfStream (R153). -/
theorem brRead_short {n : Nat} {s : State} (he : s.dec.br.eos = false) (hn : n ≤ Config.nMax)
    (h : s.unreadBits.length < n) (hc : s.source.endsCleanly) :
    ∃ src, brRead n s = .fault .endOfStream (s.setSource src).markEos := ⟨_, brRead_ends he hn h hc⟩

/-- BR.READ, whatever the source answers; where it returns, the source and the reader hold n bits fewer. -/
theorem brRead_in (n : Nat) (s : State) (hn : n ≤ Config.nMax) :
    (∃ v src br, v < 2 ^ n ∧ br.eos = false ∧ br.inv ∧ bitsLeft (s.setIn src br) + n = bitsLeft s ∧
        brRead n s = .ok v (s.setIn src br)) ∨
      (∃ src, brRead n s = .fault .endOfStream (s.setSource src).markEos) ∨
      (s.dec.br.eos = true ∧ brRead n s = .fault .endOfStream s) ∨
      ∃ src, brRead n s = .fault .sourceError (enterFault .sourceError (s.setSource src)) := by
  have hw : widthOk n = true := by simpa [widthOk] using hn
  have hm : s.dec.br.nbits.toNat < 8 := s.dec.br.nbits.isLt
  unfold brRead
  cases he : s.dec.br.eos with
  | true => exact .inr (.inr (.inl ⟨rfl, by rw [hw]; rfl⟩))
  | false =>
    rw [hw]
    obtain ⟨v, src, hsrc, h⟩ | ⟨src, h⟩ | ⟨src, h⟩ :=
      pullBytes_cases (bytesNeeded s.dec.br.nbits.toNat n) s.dec.br.acc.toNat s
    · have hle : n ≤ s.dec.br.nbits.toNat + 8 * bytesNeeded s.dec.br.nbits.toNat n := by
        rw [bytesNeeded]
        omega
      have hlt : s.dec.br.nbits.toNat + 8 * bytesNeeded s.dec.br.nbits.toNat n - n < 8 := by
        rw [bytesNeeded]
        omega
      refine .inl ⟨(v >>> (s.dec.br.nbits.toNat + 8 * bytesNeeded s.dec.br.nbits.toNat n - n)) % 2 ^ n, src,
        { acc := BitVec.ofNat 7 (v % 2 ^ (s.dec.br.nbits.toNat + 8 * bytesNeeded s.dec.br.nbits.toNat n - n)),
          nbits := BitVec.ofNat 3 (s.dec.br.nbits.toNat + 8 * bytesNeeded s.dec.br.nbits.toNat n - n),
          eos := s.dec.br.eos },
        Nat.mod_lt _ (by positivity), he, BitReader.inv_of _ _ _ hlt, ?_, by rw [h]; rfl⟩
      simp only [bitsLeft, BitVec.toNat_ofNat]
      rw [Nat.mod_eq_of_lt (show _ < 2 ^ 3 by omega)]
      omega
    · exact .inr (.inl ⟨src, by rw [h]; rfl⟩)
    · exact .inr (.inr (.inr ⟨src, by rw [h]; rfl⟩))

/-! ## Fetching a token -/

/-- A token's fields are read one after another, and they are the token of the bit string (R264, R98). -/
theorem fetchToken_some {s : State} {t : Token} {rest : Bits} (he : s.dec.br.eos = false)
    (h : takeToken s.dec.cfg s.unreadBits = some (t, rest)) :
    ∃ src br, br.eos = false ∧ (s.setIn src br).unreadBits = rest ∧ (s.source.endsCleanly → src.endsCleanly) ∧
      fetchToken s = .ok t (s.setIn src br) := by
  unfold takeToken at h
  cases hu : s.unreadBits with
  | nil => simp [hu] at h
  | cons b bits =>
    obtain ⟨src1, br1, he1, hu1, hc1, h1⟩ := brRead_take (n := 1) he (by decide) (by simp [hu])
    rw [hu] at hu1 h1
    simp only [List.drop_succ_cons, List.drop_zero, List.take_succ_cons, List.take_zero] at hu1 h1
    have hcfg : (s.setIn src1 br1).dec.cfg = s.dec.cfg := rfl
    unfold fetchToken
    rw [h1, bind_ok]
    rw [hu] at h
    cases b with
    | true =>
      dsimp only at h
      by_cases hl : s.dec.cfg.lb.toNat ≤ bits.length
      · rw [takeField_eq _ _ hl] at h
        cases h
        obtain ⟨src2, br2, he2, hu2, hc2, h2⟩ := brRead_take (n := s.dec.cfg.lb.toNat) (s := s.setIn src1 br1) he1
          (lb_le _) (by rw [hu1]; exact hl)
        rw [hu1] at hu2 h2
        refine ⟨src2, br2, he2, hu2, fun hc => hc2 (hc1 hc), ?_⟩
        rw [if_pos (by simp [bitsValue]), hcfg, h2]
        rfl
      · rw [takeField_none _ _ (by omega)] at h
        cases h
    | false =>
      dsimp only at h
      by_cases hl : s.dec.cfg.wb.toNat ≤ bits.length
      · rw [takeField_eq _ _ hl] at h
        dsimp only at h
        obtain ⟨src2, br2, he2, hu2, hc2, h2⟩ := brRead_take (n := s.dec.cfg.wb.toNat) (s := s.setIn src1 br1) he1
          (wb_le _) (by rw [hu1]; exact hl)
        rw [hu1] at hu2 h2
        by_cases hs : s.dec.cfg.sb.toNat ≤ (bits.drop s.dec.cfg.wb.toNat).length
        · rw [takeField_eq _ _ hs] at h
          cases h
          obtain ⟨src3, br3, he3, hu3, hc3, h3⟩ := brRead_take (n := s.dec.cfg.sb.toNat) (s := s.setIn src2 br2)
            he2 (sb_le _) (by rw [hu2]; exact hs)
          rw [hu2] at hu3 h3
          refine ⟨src3, br3, he3, hu3, fun hc => hc3 (hc2 (hc1 hc)), ?_⟩
          rw [if_neg (by simp [bitsValue]), hcfg, h2, bind_ok]
          show (brRead s.dec.cfg.sb.toNat (s.setIn src2 br2)).bind _ = _
          rw [h3]
          rfl
        · rw [takeField_none _ _ (by omega)] at h
          cases h
      · rw [takeField_none _ _ (by omega)] at h
        cases h

/-- No complete token is left and the source ends: EndOfStream in one of the reads (R270). -/
theorem fetchToken_none {s : State} (he : s.dec.br.eos = false) (hc : s.source.endsCleanly)
    (h : takeToken s.dec.cfg s.unreadBits = none) :
    ∃ src, fetchToken s = .fault .endOfStream (s.setSource src).markEos := by
  unfold takeToken at h
  cases hu : s.unreadBits with
  | nil =>
    unfold fetchToken
    rw [brRead_ends (n := 1) he (by decide) (by simp [hu]) hc]
    exact ⟨_, rfl⟩
  | cons b bits =>
    obtain ⟨src1, br1, he1, hu1, hc1, h1⟩ := brRead_take (n := 1) he (by decide) (by simp [hu])
    rw [hu] at hu1 h1
    simp only [List.drop_succ_cons, List.drop_zero, List.take_succ_cons, List.take_zero] at hu1 h1
    have hcfg : (s.setIn src1 br1).dec.cfg = s.dec.cfg := rfl
    unfold fetchToken
    rw [h1, bind_ok]
    rw [hu] at h
    cases b with
    | true =>
      dsimp only at h
      rw [if_pos (by simp [bitsValue]), hcfg]
      by_cases hl : s.dec.cfg.lb.toNat ≤ bits.length
      · rw [takeField_eq _ _ hl] at h
        cases h
      · obtain ⟨src, hr⟩ := brRead_short (s := s.setIn src1 br1) he1 (lb_le s.dec.cfg) (by rw [hu1]; omega) (hc1 hc)
        exact ⟨src, by rw [hr]; rfl⟩
    | false =>
      dsimp only at h
      rw [if_neg (by simp [bitsValue]), hcfg]
      by_cases hl : s.dec.cfg.wb.toNat ≤ bits.length
      · obtain ⟨src2, br2, he2, hu2, hc2, h2⟩ := brRead_take (n := s.dec.cfg.wb.toNat) (s := s.setIn src1 br1) he1
          (wb_le _) (by rw [hu1]; exact hl)
        rw [hu1] at hu2
        rw [takeField_eq _ _ hl] at h
        dsimp only at h
        rw [h2, bind_ok]
        show ∃ src, (brRead s.dec.cfg.sb.toNat (s.setIn src2 br2)).bind _ = _
        by_cases hs : s.dec.cfg.sb.toNat ≤ (bits.drop s.dec.cfg.wb.toNat).length
        · rw [takeField_eq _ _ hs] at h
          cases h
        · obtain ⟨src, hr⟩ := brRead_short (s := s.setIn src2 br2) he2 (sb_le s.dec.cfg) (by rw [hu2]; omega) (hc2 (hc1 hc))
          exact ⟨src, by rw [hr]; rfl⟩
      · obtain ⟨src, hr⟩ := brRead_short (s := s.setIn src1 br1) he1 (wb_le s.dec.cfg) (by rw [hu1]; omega) (hc1 hc)
        exact ⟨src, by rw [hr]; rfl⟩

/-- Fetching a token, whatever the source answers: a token that fits the configuration, EndOfStream, or
SourceError. -/
theorem fetchToken_cases (s : State) :
    (∃ t src br, t.instr.wf s.dec.cfg = true ∧ br.eos = false ∧ br.inv ∧
        bitsLeft (s.setIn src br) + 1 ≤ bitsLeft s ∧ fetchToken s = .ok t (s.setIn src br)) ∨
      (∃ src, fetchToken s = .fault .endOfStream (s.setSource src).markEos) ∨
      (s.dec.br.eos = true ∧ fetchToken s = .fault .endOfStream s) ∨
      ∃ src, fetchToken s = .fault .sourceError (enterFault .sourceError (s.setSource src)) := by
  have hwb := s.dec.cfg.wb.isLt
  have hsb := s.dec.cfg.sb.isLt
  unfold fetchToken
  obtain ⟨v1, src1, br1, -, he1, -, hb1, h1⟩ | ⟨src1, h1⟩ | ⟨he, h1⟩ | ⟨src1, h1⟩ := brRead_in 1 s (by decide)
  · rw [h1, bind_ok]
    by_cases hv : v1 = 1
    · rw [if_pos hv]
      obtain ⟨v2, src2, br2, hv2, he2, hi2, hb2, h2⟩ | ⟨src2, h2⟩ | ⟨he, h2⟩ | ⟨src2, h2⟩ :=
        brRead_in s.dec.cfg.lb.toNat (s.setIn src1 br1) (lb_le _)
      · refine .inl ⟨literalOfField v2, src2, br2, ?_, he2, hi2, ?_, by rw [h2]; rfl⟩
        · simp only [literalOfField, Token.instr, Instr.wf, BitVec.toNat_ofNat, decide_eq_true_eq]
          exact Nat.lt_of_le_of_lt (Nat.mod_le _ _) hv2
        · have e : bitsLeft ((s.setIn src1 br1).setIn src2 br2) = bitsLeft (s.setIn src2 br2) := rfl
          omega
      · exact .inr (.inl ⟨src2, by rw [h2]; rfl⟩)
      · have : br1.eos = true := he
        rw [he1] at this
        cases this
      · exact .inr (.inr (.inr ⟨src2, by rw [h2]; rfl⟩))
    · rw [if_neg hv]
      obtain ⟨v2, src2, br2, hv2, he2, -, hb2, h2⟩ | ⟨src2, h2⟩ | ⟨he, h2⟩ | ⟨src2, h2⟩ :=
        brRead_in s.dec.cfg.wb.toNat (s.setIn src1 br1) (wb_le _)
      · rw [h2, bind_ok]
        obtain ⟨v3, src3, br3, hv3, he3, hi3, hb3, h3⟩ | ⟨src3, h3⟩ | ⟨he, h3⟩ | ⟨src3, h3⟩ :=
          brRead_in s.dec.cfg.sb.toNat (s.setIn src2 br2) (sb_le _)
        · refine .inl ⟨referenceOfFields v2 v3, src3, br3, ?_, he3, hi3, ?_, ?_⟩
          · simp only [referenceOfFields, Token.instr, Instr.wf, BitVec.toNat_ofNat, Bool.and_eq_true,
              decide_eq_true_eq]
            exact ⟨Nat.lt_of_le_of_lt (Nat.mod_le _ _) hv2, Nat.lt_of_le_of_lt (Nat.mod_le _ _) hv3⟩
          · have e : bitsLeft ((s.setIn src1 br1).setIn src2 br2) = bitsLeft (s.setIn src2 br2) := rfl
            have e' : bitsLeft ((s.setIn src2 br2).setIn src3 br3) = bitsLeft (s.setIn src3 br3) := rfl
            omega
          · show (brRead s.dec.cfg.sb.toNat (s.setIn src2 br2)).bind _ = _
            rw [h3]
            rfl
        · refine .inr (.inl ⟨src3, ?_⟩)
          show (brRead s.dec.cfg.sb.toNat (s.setIn src2 br2)).bind _ = _
          rw [h3]
          rfl
        · have : br2.eos = true := he
          rw [he2] at this
          cases this
        · refine .inr (.inr (.inr ⟨src3, ?_⟩))
          show (brRead s.dec.cfg.sb.toNat (s.setIn src2 br2)).bind _ = _
          rw [h3]
          rfl
      · exact .inr (.inl ⟨src2, by rw [h2]; rfl⟩)
      · have : br1.eos = true := he
        rw [he1] at this
        cases this
      · exact .inr (.inr (.inr ⟨src2, by rw [h2]; rfl⟩))
  · exact .inr (.inl ⟨src1, by rw [h1]; rfl⟩)
  · exact .inr (.inr (.inl ⟨he, by rw [h1]; rfl⟩))
  · exact .inr (.inr (.inr ⟨src1, by rw [h1]; rfl⟩))

/-! ## One token -/

theorem Pull.accepts_le (p : Pull) (n : Nat) : p.accepts n ≤ n := by
  unfold Pull.accepts
  split
  · exact le_refl _
  · exact Nat.min_le_left ..

theorem Pull.accepts_one {p : Pull} (h : p.hasRoom = true) : p.accepts 1 = 1 := by
  unfold Pull.accepts Pull.room
  unfold Pull.hasRoom at h
  cases hl : p.limit with
  | none => rfl
  | some l =>
    rw [hl] at h
    have : p.out.length < l := by simpa using h
    simp only [Option.map_some]
    omega

/-- The length field of a token that fits gives a length from MINLEN to MAXLEN (R96, R205). -/
theorem spanOk_of_wf {cfg : Cfg} {pos : BitVec 15} {n : BitVec 7} (h : (Instr.reference pos n).wf cfg = true) :
    spanOk cfg pos.toNat (n.toNat + cfg.minLen) = true := by
  have hmin := Cfg.minLen_pos cfg
  have hmax := Cfg.maxLen_add cfg
  have hp : pos.toNat < 2 ^ cfg.wb.toNat ∧ n.toNat < 2 ^ cfg.sb.toNat := by simpa [Instr.wf] using h
  unfold spanOk Cfg.cap
  rw [Bool.and_eq_true, Bool.and_eq_true, decide_eq_true_eq, decide_eq_true_eq, decide_eq_true_eq]
  refine ⟨⟨hp.1, ?_⟩, ?_⟩ <;> omega

/-- A token inside a DEC.DECOMPRESS with room for a byte: its span goes to the window, to the output and, past the
limit, to OVF (R266, R267, R269). -/
theorem runToken_span {s : State} {p : Pull} {t : Token} (hp : s.pull = some p) (hs : s.dec.state = .midStream)
    (hr : p.hasRoom = true) (ht : t.instr.wf s.dec.cfg = true) :
    runToken t s = .next (copySpan p (tokenSpan s.dec.cfg s.dec.win t) s) := by
  cases t with
  | literal v =>
    simp only [runToken, execLiteral, inPull, hp, hs, if_true, tokenSpan, copySpan, List.length_singleton,
      Pull.accepts_one hr, Nat.lt_irrefl, if_false]
    rfl
  | reference pos n =>
    have := spanOk_of_wf ht
    simp only [runToken, execReference, inPull, hp, hs, if_true, tokenSpan, this]

/-- ExecuteToken where a token is complete (R264 to R269). -/
theorem tokenStep_some {s : State} {p : Pull} {t : Token} {rest : Bits} (hp : s.pull = some p)
    (hs : s.dec.state = .midStream) (hr : p.hasRoom = true) (he : s.dec.br.eos = false)
    (h : takeToken s.dec.cfg s.unreadBits = some (t, rest)) :
    ∃ src br, br.eos = false ∧ (s.setIn src br).unreadBits = rest ∧ (s.source.endsCleanly → src.endsCleanly) ∧
      tokenStep s = .next (copySpan p (tokenSpan s.dec.cfg s.dec.win t) (s.setIn src br)) := by
  obtain ⟨src, br, hbr, hu, hc, hf⟩ := fetchToken_some he h
  refine ⟨src, br, hbr, hu, hc, ?_⟩
  have ht : t.instr.wf s.dec.cfg = true := by
    obtain ⟨t', src', br', hwf, -, -, -, hf'⟩ | ⟨src', hf'⟩ | ⟨-, hf'⟩ | ⟨src', hf'⟩ := fetchToken_cases s
    · rw [hf] at hf'
      cases hf'
      exact hwf
    · rw [hf] at hf'
      cases hf'
    · rw [hf] at hf'
      cases hf'
    · rw [hf] at hf'
      cases hf'
  unfold tokenStep
  rw [hf]
  exact runToken_span (s := s.setIn src br) hp hs hr ht

/-- ExecuteToken where none is: the stream has ended (R270). -/
theorem tokenStep_none {s : State} (he : s.dec.br.eos = false) (hc : s.source.endsCleanly)
    (h : takeToken s.dec.cfg s.unreadBits = none) :
    ∃ src, tokenStep s = .next (s.setSource src).markEos.finish := by
  obtain ⟨src, hf⟩ := fetchToken_none he hc h
  refine ⟨src, ?_⟩
  unfold tokenStep
  rw [hf]
  rfl

/-- ExecuteToken, whatever the source answers (R264 to R270, R276). -/
theorem tokenStep_cases {s : State} {p : Pull} (hp : s.pull = some p) (hs : s.dec.state = .midStream)
    (hr : p.hasRoom = true) :
    (∃ t src br, t.instr.wf s.dec.cfg = true ∧ br.eos = false ∧ br.inv ∧
        bitsLeft (s.setIn src br) + 1 ≤ bitsLeft s ∧
        tokenStep s = .next (copySpan p (tokenSpan s.dec.cfg s.dec.win t) (s.setIn src br))) ∨
      (∃ src, tokenStep s = .next (s.setSource src).markEos.finish) ∨
      (s.dec.br.eos = true ∧ tokenStep s = .next s.finish) ∨
      ∃ src, tokenStep s = .next (enterFault .sourceError (s.setSource src)) := by
  unfold tokenStep
  obtain ⟨t, src, br, hwf, hbr, hi, hb, hf⟩ | ⟨src, hf⟩ | ⟨he, hf⟩ | ⟨src, hf⟩ := fetchToken_cases s
  · rw [hf]
    exact .inl ⟨t, src, br, hwf, hbr, hi, hb, runToken_span (s := s.setIn src br) hp hs hr hwf⟩
  · rw [hf]
    exact .inr (.inl ⟨src, rfl⟩)
  · rw [hf]
    exact .inr (.inr (.inl ⟨he, rfl⟩))
  · rw [hf]
    exact .inr (.inr (.inr ⟨src, rfl⟩))

/-! ## The header -/

theorem headerCfg_legal (w : BitVec 3) (s : BitVec 2) (l : BitVec 2) : (headerCfg w s l).legal = true := by
  revert w s l
  decide

/-- ReadHeader over a good header (R262). -/
theorem headerStep_good {s : State} {p : Pull} {h : Nat} {rest : Bits} {c : Cfg} (hp : s.pull = some p)
    (hs : s.dec.state = .hdrPending) (he : s.dec.br.eos = false) (hh : takeField 8 s.unreadBits = some (h, rest))
    (hc : decodeConfig (BitVec.ofNat 8 h) = some c) :
    ∃ src br, br.eos = false ∧ (s.setIn src br).unreadBits = rest ∧ (s.source.endsCleanly → src.endsCleanly) ∧
      headerStep s = .next (openStream c (s.setIn src br)) := by
  have hl : 8 ≤ s.unreadBits.length := by
    by_contra hlt
    rw [takeField_none _ _ (by omega)] at hh
    cases hh
  rw [takeField_eq _ _ hl] at hh
  cases hh
  obtain ⟨src, br, hbr, hu, hcl, hr⟩ := brRead_take (n := 8) he (by decide) hl
  refine ⟨src, br, hbr, hu, hcl, ?_⟩
  unfold headerStep
  rw [hr]
  unfold decodeConfig at hc
  cases hf : headerFields (BitVec.ofNat 8 (bitsValue (s.unreadBits.take 8))) with
  | none =>
    rw [hf] at hc
    cases hc
  | some f =>
    obtain ⟨w, sz, l⟩ := f
    rw [hf] at hc
    cases hc
    simp only [hf, execHeader, inPull, hp, hs, if_true]

/-- ReadHeader, whatever the source answers (R262, R272, R276). -/
theorem headerStep_cases {s : State} {p : Pull} (hp : s.pull = some p) (hs : s.dec.state = .hdrPending) :
    (∃ c src br, c.legal = true ∧ br.eos = false ∧ br.inv ∧ bitsLeft (s.setIn src br) + 8 = bitsLeft s ∧
        headerStep s = .next (openStream c (s.setIn src br))) ∨
      (∃ h src br, br.eos = false ∧ br.inv ∧
        headerStep s = .next (enterFault (.unsupportedHeader h) (s.setIn src br))) ∨
      (∃ src, headerStep s = .next (enterFault .endOfStream (s.setSource src).markEos)) ∨
      (s.dec.br.eos = true ∧ headerStep s = .next (enterFault .endOfStream s)) ∨
      ∃ src, headerStep s = .next (enterFault .sourceError (s.setSource src)) := by
  unfold headerStep
  obtain ⟨v, src, br, -, hbr, hi, hb, hr⟩ | ⟨src, hr⟩ | ⟨he, hr⟩ | ⟨src, hr⟩ := brRead_in 8 s (by decide)
  · rw [hr]
    simp only
    cases hf : headerFields (BitVec.ofNat 8 v) with
    | none => exact .inr (.inl ⟨BitVec.ofNat 8 v, src, br, hbr, hi, rfl⟩)
    | some f =>
      obtain ⟨w, sz, l⟩ := f
      refine .inl ⟨headerCfg w sz l, src, br, headerCfg_legal w sz l, hbr, hi, hb, ?_⟩
      simp only [execHeader, inPull, hp, hs, if_true]
  · rw [hr]
    exact .inr (.inr (.inl ⟨src, rfl⟩))
  · rw [hr]
    exact .inr (.inr (.inr (.inl ⟨he, rfl⟩)))
  · rw [hr]
    exact .inr (.inr (.inr (.inr ⟨src, rfl⟩)))

/-! ## The parts of a step of DEC.DECOMPRESS -/

theorem copySpan_ovf (p : Pull) (span : List Byte) (s : State) (h : s.dec.ovf = []) :
    (copySpan p span s).dec.ovf = span.drop (p.accepts span.length) := by
  have hle := Pull.accepts_le p span.length
  show (if p.accepts span.length < span.length then span.drop (p.accepts span.length) else s.dec.ovf) = _
  split
  · rfl
  · rw [h, List.drop_of_length_le (by omega)]

theorem copySpan_win (p : Pull) (span : List Byte) (s : State) :
    (copySpan p span s).dec.win = Window.writeBytes s.dec.cfg.cap s.dec.win span := rfl

/-- The output holds no more than the limit. -/
def Pull.fits (p : Pull) : Prop := ∀ l, p.limit = some l → p.out.length ≤ l

/-- Bytes the output has room for leave it within its limit. -/
theorem Pull.fits_append {p : Pull} (h : p.fits) (span : List Byte) :
    Pull.fits { p with out := p.out ++ span.take (p.accepts span.length) } := by
  intro l hl
  have := h l hl
  simp only at hl
  simp only [Pull.accepts, Pull.room, hl, Option.map_some, List.length_append, List.length_take]
  omega

/-- What does not go to the output is left only where the output is full. -/
theorem Pull.full_of_rest {p : Pull} (h : p.fits) {span : List Byte}
    (hd : span.drop (p.accepts span.length) ≠ []) :
    Pull.hasRoom { p with out := p.out ++ span.take (p.accepts span.length) } = false := by
  have hlen : p.accepts span.length < span.length := by
    by_contra hge
    exact hd (List.drop_of_length_le (by omega))
  unfold Pull.accepts Pull.room at hlen
  unfold Pull.hasRoom Pull.accepts Pull.room
  cases hl : p.limit with
  | none => simp [hl] at hlen
  | some l =>
    have := h l hl
    simp only [hl, Option.map_some] at hlen ⊢
    simp only [List.length_append, List.length_take, decide_eq_false_iff_not]
    omega

/-- An output with no room is as long as its limit. -/
theorem Pull.length_of_full {p : Pull} (h : p.fits) (hr : p.hasRoom = false) : p.limit = some p.out.length := by
  unfold Pull.hasRoom at hr
  cases hl : p.limit with
  | none => simp [hl] at hr
  | some l =>
    have := h l hl
    simp only [hl, decide_eq_false_iff_not] at hr
    have : l = p.out.length := by omega
    rw [this]

/-! ## One step of DEC.DECOMPRESS, any source -/

/-- How many more steps a DEC.DECOMPRESS may take, at most. -/
def pullMeasure (s : State) : Nat :=
  match s.pull with
  | none => 0
  | some p =>
    match s.dec.state with
    | .hdrPending => bitsLeft s + 4
    | .midStream => if p.hasRoom then (if s.dec.ovf = [] then bitsLeft s + 2 else bitsLeft s + 3) else 1
    | .finished => if p.hasRoom ∧ s.dec.ovf ≠ [] then 2 else 1
    | .faulted => 1

theorem pullMeasure_le (s : State) : pullMeasure s ≤ bitsLeft s + 4 := by
  unfold pullMeasure
  split
  · omega
  · split
    · omega
    · split
      · split <;> omega
      · omega
    · split <;> omega
    · omega

theorem fits_of_hasRoom {p : Pull} (h : p.hasRoom = true) : p.fits := by
  intro l hl
  simp only [Pull.hasRoom, hl, decide_eq_true_eq] at h
  omega

/-- One step of a DEC.DECOMPRESS on an engine that is not FAULTED is never refused; it ends the operation or brings
its end nearer, and it leaves the compressor engine, the sink and the host's events alone. -/
theorem pullStep_runs {s : State} {p : Pull} (hp : s.pull = some p) (hs : s.dec.state ≠ .faulted) :
    ∃ u, pullStep s = .next u ∧ u.cmp = s.cmp ∧ u.sink = s.sink ∧ u.pending = s.pending ∧
      (u.pull = none ∨ u.dec.state ≠ .faulted ∧ pullMeasure u < pullMeasure s) := by
  unfold pullStep
  rw [hp]
  simp only
  cases hst : s.dec.state with
  | faulted => exact absurd hst hs
  | hdrPending =>
    simp only
    have hmu : pullMeasure s = bitsLeft s + 4 := by simp [pullMeasure, hp, hst]
    obtain ⟨c, src, br, -, -, -, hb, h⟩ | ⟨b, src, br, -, -, h⟩ | ⟨src, h⟩ | ⟨-, h⟩ | ⟨src, h⟩ :=
      headerStep_cases hp hst
    · refine ⟨_, h, rfl, rfl, rfl, .inr ⟨fun hf => (by cases hf), ?_⟩⟩
      rw [hmu]
      have e : bitsLeft (openStream c (s.setIn src br)) = bitsLeft (s.setIn src br) := rfl
      have e2 : (openStream c (s.setIn src br)).dec.state = .midStream := rfl
      have e3 : (openStream c (s.setIn src br)).pull = some p := hp
      unfold pullMeasure
      rw [e3]
      simp only [e2, e]
      split
      · split <;> omega
      · omega
    · exact ⟨_, h, rfl, rfl, rfl, .inl rfl⟩
    · exact ⟨_, h, rfl, rfl, rfl, .inl rfl⟩
    · exact ⟨_, h, rfl, rfl, rfl, .inl rfl⟩
    · exact ⟨_, h, rfl, rfl, rfl, .inl rfl⟩
  | midStream =>
    simp only
    by_cases hr : p.hasRoom = true
    · rw [if_pos hr]
      have hfit := fits_of_hasRoom hr
      by_cases ho : s.dec.ovf = []
      · rw [if_pos ho]
        have hmu : pullMeasure s = bitsLeft s + 2 := by simp [pullMeasure, hp, hst, hr, ho]
        obtain ⟨t, src, br, -, -, -, hb, h⟩ | ⟨src, h⟩ | ⟨-, h⟩ | ⟨src, h⟩ := tokenStep_cases hp hst hr
        · refine ⟨_, h, rfl, rfl, rfl, .inr ⟨fun hf => (by cases hst.symm.trans hf), ?_⟩⟩
          rw [hmu]
          generalize hspan : tokenSpan s.dec.cfg s.dec.win t = span
          have e : bitsLeft (copySpan p span (s.setIn src br)) = bitsLeft (s.setIn src br) := rfl
          have e2 : (copySpan p span (s.setIn src br)).dec.state = .midStream := hst
          have e3 := copySpan_ovf p span (s.setIn src br) ho
          unfold pullMeasure
          rw [copySpan_pull]
          simp only [e2, e, e3]
          by_cases hd : span.drop (p.accepts span.length) = []
          · rw [if_pos hd]
            split <;> omega
          · rw [Pull.full_of_rest hfit hd]
            simp
        · refine ⟨_, h, rfl, rfl, rfl, .inr ⟨fun hf => (by cases hf), ?_⟩⟩
          rw [hmu]
          simp [pullMeasure, hp, ho]
        · refine ⟨_, h, rfl, rfl, rfl, .inr ⟨fun hf => (by cases hf), ?_⟩⟩
          rw [hmu]
          simp [pullMeasure, hp, ho]
        · exact ⟨_, h, rfl, rfl, rfl, .inl rfl⟩
      · rw [if_neg ho]
        refine ⟨_, rfl, rfl, rfl, rfl, .inr ⟨fun hf => (by cases hst.symm.trans hf), ?_⟩⟩
        have hmu : pullMeasure s = bitsLeft s + 3 := by simp [pullMeasure, hp, hst, hr, ho]
        rw [hmu]
        have e : bitsLeft (drainOverflow p s) = bitsLeft s := rfl
        have e2 : (drainOverflow p s).dec.state = .midStream := hst
        have e3 : (drainOverflow p s).pull =
            some { p with out := p.out ++ s.dec.ovf.take (p.accepts s.dec.ovf.length) } := rfl
        have e4 : (drainOverflow p s).dec.ovf = s.dec.ovf.drop (p.accepts s.dec.ovf.length) := rfl
        unfold pullMeasure
        rw [e3]
        simp only [e2, e, e4]
        by_cases hd : s.dec.ovf.drop (p.accepts s.dec.ovf.length) = []
        · rw [if_pos hd]
          split <;> omega
        · rw [Pull.full_of_rest hfit hd]
          simp
    · rw [if_neg hr]
      exact ⟨_, rfl, rfl, rfl, rfl, .inl rfl⟩
  | finished =>
    simp only
    by_cases hr : p.hasRoom = true
    · have hfit := fits_of_hasRoom hr
      by_cases ho : s.dec.ovf = []
      · rw [if_neg (by simp [ho])]
        exact ⟨_, rfl, rfl, rfl, rfl, .inl rfl⟩
      · rw [if_pos (by simp [hr, ho])]
        refine ⟨_, rfl, rfl, rfl, rfl, .inr ⟨fun hf => (by cases hst.symm.trans hf), ?_⟩⟩
        have hmu : pullMeasure s = 2 := by simp [pullMeasure, hp, hst, hr, ho]
        rw [hmu]
        have e2 : (drainOverflow p s).dec.state = .finished := hst
        have e3 : (drainOverflow p s).pull =
            some { p with out := p.out ++ s.dec.ovf.take (p.accepts s.dec.ovf.length) } := rfl
        have e4 : (drainOverflow p s).dec.ovf = s.dec.ovf.drop (p.accepts s.dec.ovf.length) := rfl
        unfold pullMeasure
        rw [e3]
        simp only [e2, e4]
        by_cases hd : s.dec.ovf.drop (p.accepts s.dec.ovf.length) = []
        · simp [hd]
        · rw [Pull.full_of_rest hfit hd]
          simp
    · rw [if_neg (by simp [hr])]
      exact ⟨_, rfl, rfl, rfl, rfl, .inl rfl⟩

/-- A DEC.DECOMPRESS in progress on an engine that is not FAULTED runs to its end (R261, R387). -/
theorem pullLoop_runs (fuel : Nat) {s : State} {p : Pull} (hp : s.pull = some p) (hs : s.dec.state ≠ .faulted)
    (hfuel : pullMeasure s ≤ fuel) :
    ∃ t, pullLoop fuel s = .next t ∧ t.cmp = s.cmp ∧ t.sink = s.sink ∧ t.pending = s.pending ∧ t.pull = none := by
  induction fuel generalizing s p with
  | zero =>
    have h1 : 1 ≤ pullMeasure s := by
      unfold pullMeasure
      rw [hp]
      simp only
      split
      · omega
      · split
        · split <;> omega
        · omega
      · split <;> omega
      · omega
    omega
  | succ fuel ih =>
    obtain ⟨u, hu, hc, hk, hpe, h⟩ := pullStep_runs hp hs
    rw [pullLoop, hp]
    simp only [hu]
    rcases h with hn | ⟨hst, hmu⟩
    · have : pullLoop fuel u = .next u := by
        cases fuel <;> simp [pullLoop, hn]
      exact ⟨u, this, hc, hk, hpe, hn⟩
    · cases hq : u.pull with
      | none =>
        have : pullLoop fuel u = .next u := by
          cases fuel <;> simp [pullLoop, hq]
        exact ⟨u, this, hc, hk, hpe, hq⟩
      | some q =>
        obtain ⟨t, ht, hc', hk', hpe', hn⟩ := ih hq hst (by omega)
        exact ⟨t, ht, hc'.trans hc, hk'.trans hk, hpe'.trans hpe, hn⟩

/-- DEC.DECOMPRESS ends in a next state in every state that does not refuse it (R261, R265). -/
theorem execDecDecompress_runs (maxSize : Int) {s : State} (hp : s.pull = none) (hs : s.dec.state ≠ .faulted) :
    ∃ t, execDecDecompress maxSize s = .next t ∧ t.cmp = s.cmp ∧ t.sink = s.sink ∧ t.pending = s.pending ∧
      t.pull = none := by
  unfold execDecDecompress
  rw [hp]
  simp only
  rw [if_neg hs]
  exact pullLoop_runs (s := openPull maxSize s) _ rfl hs (pullMeasure_le (openPull maxSize s))

/-- Steps after the operation has ended change nothing. -/
theorem pullLoop_none (fuel : Nat) {s : State} (h : s.pull = none) : pullLoop fuel s = .next s := by
  cases fuel <;> simp [pullLoop, h]

end Sys2Proof.Machine
end

