-- ==== Sys2Proof/Laws/Invariant.lean ====
section
/-! SUPPORT. The invariant of 10_state.md R38, operation by operation. -/

namespace Sys2Proof.Machine

/-! ## Legal configurations -/

theorem configLegal_iff (wb sb lb : Nat) :
    configLegal wb sb lb = true ↔ 8 ≤ wb ∧ wb ≤ 15 ∧ 4 ≤ sb ∧ sb ≤ 7 ∧ 5 ≤ lb ∧ lb ≤ 8 := by
  simp [configLegal, and_assoc]

/-- A legal configuration fits the registers (R29). -/
theorem ofNats_legal {wb sb lb : Nat} (h : configLegal wb sb lb = true) : (Cfg.ofNats wb sb lb).legal = true := by
  have h' := (configLegal_iff wb sb lb).mp h
  have e1 : wb % 2 ^ 4 = wb := Nat.mod_eq_of_lt (by omega)
  have e2 : sb % 2 ^ 3 = sb := Nat.mod_eq_of_lt (by omega)
  have e3 : lb % 2 ^ 4 = lb := Nat.mod_eq_of_lt (by omega)
  simp only [Cfg.legal, Cfg.ofNats, BitVec.toNat_ofNat, e1, e2, e3]
  exact h

/-! ## The two engines apart -/

/-- The part of the invariant that is about the compressor engine. -/
structure Compressor.Inv (c : Compressor) : Prop where
  mem : Memory.wf c.win.buf
  sound : ¬ c.lost → c.Sound
  fault : c.state = .faulted ↔ c.fault ≠ .none
  code : c.fault = .none ∨ c.fault = .excessBits ∨ c.fault = .invalidConfig ∨ c.fault = .sinkError

/-- The part of the invariant that is about the decompressor engine. -/
structure Decompressor.Inv (d : Decompressor) : Prop where
  mem : Memory.wf d.win.buf
  sound : ¬ d.lost → d.Sound
  fault : d.state = .faulted ↔ d.fault ≠ .none
  code : d.fault = .none ∨ d.fault = .endOfStream ∨ d.fault = .unsupportedHeader ∨ d.fault = .sourceError

theorem State.inv_iff (s : State) : s.Inv ↔ s.cmp.Inv ∧ s.dec.Inv ∧ s.pullSound :=
  ⟨fun h => ⟨⟨h.cmpMem, h.cmp, h.cmpFault, h.cmpCode⟩, ⟨h.decMem, h.dec, h.decFault, h.decCode⟩, h.pull⟩,
    fun ⟨c, d, p⟩ => ⟨c.mem, d.mem, c.sound, d.sound, c.fault, d.fault, c.code, d.code, p⟩⟩

theorem Window.inv_reset (cfg : Cfg) : Window.reset.inv cfg := by
  refine ⟨Cfg.cap_pos cfg, fun i _ => ?_⟩
  simp [Window.reset, Config.windowInit]

theorem Compressor.inv_reset : Compressor.reset.Inv := by
  refine ⟨Memory.wf_nil, fun _ => ⟨rfl, Nat.one_pos, Window.inv_reset _, fun _ => rfl, fun h => (by cases h)⟩, ?_,
    .inl rfl⟩
  exact ⟨fun h => (by cases h), fun h => absurd rfl h⟩

theorem Decompressor.inv_reset : Decompressor.reset.Inv := by
  refine ⟨Memory.wf_nil, fun _ => ⟨fun h => (by rcases h with h | h <;> cases h), fun _ => Nat.one_pos,
    fun _ => rfl, fun _ => rfl, fun h => (by cases h)⟩, ?_, .inl rfl⟩
  exact ⟨fun h => (by cases h), fun h => absurd rfl h⟩

/-- After SinkError only the state and fault registers are claimed (R336). -/
theorem Compressor.inv_unspecified (k : Nat) : (Compressor.unspecified k).Inv := by
  refine ⟨Memory.wf_load Memory.wf_nil _ _, fun h => absurd ⟨rfl, .inl rfl⟩ h, ?_, .inr (.inr (.inr rfl))⟩
  exact ⟨fun _ => (by simp [Compressor.unspecified]), fun _ => rfl⟩

theorem Decompressor.inv_unspecified (k : Nat) : (Decompressor.unspecified k).Inv := by
  refine ⟨Memory.wf_load Memory.wf_nil _ _, fun h => absurd ⟨rfl, rfl⟩ h, ?_, .inr (.inr (.inr rfl))⟩
  exact ⟨fun _ => (by simp [Decompressor.unspecified]), fun _ => rfl⟩

/-! ## The compressor's operations -/

/-- An engine in ACTIVE is sound, and its Bit Writer is not flushed. -/
theorem Compressor.Inv.active {c : Compressor} (h : c.Inv) (ha : c.state = .active) :
    c.Sound ∧ c.bw.flushed = false ∧ c.fault = .none := by
  have hl : ¬ c.lost := fun hl => (by rw [Compressor.lost, ha] at hl; cases hl.1)
  refine ⟨h.sound hl, (h.sound hl).flushed.1 (.inr ha), ?_⟩
  by_contra hf
  have := h.fault.mpr hf
  rw [ha] at this
  cases this

/-- ExcessBitsError keeps what is sound (R235). -/
theorem Compressor.Inv.faulted {c : Compressor} (h : c.Sound) (hm : Memory.wf c.win.buf) :
    Compressor.Inv { c with state := .faulted, fault := .excessBits } := by
  refine ⟨hm, fun _ => ⟨h.cfg, h.bw, h.win, fun hs => (by rcases hs with hs | hs <;> cases hs),
    fun hs => (by cases hs)⟩, ?_, .inr (.inl rfl)⟩
  exact ⟨fun _ => (by simp), fun _ => rfl⟩

/-- A chunk keeps the engine's invariant (R223). -/
theorem compressChunk_inv {s t : State} {data : List Byte} (h : s.cmp.Inv) :
    (∀ u, compressChunk data s = .ok u t → t.cmp.Inv ∧ t.dec = s.dec ∧ t.pull = s.pull) ∧
      (∀ f, compressChunk data s = .fault f t → t.cmp.Inv ∧ t.dec = s.dec ∧ t.pull = s.pull) := by
  unfold compressChunk
  by_cases ha : s.cmp.state = .active
  · rw [if_pos ha]
    obtain ⟨hsound, hfl, hnone⟩ := h.active ha
    obtain ⟨k, bw, hfl', hbi, hn, hr⟩ | ⟨done, b, rest, k, bw, -, hn, -, hfl', hbi, hr⟩ | ⟨k, hr⟩ :=
      compressLoop_cases data.length data 0 s (le_refl _) hfl hsound.bw h.mem hsound.win
    · rw [hr]
      refine ⟨fun _ he => ?_, fun _ he => (by cases he)⟩
      cases he
      refine ⟨⟨Window.wf_writeBytes h.mem _, fun _ => ⟨hsound.cfg, hbi,
        Window.narrow_writeBytes h.mem hsound.win hn, fun _ => hfl', fun hs => (by rw [ha] at hs; cases hs)⟩,
        h.fault, h.code⟩, rfl, rfl⟩
    · rw [hr]
      refine ⟨fun _ he => (by cases he), fun _ he => ?_⟩
      cases he
      refine ⟨?_, rfl, rfl⟩
      exact Compressor.Inv.faulted (c := (s.setOut k bw (Window.writeBytes s.cmp.cfg.cap s.cmp.win done)).cmp)
        ⟨hsound.cfg, hbi, Window.narrow_writeBytes h.mem hsound.win hn, fun _ => hfl',
          fun hs => (by rw [ha] at hs; cases hs)⟩ (Window.wf_writeBytes h.mem _)
    · rw [hr]
      refine ⟨fun _ he => (by cases he), fun _ he => ?_⟩
      cases he
      exact ⟨Compressor.inv_unspecified _, rfl, rfl⟩
  · rw [if_neg ha]
    exact ⟨fun _ he => (by cases he), fun _ he => (by cases he)⟩

/-- CMP.FLUSH keeps the engine's invariant (R232). -/
theorem flushCompressor_inv {s t : State} (h : s.cmp.Inv) :
    (∀ u, flushCompressor s = .ok u t → t.cmp.Inv ∧ t.dec = s.dec ∧ t.pull = s.pull) ∧
      (∀ f, flushCompressor s = .fault f t → t.cmp.Inv ∧ t.dec = s.dec ∧ t.pull = s.pull) := by
  obtain ⟨ha, k, hr⟩ | ⟨-, k, hr⟩ | ⟨hr, -⟩ | ⟨hr, -⟩ := flushCompressor_cases s
  · rw [hr]
    refine ⟨fun _ he => ?_, fun _ he => (by cases he)⟩
    cases he
    obtain ⟨hsound, -, hnone⟩ := h.active ha
    refine ⟨⟨h.mem, fun _ => ⟨hsound.cfg, Nat.one_pos, hsound.win,
      fun hs => (by rcases hs with hs | hs <;> cases hs), fun _ => rfl⟩, ?_, .inl hnone⟩, rfl, rfl⟩
    exact ⟨fun hs => (by cases hs), fun hs => absurd hnone hs⟩
  · rw [hr]
    refine ⟨fun _ he => (by cases he), fun _ he => ?_⟩
    cases he
    exact ⟨Compressor.inv_unspecified _, rfl, rfl⟩
  · rw [hr]
    exact ⟨fun _ he => (by cases he), fun _ he => (by cases he)⟩
  · rw [hr]
    exact ⟨fun _ he => (by cases he), fun _ he => (by cases he)⟩

/-- CMP.INIT keeps the engine's invariant (R221, R222). -/
theorem initCompressor_inv {s t : State} {wb sb lb : Nat} (h : s.cmp.Inv) :
    (∀ u, initCompressor wb sb lb s = .ok u t → t.cmp.Inv ∧ t.dec = s.dec ∧ t.pull = s.pull) ∧
      (∀ f, initCompressor wb sb lb s = .fault f t → t.cmp.Inv ∧ t.dec = s.dec ∧ t.pull = s.pull) := by
  obtain ⟨hi, hr⟩ | ⟨hi, k, hr⟩ | ⟨k, hr⟩ := initCompressor_cases wb sb lb s
  · rw [hr]
    refine ⟨fun _ he => (by cases he), fun _ he => ?_⟩
    cases he
    refine ⟨⟨h.mem, fun hl => absurd ⟨rfl, .inr rfl⟩ hl, ?_, .inr (.inr (.inl rfl))⟩, rfl, rfl⟩
    exact ⟨fun _ => (by simp), fun _ => rfl⟩
  · rw [hr]
    refine ⟨fun _ he => ?_, fun _ he => (by cases he)⟩
    cases he
    refine ⟨⟨Memory.wf_clearBelow h.mem _, fun _ => ⟨ofNats_legal hi, Nat.one_pos, Window.inv_fresh _ _,
      fun _ => rfl, fun hs => (by cases hs)⟩, ?_, .inl rfl⟩, rfl, rfl⟩
    exact ⟨fun hs => (by cases hs), fun hs => absurd rfl hs⟩
  · rw [hr]
    refine ⟨fun _ he => (by cases he), fun _ he => ?_⟩
    cases he
    exact ⟨Compressor.inv_unspecified _, rfl, rfl⟩

/-! ## The decompressor's operations -/

/-- An engine that is not FAULTED is sound. -/
theorem Decompressor.Inv.running {d : Decompressor} (h : d.Inv) (hs : d.state ≠ .faulted) :
    d.Sound ∧ d.fault = .none := by
  refine ⟨h.sound fun hl => hs hl.1, ?_⟩
  by_contra hf
  exact hs (h.fault.mpr hf)

theorem narrow_append {cfg : Cfg} {as bs : List Byte} (ha : narrow cfg as) (hb : narrow cfg bs) :
    narrow cfg (as ++ bs) := by
  intro x hx
  rcases List.mem_append.mp hx with hx | hx
  · exact ha x hx
  · exact hb x hx

theorem narrow_take {cfg : Cfg} {as : List Byte} (ha : narrow cfg as) (n : Nat) : narrow cfg (as.take n) :=
  fun x hx => ha x (List.mem_of_mem_take hx)

theorem narrow_drop {cfg : Cfg} {as : List Byte} (ha : narrow cfg as) (n : Nat) : narrow cfg (as.drop n) :=
  fun x hx => ha x (List.mem_of_mem_drop hx)

/-- A token that fits stands for narrow bytes (R309). -/
theorem narrow_tokenSpan {cfg : Cfg} {w : Window} {t : Token} (hw : w.inv cfg) (ht : t.instr.wf cfg = true) :
    narrow cfg (tokenSpan cfg w t) := by
  cases t with
  | literal v =>
    intro x hx
    have : x = v := by simpa [tokenSpan] using hx
    subst this
    simpa [Token.instr, Instr.wf] using ht
  | reference pos n => exact Window.narrow_readSpan hw _ _

/-- A token's span is no longer than MAXLEN (R205). -/
theorem length_tokenSpan_le {cfg : Cfg} {w : Window} {t : Token} (ht : t.instr.wf cfg = true) :
    (tokenSpan cfg w t).length ≤ cfg.maxLen := by
  have hmin := Cfg.minLen_pos cfg
  have hmax := Cfg.maxLen_add cfg
  have hpos : 0 < 2 ^ cfg.sb.toNat := by positivity
  cases t with
  | literal v =>
    simp only [tokenSpan, List.length_singleton]
    omega
  | reference pos n =>
    have hp : pos.toNat < 2 ^ cfg.wb.toNat ∧ n.toNat < 2 ^ cfg.sb.toNat := by
      simpa [Token.instr, Instr.wf] using ht
    simp only [tokenSpan, Window.length_readSpan]
    omega

/-- What is left for OVF is less than the span, where the output has room for a byte (R34). -/
theorem length_drop_accepts {p : Pull} (hr : p.hasRoom = true) (span : List Byte) (hs : span ≠ []) :
    (span.drop (p.accepts span.length)).length + 1 ≤ span.length := by
  have hlen : 0 < span.length := List.length_pos_iff.mpr hs
  rw [List.length_drop]
  unfold Pull.hasRoom at hr
  unfold Pull.accepts Pull.room
  cases hl : p.limit with
  | none => simp; omega
  | some l =>
    rw [hl] at hr
    have : p.out.length < l := by simpa using hr
    simp only [Option.map_some]
    omega

/-- What a FAULTED decompressor engine keeps after a precise fault while it reads the header (R262, R272). -/
theorem Decompressor.Inv.faulted {d : Decompressor} (hm : Memory.wf d.win.buf) (ho : d.ovf = []) {f : FaultCode}
    (hf : f = .endOfStream ∨ f = .unsupportedHeader) (br : BitReader) (hi : br.inv) :
    Decompressor.Inv { d with state := .faulted, fault := f, br := br } := by
  refine ⟨hm, fun _ => ⟨fun hs => (by rcases hs with hs | hs <;> cases hs), hi, fun _ => ho,
    fun hs => (by rcases hs with hs | hs <;> cases hs), fun hs => (by cases hs)⟩, ?_, ?_⟩
  · exact ⟨fun _ => (by rcases hf with rfl | rfl <;> simp), fun _ => rfl⟩
  · rcases hf with rfl | rfl
    · exact .inr (.inl rfl)
    · exact .inr (.inr (.inl rfl))

theorem pullSound_none {s : State} (h : s.pull = none) : s.pullSound := by
  intro p hp
  rw [h] at hp
  cases hp

theorem BitReader.inv_eos (a : BitVec 7) (n : BitVec 3) : BitReader.inv { acc := a, nbits := n, eos := true } :=
  fun h => (by cases h)

/-- One step of a DEC.DECOMPRESS keeps the decompressor engine's invariant and the operation's (R38, R309). -/
theorem pullStep_inv {s u : State} (h : s.dec.Inv) (hps : s.pullSound) (hu : pullStep s = .next u) :
    u.cmp = s.cmp ∧ u.dec.Inv ∧ u.pullSound := by
  unfold pullStep at hu
  cases hp : s.pull with
  | none => rw [hp] at hu; cases hu
  | some p =>
    rw [hp] at hu
    simp only at hu
    obtain ⟨hnf, hfit, hout0, hnar⟩ := hps p hp
    obtain ⟨hsound, hnone⟩ := h.running hnf
    cases hst : s.dec.state with
    | faulted => exact absurd hst hnf
    | hdrPending =>
      rw [hst] at hu
      simp only at hu
      have hovf : s.dec.ovf = [] := hsound.ovfEmpty (by rw [hst]; simp)
      have hout : p.out = [] := hout0 hst
      obtain ⟨c, src, br, hc, hbr, hi, -, hr⟩ | ⟨b, src, br, -, hi, hr⟩ | ⟨src, hr⟩ | ⟨-, hr⟩ | ⟨src, hr⟩ :=
        headerStep_cases hp hst
      · rw [hr] at hu
        cases hu
        refine ⟨rfl, ⟨Memory.wf_clearBelow h.mem _, fun _ => ⟨fun _ => ⟨hc, Window.inv_fresh _ _, ?_⟩, hi,
          fun hs => absurd rfl hs, fun _ => hbr, fun hs => (by cases hs)⟩, ?_, .inl hnone⟩,
          ?_⟩
        · show s.dec.ovf.length ≤ _ ∧ narrow c s.dec.ovf
          rw [hovf]
          exact ⟨Nat.zero_le _, fun x hx => (by cases hx)⟩
        · exact ⟨fun hs => (by cases hs), fun hs => absurd hnone hs⟩
        · intro q hq
          have hq' : some p = some q := hp.symm.trans hq
          cases hq'
          refine ⟨fun hs => (by cases hs), hfit, fun hs => (by cases hs), ?_⟩
          rw [hout]
          exact fun x hx => (by cases hx)
      · rw [hr] at hu
        cases hu
        exact ⟨rfl, Decompressor.Inv.faulted h.mem hovf (.inr rfl) br hi, pullSound_none rfl⟩
      · rw [hr] at hu
        cases hu
        exact ⟨rfl, Decompressor.Inv.faulted h.mem hovf (.inl rfl) _ (BitReader.inv_eos _ _), pullSound_none rfl⟩
      · rw [hr] at hu
        cases hu
        exact ⟨rfl, Decompressor.Inv.faulted h.mem hovf (.inl rfl) _ hsound.br, pullSound_none rfl⟩
      · rw [hr] at hu
        cases hu
        exact ⟨rfl, Decompressor.inv_unspecified _, pullSound_none rfl⟩
    | midStream =>
      rw [hst] at hu
      simp only at hu
      have hopen := hsound.stream (.inl hst)
      by_cases hroom : p.hasRoom = true
      · rw [if_pos hroom] at hu
        by_cases ho : s.dec.ovf = []
        · rw [if_pos ho] at hu
          obtain ⟨t, src, br, hwf, hbr, hi, -, hr⟩ | ⟨src, hr⟩ | ⟨he, hr⟩ | ⟨src, hr⟩ := tokenStep_cases hp hst hroom
          · rw [hr] at hu
            cases hu
            have hns := narrow_tokenSpan hopen.win hwf
            have hls := length_tokenSpan_le (w := s.dec.win) hwf
            have hne := tokenSpan_ne_nil s.dec.cfg s.dec.win t
            generalize tokenSpan s.dec.cfg s.dec.win t = span at *
            have hst' : (copySpan p span (s.setIn src br)).dec.state = .midStream := hst
            have hovf' := copySpan_ovf p span (s.setIn src br) ho
            refine ⟨rfl, ⟨Window.wf_writeBytes h.mem _, fun _ => ⟨fun _ => ⟨hopen.cfg,
              Window.narrow_writeBytes h.mem hopen.win hns, ?_⟩, hi,
              fun hs => absurd hst' hs, fun _ => hbr,
              fun hs => (by cases hst'.symm.trans hs)⟩, h.fault, h.code⟩, ?_⟩
            · rw [hovf']
              have := length_drop_accepts hroom span hne
              refine ⟨?_, narrow_drop hns _⟩
              show _ ≤ s.dec.cfg.maxLen - 1
              omega
            · intro q hq
              have hq' : some _ = some q := (copySpan_pull p span (s.setIn src br)).symm.trans hq
              cases hq'
              exact ⟨fun hs => (by cases hst'.symm.trans hs), Pull.fits_append hfit span,
                fun hs => (by cases hst'.symm.trans hs), narrow_append hnar (narrow_take hns _)⟩
          · rw [hr] at hu
            cases hu
            refine ⟨rfl, ⟨h.mem, fun _ => ⟨fun _ => ⟨hopen.cfg, hopen.win, hopen.ovf⟩, BitReader.inv_eos _ _, fun _ => ho,
              fun hs => (by rcases hs with hs | hs <;> cases hs), fun _ => rfl⟩, ?_, h.code⟩, ?_⟩
            · exact ⟨fun hs => (by cases hs), fun hs => absurd hnone hs⟩
            · intro q hq
              have hq' : some p = some q := hp.symm.trans hq
              cases hq'
              exact ⟨fun hs => (by cases hs), hfit, fun hs => (by cases hs), hnar⟩
          · have := hsound.eos.1 (.inr hst)
            rw [he] at this
            cases this
          · rw [hr] at hu
            cases hu
            exact ⟨rfl, Decompressor.inv_unspecified _, pullSound_none rfl⟩
        · rw [if_neg ho] at hu
          cases hu
          have hst' : (drainOverflow p s).dec.state = .midStream := hst
          refine ⟨rfl, ⟨h.mem, fun _ => ⟨fun _ => ⟨hopen.cfg, hopen.win, ?_⟩, hsound.br,
            fun hs => absurd hst' hs, fun _ => hsound.eos.1 (.inr hst),
            fun hs => (by cases hst'.symm.trans hs)⟩, h.fault, h.code⟩, ?_⟩
          · refine ⟨?_, narrow_drop hopen.ovf.2 _⟩
            show (s.dec.ovf.drop _).length ≤ _
            have := hopen.ovf.1
            rw [List.length_drop]
            show _ ≤ s.dec.cfg.maxLen - 1
            omega
          · intro q hq
            cases hq
            exact ⟨fun hs => (by cases hst'.symm.trans hs), Pull.fits_append hfit s.dec.ovf,
              fun hs => (by cases hst'.symm.trans hs), narrow_append hnar (narrow_take hopen.ovf.2 _)⟩
      · rw [if_neg hroom] at hu
        cases hu
        exact ⟨rfl, h, pullSound_none rfl⟩
    | finished =>
      rw [hst] at hu
      have ho : s.dec.ovf = [] := hsound.ovfEmpty (by rw [hst]; simp)
      simp only [ho, ne_eq, not_true_eq_false, decide_false, Bool.and_false, Bool.false_eq_true, if_false] at hu
      cases hu
      exact ⟨rfl, h, pullSound_none rfl⟩

end Sys2Proof.Machine
end

