-- ==== Sys2Proof/Laws/Owed.lean ====
section
/-! SUPPORT. DEC.DECOMPRESS by what the engine still owes: each step moves bytes from what is owed to the output,
and the operation returns as many of them as its limit allows. -/

namespace Sys2Proof.Machine

theorem owed_hdrPending {s : State} {h : Nat} {rest : Bits} {c : Cfg} (hs : s.dec.state = .hdrPending)
    (hh : takeField 8 s.unreadBits = some (h, rest)) (hc : decodeConfig (BitVec.ofNat 8 h) = some c) :
    s.owed = s.dec.ovf ++ expand c (Window.fresh c.cap s.dec.win) (tokensOf c rest) := by
  simp [State.owed, hs, hh, hc]

theorem owed_midStream {s : State} (hs : s.dec.state = .midStream) :
    s.owed = s.dec.ovf ++ expand s.dec.cfg s.dec.win (tokensOf s.dec.cfg s.unreadBits) := by
  simp [State.owed, hs]

theorem owed_finished {s : State} (hs : s.dec.state = .finished) : s.owed = s.dec.ovf := by
  simp [State.owed, hs]

theorem windowAtEnd_hdrPending {s : State} {h : Nat} {rest : Bits} {c : Cfg} (hs : s.dec.state = .hdrPending)
    (hh : takeField 8 s.unreadBits = some (h, rest)) (hc : decodeConfig (BitVec.ofNat 8 h) = some c) :
    s.windowAtEnd = Window.writeBytes c.cap (Window.fresh c.cap s.dec.win)
      (expand c (Window.fresh c.cap s.dec.win) (tokensOf c rest)) := by
  simp [State.windowAtEnd, hs, hh, hc]

theorem windowAtEnd_midStream {s : State} (hs : s.dec.state = .midStream) :
    s.windowAtEnd =
      Window.writeBytes s.dec.cfg.cap s.dec.win (expand s.dec.cfg s.dec.win (tokensOf s.dec.cfg s.unreadBits)) := by
  simp [State.windowAtEnd, hs]

theorem windowAtEnd_finished {s : State} (hs : s.dec.state = .finished) : s.windowAtEnd = s.dec.win := by
  simp [State.windowAtEnd, hs]

/-- One step over a source that ends cleanly: the output and what is owed stay the same bytes in all; the operation
ends only where nothing is owed or the output is full, and the stream ends only where nothing is owed and the output
has room (R261, R263, R269, R270). -/
theorem pullStep_readable {s : State} {p : Pull} (hp : s.pull = some p) (hfit : p.fits) (hR : s.Readable) :
    ∃ u, pullStep s = .next u ∧ u.Readable ∧ u.windowAtEnd = s.windowAtEnd ∧
      (u.dec.state = .finished → s.dec.state = .finished ∨ p.hasRoom = true ∧ s.owed = []) ∧
      ((∃ q, u.pull = some q ∧ q.limit = p.limit ∧ q.fits ∧ q.out ++ u.owed = p.out ++ s.owed) ∨
        (u.pull = none ∧ u.resp = .bytes p.out ∧ u.owed = s.owed ∧ u.dec.state = s.dec.state ∧
          (s.dec.state = .finished ∧ s.owed = [] ∨ p.hasRoom = false))) := by
  unfold pullStep
  rw [hp]
  simp only
  cases hst : s.dec.state with
  | faulted => exact absurd hst hR.state
  | hdrPending =>
    simp only
    obtain ⟨hc, he⟩ := hR.source (.inl hst)
    obtain ⟨h, rest, c, hh, hcfg⟩ := hR.header hst
    obtain ⟨src, br, hbr, hu, hcl, hstep⟩ := headerStep_good hp hst he hh hcfg
    have hu' : (openStream c (s.setIn src br)).unreadBits = rest := hu
    refine ⟨_, hstep, ⟨fun hf => (by cases hf), fun _ => ⟨hcl hc, hbr⟩, fun hf => (by cases hf)⟩, ?_,
      fun hf => (by cases hf), .inl ⟨p, hp, rfl, hfit, ?_⟩⟩
    · rw [windowAtEnd_hdrPending hst hh hcfg, windowAtEnd_midStream rfl, hu']
      rfl
    · rw [owed_hdrPending hst hh hcfg, owed_midStream (s := openStream c (s.setIn src br)) rfl, hu']
      rfl
  | midStream =>
    simp only
    obtain ⟨hc, he⟩ := hR.source (.inr hst)
    by_cases hr : p.hasRoom = true
    · rw [if_pos hr]
      by_cases ho : s.dec.ovf = []
      · rw [if_pos ho]
        cases ht : takeToken s.dec.cfg s.unreadBits with
        | none =>
          obtain ⟨src, hstep⟩ := tokenStep_none he hc ht
          refine ⟨_, hstep, ⟨fun hf => (by cases hf), fun hf => (by rcases hf with hf | hf <;> cases hf),
            fun hf => (by cases hf)⟩, ?_, fun _ => .inr ⟨hr, ?_⟩, .inl ⟨p, hp, rfl, hfit, ?_⟩⟩
          rotate_left
          · rw [owed_midStream hst, ho, tokensOf_nil ht, expand_nil, List.append_nil]
          rotate_left
          · rw [windowAtEnd_midStream hst, tokensOf_nil ht, windowAtEnd_finished rfl]
            rfl
          · rw [owed_midStream hst, tokensOf_nil ht, owed_finished (s := (s.setSource src).markEos.finish) rfl]
            rw [expand_nil, List.append_nil]
            rfl
        | some r =>
          obtain ⟨t, rest⟩ := r
          obtain ⟨src, br, hbr, hu, hcl, hstep⟩ := tokenStep_some hp hst hr he ht
          rw [tokensOf_cons ht |> fun e => owed_midStream hst |>.trans (by rw [e])]
          generalize hspan : tokenSpan s.dec.cfg s.dec.win t = span at *
          have hst' : (copySpan p span (s.setIn src br)).dec.state = .midStream := hst
          have hu' : (copySpan p span (s.setIn src br)).unreadBits = rest := hu
          refine ⟨_, hstep, ⟨fun hf => (by cases hst'.symm.trans hf), fun _ => ⟨hcl hc, hbr⟩,
            fun hf => (by cases hst'.symm.trans hf)⟩, ?_, fun hf => (by cases hst'.symm.trans hf), .inl
            ⟨_, copySpan_pull p span (s.setIn src br), rfl, Pull.fits_append hfit span, ?_⟩⟩
          · rw [windowAtEnd_midStream hst, tokensOf_cons ht, expand_cons, hspan, Window.writeBytes_append,
              windowAtEnd_midStream hst', hu']
            rfl
          · rw [owed_midStream hst', hu', copySpan_ovf p span (s.setIn src br) ho, ho, expand_cons, hspan]
            simp only [List.nil_append, List.append_assoc]
            congr 1
            rw [← List.append_assoc, List.take_append_drop]
            rfl
      · rw [if_neg ho]
        have hst' : (drainOverflow p s).dec.state = .midStream := hst
        refine ⟨_, rfl, ⟨fun hf => (by cases hst'.symm.trans hf), fun _ => ⟨hc, he⟩,
          fun hf => (by cases hst'.symm.trans hf)⟩, ?_, fun hf => (by cases hst'.symm.trans hf), .inl
          ⟨_, rfl, rfl, Pull.fits_append hfit s.dec.ovf, ?_⟩⟩
        · rw [windowAtEnd_midStream hst, windowAtEnd_midStream hst']
          rfl
        · rw [owed_midStream hst', owed_midStream hst]
          show _ ++ (s.dec.ovf.drop (p.accepts s.dec.ovf.length) ++ _) = _
          simp only [List.append_assoc]
          congr 1
          rw [← List.append_assoc, List.take_append_drop]
          rfl
    · rw [if_neg hr]
      have hst' : (closePull p s).dec.state = .midStream := hst
      refine ⟨_, rfl, ⟨hR.state, hR.source, hR.header⟩, ?_, fun hf => (by cases hst'.symm.trans hf),
        .inr ⟨rfl, rfl, ?_, hst', .inr (by simpa using hr)⟩⟩
      · rw [windowAtEnd_midStream hst, windowAtEnd_midStream hst']
        rfl
      · rw [owed_midStream hst, owed_midStream hst']
        rfl
  | finished =>
    simp only
    have howed := owed_finished hst
    by_cases hro : p.hasRoom = true ∧ s.dec.ovf ≠ []
    · rw [if_pos (by simpa using hro)]
      have hst' : (drainOverflow p s).dec.state = .finished := hst
      refine ⟨_, rfl, ⟨fun hf => (by cases hst'.symm.trans hf),
        fun hf => (by rcases hf with hf | hf <;> cases hst'.symm.trans hf),
        fun hf => (by cases hst'.symm.trans hf)⟩, ?_, fun _ => .inl trivial, .inl
        ⟨_, rfl, rfl, Pull.fits_append hfit s.dec.ovf, ?_⟩⟩
      · rw [windowAtEnd_finished hst, windowAtEnd_finished hst']
        rfl
      · rw [owed_finished hst', howed]
        show _ ++ s.dec.ovf.drop (p.accepts s.dec.ovf.length) = _
        simp only [List.append_assoc, List.take_append_drop]
    · rw [if_neg (by simpa using hro)]
      have hst' : (closePull p s).dec.state = .finished := hst
      refine ⟨_, rfl, ⟨hR.state, hR.source, hR.header⟩, ?_, fun _ => .inl trivial, .inr ⟨rfl, rfl, ?_, hst', ?_⟩⟩
      · rw [windowAtEnd_finished hst, windowAtEnd_finished hst']
        rfl
      · rw [howed, owed_finished hst']
        rfl
      · by_cases hr : p.hasRoom = true
        · refine .inl ⟨trivial, ?_⟩
          rw [howed]
          by_contra ho
          exact hro ⟨hr, ho⟩
        · exact .inr (by simpa using hr)

/-- A step of an operation whose stream has ended leaves it ended (R271). -/
theorem pullStep_finished {s u : State} {p : Pull} (hp : s.pull = some p) (hu : pullStep s = .next u)
    (hs : s.dec.state = .finished) : u.dec.state = .finished := by
  unfold pullStep at hu
  rw [hp] at hu
  simp only [hs] at hu
  split at hu <;> cases hu <;> exact hs

/-- The rest of the operation over a source that ends cleanly: it returns the output and, of what is owed, as much
as the limit allows, and the stream has then ended exactly where it had before or less is owed than that. -/
theorem pullLoop_readable (fuel : Nat) {s : State} {p : Pull} (hp : s.pull = some p) (hfit : p.fits)
    (hR : s.Readable) (hfuel : pullMeasure s ≤ fuel) :
    ∃ t k, pullLoop fuel s = .next t ∧ t.Readable ∧ t.pull = none ∧ t.windowAtEnd = s.windowAtEnd ∧
      t.resp = .bytes (p.out ++ s.owed.take k) ∧ t.owed = s.owed.drop k ∧
      k = p.accepts s.owed.length ∧
      (t.dec.state = .finished ↔
        s.dec.state = .finished ∨ ∀ l, p.limit = some l → p.out.length + s.owed.length < l) := by
  induction fuel generalizing s p with
  | zero =>
    have h1 : 1 ≤ pullMeasure s := by
      unfold pullMeasure
      rw [hp]
      simp only
      split
      · omega
      · split
        · split <;> omega
        · omega
      · split <;> omega
      · omega
    omega
  | succ fuel ih =>
    obtain ⟨u, hu, hRu, hwin, hfinish, h⟩ := pullStep_readable hp hfit hR
    rw [pullLoop, hp]
    simp only [hu]
    rcases h with ⟨q, hq, hlim, hfitq, hall⟩ | ⟨hn, hresp, howed, hst, hend⟩
    · obtain ⟨u', hu', -, -, -, hmu⟩ := pullStep_runs hp hR.state
      rw [hu] at hu'
      cases hu'
      rcases hmu with hmu | ⟨-, hmu⟩
      · rw [hq] at hmu
        cases hmu
      · obtain ⟨t, k, ht, hRt, hnt, hwt, hrt, hot, hk, hfin⟩ := ih hq hfitq hRu (by omega)
        have hlen := congrArg List.length hall
        simp only [List.length_append] at hlen
        -- the bytes moved to the output by this step
        refine ⟨t, p.accepts s.owed.length, ht, hRt, hnt, hwt.trans hwin, ?_, ?_, rfl, ?_⟩
        · rw [hrt]
          congr 1
          have e1 : q.out ++ u.owed.take k = (q.out ++ u.owed).take (q.out.length + k) := by
            rw [List.take_length_add_append]
          have e2 : p.out ++ s.owed.take (p.accepts s.owed.length) =
              (p.out ++ s.owed).take (p.out.length + p.accepts s.owed.length) := by
            rw [List.take_length_add_append]
          rw [e1, e2, hall]
          rw [hk]
          unfold Pull.accepts Pull.room
          rw [hlim]
          cases hl : p.limit with
          | none =>
            simp only [Option.map_none]
            rw [hlen]
          | some l =>
            have h1 := hfit l hl
            have h2 := hfitq l (hlim.trans hl)
            simp only [Option.map_some]
            congr 1
            omega
        · have e1 : u.owed.drop k = (q.out ++ u.owed).drop (q.out.length + k) := by
            rw [List.drop_length_add_append]
          have e2 : s.owed.drop (p.accepts s.owed.length) =
              (p.out ++ s.owed).drop (p.out.length + p.accepts s.owed.length) := by
            rw [List.drop_length_add_append]
          rw [hot, e1, e2, hall, hk]
          unfold Pull.accepts Pull.room
          rw [hlim]
          cases hl : p.limit with
          | none =>
            simp only [Option.map_none]
            rw [hlen]
          | some l =>
            have h1 := hfit l hl
            have h2 := hfitq l (hlim.trans hl)
            simp only [Option.map_some]
            congr 1
            omega
        · have hrest : (∀ l, q.limit = some l → q.out.length + u.owed.length < l) ↔
              ∀ l, p.limit = some l → p.out.length + s.owed.length < l := by rw [hlim, hlen]
          rw [hfin, hrest]
          refine ⟨fun h => ?_, fun h => h.imp_left (pullStep_finished hp hu)⟩
          rcases h with h | h
          · refine (hfinish h).imp_right fun ⟨hr, h0⟩ l hl => ?_
            rw [h0, List.length_nil, Nat.add_zero]
            simpa [Pull.hasRoom, hl] using hr
          · exact .inr h
    · refine ⟨u, p.accepts s.owed.length, pullLoop_none _ hn, hRu, hn, hwin, ?_, ?_, rfl, ?_⟩
      · rw [hresp]
        rcases hend with ⟨-, h0⟩ | hfull
        · simp [h0]
        · have hl := Pull.length_of_full hfit hfull
          simp [Pull.accepts, Pull.room, hl]
      · rw [howed]
        rcases hend with ⟨-, h0⟩ | hfull
        · simp [h0]
        · have hl := Pull.length_of_full hfit hfull
          simp [Pull.accepts, Pull.room, hl]
      · rw [hst]
        rcases hend with ⟨hf, -⟩ | hfull
        · exact ⟨.inl, fun _ => hf⟩
        · refine ⟨.inl, fun h => h.resolve_right fun hlt => ?_⟩
          have := hlt _ (Pull.length_of_full hfit hfull)
          omega

/-- DEC.DECOMPRESS over a source that ends cleanly returns the first bytes owed, as many as max_size allows, and
leaves the rest owed; the stream has ended exactly where it had before or fewer than max_size are owed (R261, R263,
R273, R304). -/
theorem execDecDecompress_readable (maxSize : Int) {s : State} (hp : s.pull = none) (hR : s.Readable) :
    ∃ t k, execDecDecompress maxSize s = .next t ∧ t.Readable ∧ t.pull = none ∧ t.windowAtEnd = s.windowAtEnd ∧
      t.cmp = s.cmp ∧ t.sink = s.sink ∧ t.pending = s.pending ∧
      t.resp = .bytes (s.owed.take k) ∧ t.owed = s.owed.drop k ∧
      k = (if maxSize < 0 then s.owed.length else min s.owed.length maxSize.toNat) ∧
      (t.dec.state = .finished ↔ s.dec.state = .finished ∨ maxSize < 0 ∨ s.owed.length < maxSize.toNat) := by
  obtain ⟨t', ht', hc, hk, hpe, -⟩ := execDecDecompress_runs maxSize hp hR.state
  unfold execDecDecompress at ht' ⊢
  rw [hp] at ht' ⊢
  simp only [if_neg hR.state] at ht' ⊢
  obtain ⟨t, k, ht, hRt, hn, hw, hr, ho, hkk, hf⟩ := pullLoop_readable (bitsLeft s + 4)
    (s := openPull maxSize s) (p := { limit := limitOf maxSize, out := [] }) rfl (fun l _ => Nat.zero_le _)
    ⟨hR.state, hR.source, hR.header⟩ (pullMeasure_le (openPull maxSize s))
  have hto : (openPull maxSize s).owed = s.owed := rfl
  have htw : (openPull maxSize s).windowAtEnd = s.windowAtEnd := rfl
  rw [ht'] at ht
  cases ht
  refine ⟨t', k, ht', hRt, hn, hw, hc, hk, hpe, by simpa [hto] using hr, by simpa [hto] using ho, ?_, ?_⟩
  · rw [hkk, hto]
    unfold Pull.accepts Pull.room limitOf
    by_cases hm : maxSize < 0
    · simp [hm]
    · simp [hm]
  · rw [hf, hto]
    refine or_congr_right ?_
    unfold limitOf
    by_cases hm : maxSize < 0
    · simp [hm]
    · simp [hm]

end Sys2Proof.Machine
end

