-- ==== Sys2Proof/Laws/PerInstr.lean ====
section
/-! SUPPORT. What is said of each instruction as syntax, one lemma per constructor. -/

namespace Sys2Proof.Laws.Wire

/-- The encoder gives an instruction a wire exactly where the spec gives it a code (R106, R107), under every
configuration. -/
def Statement (i : Instr) : Prop := ∀ c : Cfg, (encode c i).isSome = i.hasWire

theorem header (w : BitVec 3) (s : BitVec 2) (l : BitVec 2) : Statement (.header w s l) := fun _ => rfl
theorem literal (v : Byte) : Statement (.literal v) := fun _ => rfl
theorem reference (pos : BitVec 15) (n : BitVec 7) : Statement (.reference pos n) := fun _ => rfl
theorem pad (k : BitVec 3) : Statement (.pad k) := fun _ => rfl
theorem cmpInit (wb sb lb : Nat) : Statement (.cmpInit wb sb lb) := fun _ => rfl
theorem cmpCompress (data : List Byte) : Statement (.cmpCompress data) := fun _ => rfl
theorem cmpFlush : Statement .cmpFlush := fun _ => rfl
theorem cmpReserved : Statement .cmpReserved := fun _ => rfl
theorem decInit : Statement .decInit := fun _ => rfl
theorem decDecompress (maxSize : Int) : Statement (.decDecompress maxSize) := fun _ => rfl
theorem decReserved (x : BitVec 1) : Statement (.decReserved x) := fun _ => rfl
theorem bwWrite (value n : Nat) : Statement (.bwWrite value n) := fun _ => rfl
theorem bwFlush : Statement .bwFlush := fun _ => rfl
theorem brRead (n : Nat) : Statement (.brRead n) := fun _ => rfl
theorem winWriteByte (e : Engine) (b : Nat) : Statement (.winWriteByte e b) := fun _ => rfl
theorem winWriteBytes (e : Engine) (seq : List Byte) : Statement (.winWriteBytes e seq) := fun _ => rfl
theorem winSearch (pattern : List Byte) (start : Nat) : Statement (.winSearch pattern start) := fun _ => rfl
theorem winReadSpan (pos len : Nat) : Statement (.winReadSpan pos len) := fun _ => rfl
theorem hdrEncode (wb sb lb : Nat) : Statement (.hdrEncode wb sb lb) := fun _ => rfl
theorem hdrDecode (h : Byte) : Statement (.hdrDecode h) := fun _ => rfl

end Sys2Proof.Laws.Wire
end

