-- ==== Sys2Proof/Laws/Sink.lean ====
section
/-! SUPPORT. What the compressor engine's operations ask of the sink: which of its answers they use, and that they
leave the other engine alone. -/

namespace Sys2Proof.Machine

/-- From s to t the sink has given some answers, none of them a failure. -/
def SinkServed (s t : State) : Prop := ∃ used, s.sink.answers = used ++ t.sink.answers ∧ .fails ∉ used

/-- From s to t the sink has given some answers, of which the last alone is a failure. -/
def SinkFailed (s t : State) : Prop := ∃ used, s.sink.answers = used ++ .fails :: t.sink.answers ∧ .fails ∉ used

theorem SinkServed.refl (s : State) : SinkServed s s := ⟨[], rfl, by simp⟩

theorem SinkServed.trans {s t u : State} (h : SinkServed s t) (g : SinkServed t u) : SinkServed s u := by
  obtain ⟨a, h1, h2⟩ := h
  obtain ⟨b, g1, g2⟩ := g
  exact ⟨a ++ b, by rw [h1, g1, List.append_assoc], by simp [h2, g2]⟩

theorem SinkServed.failed {s t u : State} (h : SinkServed s t) (g : SinkFailed t u) : SinkFailed s u := by
  obtain ⟨a, h1, h2⟩ := h
  obtain ⟨b, g1, g2⟩ := g
  exact ⟨a ++ b, by rw [h1, g1, List.append_assoc], by simp [h2, g2]⟩

/-- The other engine, its source and its operation, and the host's events are as before. -/
def SameBeside (s t : State) : Prop :=
  t.dec = s.dec ∧ t.source = s.source ∧ t.pull = s.pull ∧ t.pending = s.pending

theorem SameBeside.trans {s t u : State} (h : SameBeside s t) (g : SameBeside t u) : SameBeside s u :=
  ⟨g.1.trans h.1, g.2.1.trans h.2.1, g.2.2.1.trans h.2.2.1, g.2.2.2.trans h.2.2.2⟩

/-- An operation of the compressor engine ends with SinkError exactly where an access of its own failed (R137,
R234), and changes nothing beside the engine and the sink. -/
structure SinkTrue {α : Type} (s : State) (x : Result α) : Prop where
  ok : ∀ a t, x = .ok a t → SinkServed s t ∧ SameBeside s t
  fault : ∀ f t, x = .fault f t →
    (f = .sinkError ∧ SinkFailed s t ∧ t.cmp.state = .faulted ∧ t.cmp.fault = .sinkError ∨
      f ≠ .sinkError ∧ SinkServed s t) ∧ SameBeside s t

theorem SinkTrue.bind {α β : Type} {s : State} {x : Result α} {k : α → State → Result β} (h : SinkTrue s x)
    (hk : ∀ a t, x = .ok a t → SinkTrue t (k a t)) : SinkTrue s (x.bind k) := by
  cases x with
  | ok a u =>
    obtain ⟨h1, h2⟩ := h.ok a u rfl
    have hu := hk a u rfl
    refine ⟨fun b t e => ?_, fun f t e => ?_⟩
    · obtain ⟨g1, g2⟩ := hu.ok b t e
      exact ⟨h1.trans g1, h2.trans g2⟩
    · obtain ⟨g1, g2⟩ := hu.fault f t e
      refine ⟨?_, h2.trans g2⟩
      rcases g1 with ⟨e1, e2, e3⟩ | ⟨e1, e2⟩
      · exact .inl ⟨e1, h1.failed e2, e3⟩
      · exact .inr ⟨e1, h1.trans e2⟩
  | fault f u =>
    refine ⟨fun b t e => (by cases e), fun f' t e => ?_⟩
    cases e
    exact h.fault f u rfl
  | refused r => exact ⟨fun b t e => (by cases e), fun f' t e => (by cases e)⟩

theorem sinkTrue_ok {α : Type} (a : α) {s t : State} (h : t.sink = s.sink) (hb : SameBeside s t) :
    SinkTrue s (Result.ok a t) := by
  refine ⟨fun b u e => ?_, fun f' u e => (by cases e)⟩
  cases e
  exact ⟨⟨[], by rw [h]; rfl, by simp⟩, hb⟩

theorem sinkTrue_fault {α : Type} (f : FaultInfo) (hf : f ≠ .sinkError) {s t : State} (h : t.sink = s.sink)
    (hb : SameBeside s t) : SinkTrue s (Result.fault f t : Result α) := by
  refine ⟨fun b u e => (by cases e), fun f' u e => ?_⟩
  cases e
  exact ⟨.inr ⟨hf, ⟨[], by rw [h]; rfl, by simp⟩⟩, hb⟩

theorem sinkTrue_refused {α : Type} (r : Refusal) {s : State} : SinkTrue s (Result.refused r : Result α) :=
  ⟨fun b u e => (by cases e), fun f' u e => (by cases e)⟩

theorem sinkTrue_sinkPut (b : Byte) (s : State) : SinkTrue s (sinkPut b s) := by
  unfold sinkPut
  cases ha : s.sink.answers with
  | nil =>
    refine ⟨fun a t e => ?_, fun f' t e => (by cases e)⟩
    cases e
    exact ⟨⟨[], by simp, by simp⟩, rfl, rfl, rfl, rfl⟩
  | cons a rest =>
    cases a with
    | accepts =>
      refine ⟨fun a t e => ?_, fun f' t e => (by cases e)⟩
      cases e
      exact ⟨⟨[.accepts], by rw [ha]; rfl, by simp⟩, rfl, rfl, rfl, rfl⟩
    | fails =>
      refine ⟨fun a t e => (by cases e), fun f' t e => ?_⟩
      cases e
      exact ⟨.inl ⟨rfl, ⟨[], by rw [ha]; rfl, by simp⟩, rfl, rfl⟩, rfl, rfl, rfl, rfl⟩

theorem sinkTrue_putBytes (q t m : Nat) (s : State) : SinkTrue s (putBytes q t m s) := by
  induction q generalizing m s with
  | zero => exact sinkTrue_ok () rfl ⟨rfl, rfl, rfl, rfl⟩
  | succ q ih =>
    rw [putBytes]
    exact (sinkTrue_sinkPut _ s).bind fun _ t _ => ih _ t

theorem sinkTrue_bwWrite (value n : Nat) (s : State) : SinkTrue s (bwWrite value n s) := by
  unfold bwWrite
  split
  · exact sinkTrue_refused _
  · split
    · exact sinkTrue_refused _
    · exact sinkTrue_putBytes _ _ _ s

theorem sinkTrue_bwFlush (s : State) : SinkTrue s (bwFlush s) := by
  unfold bwFlush
  split
  · exact sinkTrue_refused _
  · split
    · exact sinkTrue_ok () rfl ⟨rfl, rfl, rfl, rfl⟩
    · exact (sinkTrue_sinkPut _ s).bind fun _ _ _ => sinkTrue_ok () rfl ⟨rfl, rfl, rfl, rfl⟩

theorem sinkTrue_emitToken (rest : List Byte) (ipos : Nat) (s : State) : SinkTrue s (emitToken rest ipos s) := by
  unfold emitToken
  split
  · exact sinkTrue_ok _ rfl ⟨rfl, rfl, rfl, rfl⟩
  · split
    split
    · refine SinkTrue.bind ?_ fun _ _ _ => sinkTrue_ok _ rfl ⟨rfl, rfl, rfl, rfl⟩
      unfold emitReference
      exact (sinkTrue_bwWrite _ _ _).bind fun _ _ _ => (sinkTrue_bwWrite _ _ _).bind fun _ _ _ =>
        sinkTrue_bwWrite _ _ _
    · refine SinkTrue.bind ?_ fun _ _ _ => sinkTrue_ok _ rfl ⟨rfl, rfl, rfl, rfl⟩
      unfold emitLiteral
      split
      · exact sinkTrue_fault _ (by simp) rfl ⟨rfl, rfl, rfl, rfl⟩
      · exact (sinkTrue_bwWrite _ _ _).bind fun _ _ _ => sinkTrue_bwWrite _ _ _

theorem sinkTrue_compressLoop (k : Nat) (rest : List Byte) (ipos : Nat) (s : State) :
    SinkTrue s (compressLoop k rest ipos s) := by
  induction k generalizing rest ipos s with
  | zero => exact sinkTrue_ok _ rfl ⟨rfl, rfl, rfl, rfl⟩
  | succ k ih =>
    cases rest with
    | nil => exact sinkTrue_ok _ rfl ⟨rfl, rfl, rfl, rfl⟩
    | cons b bs =>
      rw [compressLoop]
      exact (sinkTrue_emitToken _ _ _).bind fun _ _ _ => ih _ _ _

theorem sinkTrue_compressChunk (data : List Byte) (s : State) : SinkTrue s (compressChunk data s) := by
  unfold compressChunk
  split
  · exact sinkTrue_compressLoop _ _ _ _
  · exact sinkTrue_refused _

theorem sinkTrue_initCompressor (wb sb lb : Nat) (s : State) : SinkTrue s (initCompressor wb sb lb s) := by
  cases h : configLegal wb sb lb with
  | false =>
    rw [initCompressor_illegal h]
    exact sinkTrue_fault _ (by simp) rfl ⟨rfl, rfl, rfl, rfl⟩
  | true =>
    rw [initCompressor_legal h]
    have hp := sinkTrue_sinkPut (headerByte wb sb lb) { s with cmp := s.cmp.init (Cfg.ofNats wb sb lb) }
    have hp' : SinkTrue s
        (sinkPut (headerByte wb sb lb) { s with cmp := s.cmp.init (Cfg.ofNats wb sb lb) }) := ⟨hp.ok, hp.fault⟩
    exact hp'.bind fun _ _ _ => sinkTrue_ok _ rfl ⟨rfl, rfl, rfl, rfl⟩

theorem sinkTrue_flushCompressor (s : State) : SinkTrue s (flushCompressor s) := by
  unfold flushCompressor
  split
  · exact (sinkTrue_bwFlush s).bind fun _ _ _ => sinkTrue_ok _ rfl ⟨rfl, rfl, rfl, rfl⟩
  · exact sinkTrue_refused _

end Sys2Proof.Machine
end

