-- ==== Sys2Proof/Laws/Source.lean ====
section
/-! SUPPORT. What the decompressor engine's operations ask of the source: which of its answers they use, and where
they end with SourceError. -/

namespace Sys2Proof.Machine

/-- From s to t the source has given some answers, none of them a failure. -/
def SourceServed (s t : State) : Prop := ∃ used, s.source.answers = used ++ t.source.answers ∧ .fails ∉ used

/-- From s to t the source has given some answers, of which the last alone is a failure. -/
def SourceFailed (s t : State) : Prop := ∃ used, s.source.answers = used ++ .fails :: t.source.answers ∧ .fails ∉ used

theorem SourceServed.refl (s : State) : SourceServed s s := ⟨[], rfl, by simp⟩

theorem SourceServed.of_eq {s t : State} (h : t.source.answers = s.source.answers) : SourceServed s t :=
  ⟨[], by rw [h]; rfl, by simp⟩

theorem SourceServed.trans {s t u : State} (h : SourceServed s t) (g : SourceServed t u) : SourceServed s u := by
  obtain ⟨a, h1, h2⟩ := h
  obtain ⟨b, g1, g2⟩ := g
  exact ⟨a ++ b, by rw [h1, g1, List.append_assoc], by simp [h2, g2]⟩

theorem SourceServed.failed {s t u : State} (h : SourceServed s t) (g : SourceFailed t u) : SourceFailed s u := by
  obtain ⟨a, h1, h2⟩ := h
  obtain ⟨b, g1, g2⟩ := g
  exact ⟨a ++ b, by rw [h1, g1, List.append_assoc], by simp [h2, g2]⟩

/-- An operation of the Bit Reader ends with SourceError exactly where an access of its own failed (R156). -/
structure SourceTrue {α : Type} (s : State) (x : Result α) : Prop where
  ok : ∀ a t, x = .ok a t → SourceServed s t
  fault : ∀ f t, x = .fault f t →
    f = .sourceError ∧ SourceFailed s t ∧ t.dec.state = .faulted ∧ t.dec.fault = .sourceError ∧ t.pull = none ∧
        t.resp = .fault .sourceError ∨
      f = .endOfStream ∧ SourceServed s t

theorem SourceTrue.bind {α β : Type} {s : State} {x : Result α} {k : α → State → Result β} (h : SourceTrue s x)
    (hk : ∀ a t, x = .ok a t → SourceTrue t (k a t)) : SourceTrue s (x.bind k) := by
  cases x with
  | ok a u =>
    have h1 := h.ok a u rfl
    have hu := hk a u rfl
    refine ⟨fun b t e => h1.trans (hu.ok b t e), fun f t e => ?_⟩
    rcases hu.fault f t e with ⟨e1, e2, e3⟩ | ⟨e1, e2⟩
    · exact .inl ⟨e1, h1.failed e2, e3⟩
    · exact .inr ⟨e1, h1.trans e2⟩
  | fault f u =>
    refine ⟨fun b t e => (by cases e), fun f' t e => ?_⟩
    cases e
    exact h.fault f u rfl
  | refused r => exact ⟨fun b t e => (by cases e), fun f' t e => (by cases e)⟩

theorem sourceTrue_ok {α : Type} (a : α) {s t : State} (h : t.source.answers = s.source.answers) :
    SourceTrue s (Result.ok a t) := by
  refine ⟨fun b u e => ?_, fun f' u e => (by cases e)⟩
  cases e
  exact SourceServed.of_eq h

theorem sourceTrue_pullBytes (k t : Nat) (s : State) : SourceTrue s (pullBytes k t s) := by
  induction k generalizing t s with
  | zero => exact sourceTrue_ok t rfl
  | succ k ih =>
    rw [pullBytes]
    cases ha : s.source.answers with
    | nil =>
      simp only [sourceGet, ha]
      refine ⟨fun _ _ e => (by cases e), fun f u e => ?_⟩
      cases e
      exact .inr ⟨rfl, SourceServed.of_eq rfl⟩
    | cons a rest =>
      cases a with
      | byte b =>
        simp only [sourceGet, ha]
        have h := ih (t * 256 + b.toNat)
          { s with source := { answers := rest, delivered := s.source.delivered + 1 } }
        have h1 : SourceServed s { s with source := { answers := rest, delivered := s.source.delivered + 1 } } :=
          ⟨[.byte b], ha, by simp⟩
        refine ⟨fun v u e => h1.trans (h.ok v u e), fun f u e => ?_⟩
        rcases h.fault f u e with ⟨e1, e2, e3⟩ | ⟨e1, e2⟩
        · exact .inl ⟨e1, h1.failed e2, e3⟩
        · exact .inr ⟨e1, h1.trans e2⟩
      | exhausted =>
        simp only [sourceGet, ha]
        refine ⟨fun _ _ e => (by cases e), fun f u e => ?_⟩
        cases e
        exact .inr ⟨rfl, [.exhausted], ha, by simp⟩
      | fails =>
        simp only [sourceGet, ha]
        refine ⟨fun _ _ e => (by cases e), fun f u e => ?_⟩
        cases e
        exact .inl ⟨rfl, ⟨[], ha, by simp⟩, rfl, rfl, rfl, rfl⟩

theorem sourceTrue_brRead (n : Nat) (s : State) : SourceTrue s (brRead n s) := by
  unfold brRead
  split
  · exact ⟨fun _ _ e => (by cases e), fun _ _ e => (by cases e)⟩
  · split
    · refine ⟨fun _ _ e => (by cases e), fun f u e => ?_⟩
      cases e
      exact .inr ⟨rfl, SourceServed.refl s⟩
    · exact (sourceTrue_pullBytes _ _ _).bind fun _ _ _ => sourceTrue_ok _ rfl

theorem sourceTrue_fetchToken (s : State) : SourceTrue s (fetchToken s) := by
  unfold fetchToken
  refine (sourceTrue_brRead 1 s).bind fun _ _ _ => ?_
  split
  · exact (sourceTrue_brRead _ _).bind fun _ _ _ => sourceTrue_ok _ rfl
  · exact (sourceTrue_brRead _ _).bind fun _ _ _ => (sourceTrue_brRead _ _).bind fun _ _ _ => sourceTrue_ok _ rfl

/-- One step of a DEC.DECOMPRESS goes on with a source that has not failed, or ends with SourceError at an access
that has (R276). -/
theorem pullStep_source {s u : State} (hu : pullStep s = .next u) :
    (SourceServed s u ∧ (u.pull ≠ none ∨ u.resp ≠ .fault .sourceError)) ∨
      (SourceFailed s u ∧ u.dec.state = .faulted ∧ u.dec.fault = .sourceError ∧ u.pull = none ∧
        u.resp = .fault .sourceError) := by
  unfold pullStep at hu
  cases hp : s.pull with
  | none => rw [hp] at hu; cases hu
  | some p =>
    rw [hp] at hu
    simp only at hu
    cases hst : s.dec.state with
    | faulted => rw [hst] at hu; cases hu
    | hdrPending =>
      rw [hst] at hu
      simp only at hu
      have hbr := sourceTrue_brRead 8 s
      unfold headerStep at hu
      cases hr : brRead 8 s with
      | refused r => rw [hr] at hu; cases hu
      | fault f t =>
        rw [hr] at hu
        rcases hbr.fault f t hr with ⟨rfl, h1, h2⟩ | ⟨rfl, h1⟩
        · simp only [reduceCtorEq, if_false] at hu
          cases hu
          exact .inr ⟨h1, h2.1, h2.2.1, h2.2.2.1, h2.2.2.2⟩
        · simp only [if_true] at hu
          cases hu
          exact .inl ⟨h1, .inr (by simp [enterFault])⟩
      | ok h t =>
        rw [hr] at hu
        have h1 := hbr.ok h t hr
        have hpt : t.pull = some p := by
          obtain ⟨v, src, br, -, -, -, -, e⟩ | ⟨src, e⟩ | ⟨-, e⟩ | ⟨src, e⟩ := brRead_in 8 s (by decide) <;>
            rw [hr] at e <;> cases e
          exact hp
        simp only at hu
        split at hu
        · unfold execHeader inPull at hu
          rw [hpt] at hu
          simp only at hu
          split at hu
          · cases hu
            exact .inl ⟨h1, .inl (by show t.pull ≠ none; rw [hpt]; simp)⟩
          · cases hu
        · cases hu
          exact .inl ⟨h1, .inr (by simp [enterFault])⟩
    | midStream =>
      rw [hst] at hu
      simp only at hu
      by_cases hroom : p.hasRoom = true
      · rw [if_pos hroom] at hu
        by_cases ho : s.dec.ovf = []
        · rw [if_pos ho] at hu
          have hf := sourceTrue_fetchToken s
          unfold tokenStep at hu
          obtain ⟨t, src, br, hwf, -, -, -, e⟩ | ⟨src, e⟩ | ⟨-, e⟩ | ⟨src, e⟩ := fetchToken_cases s
          · rw [e] at hu
            have h1 := hf.ok _ _ e
            simp only at hu
            rw [runToken_span (s := s.setIn src br) hp hst hroom hwf] at hu
            cases hu
            exact .inl ⟨h1, .inl (by simp)⟩
          · rw [e] at hu
            rcases hf.fault _ _ e with ⟨h0, -⟩ | ⟨-, h1⟩
            · cases h0
            · cases hu
              exact .inl ⟨h1, .inl (by show s.pull ≠ none; rw [hp]; simp)⟩
          · rw [e] at hu
            cases hu
            exact .inl ⟨SourceServed.refl s, .inl (by show s.pull ≠ none; rw [hp]; simp)⟩
          · rw [e] at hu
            rcases hf.fault _ _ e with ⟨-, h1, h2⟩ | ⟨h0, -⟩
            · cases hu
              exact .inr ⟨h1, h2.1, h2.2.1, h2.2.2.1, h2.2.2.2⟩
            · cases h0
        · rw [if_neg ho] at hu
          cases hu
          exact .inl ⟨SourceServed.of_eq rfl, .inl (by simp [drainOverflow])⟩
      · rw [if_neg hroom] at hu
        cases hu
        exact .inl ⟨SourceServed.of_eq rfl, .inr (by simp [closePull])⟩
    | finished =>
      rw [hst] at hu
      simp only at hu
      split at hu
      · cases hu
        exact .inl ⟨SourceServed.of_eq rfl, .inl (by simp [drainOverflow])⟩
      · cases hu
        exact .inl ⟨SourceServed.of_eq rfl, .inr (by simp [closePull])⟩

/-- The whole operation ends with SourceError exactly where an access of its own failed (R276). -/
theorem pullLoop_source (fuel : Nat) {s t : State} (hp : s.pull ≠ none) (h : pullLoop fuel s = .next t) :
    (SourceServed s t ∧ t.resp ≠ .fault .sourceError) ∨
      (SourceFailed s t ∧ t.dec.state = .faulted ∧ t.dec.fault = .sourceError ∧ t.pull = none ∧
        t.resp = .fault .sourceError) := by
  induction fuel generalizing s with
  | zero =>
    cases hq : s.pull with
    | none => exact absurd hq hp
    | some p => simp [pullLoop, hq] at h
  | succ fuel ih =>
    cases hq : s.pull with
    | none => exact absurd hq hp
    | some p =>
      rw [pullLoop, hq] at h
      simp only at h
      cases hstep : pullStep s with
      | fault f => rw [hstep] at h; cases h
      | refused r => rw [hstep] at h; cases h
      | next u =>
        rw [hstep] at h
        simp only at h
        rcases pullStep_source hstep with ⟨h1, h2⟩ | ⟨h1, h2, h3, h4, h5⟩
        · by_cases hu : u.pull = none
          · rw [pullLoop_none _ hu] at h
            cases h
            exact .inl ⟨h1, h2.resolve_left fun h => h hu⟩
          · rcases ih hu h with ⟨g1, g2⟩ | ⟨g1, g2⟩
            · exact .inl ⟨h1.trans g1, g2⟩
            · exact .inr ⟨h1.failed g1, g2⟩
        · rw [pullLoop_none _ h4] at h
          cases h
          exact .inr ⟨h1, h2, h3, h4, h5⟩

end Sys2Proof.Machine
end

