-- ==== Sys2Proof/Tests/Slice0.lean ====
section
/-! SUPPORT. Tests of single steps, with results from spec/95_test_vectors.md and the examples of the rules; the
smoke tests of WellFormed; and for each obligation with hypotheses a witness that meets them. -/

namespace Sys2Proof.Tests

open Sys2Proof.Machine

/-! ## Small states -/

/-- The state an outcome holds, where it is a next state. -/
def got (o : Host.Outcome State Fault Refusal) : Option State :=
  match o with
  | .next s => some s
  | .fault _ => none
  | .refused _ => none

/-- The reason of a refusal. -/
def why (o : Host.Outcome State Fault Refusal) : Option Refusal :=
  match o with
  | .next _ => none
  | .fault _ => none
  | .refused r => some r

/-- Bytes from numbers. -/
def bytes (l : List Nat) : List Byte := l.map (BitVec.ofNat 8)

/-- Reset, with bits pending in the Bit Writer and the sink's next answers. -/
def writing (acc : BitVec 7) (nbits : BitVec 3) (answers : List SinkAnswer) : State :=
  { State.reset with
    cmp := { Compressor.reset with bw := { acc := acc, nbits := nbits, flushed := false } }
    sink := { taken := [], answers := answers } }

/-- A compressor engine in ACTIVE with a configuration, an empty Bit Writer and a new window. -/
def active (wb sb lb : Nat) : State :=
  { State.reset with cmp := { Compressor.reset with cfg := Cfg.ofNats wb sb lb, state := .active } }

/-- Reset, with a compressor engine in another state. -/
def cmpIn (st : CmpState) (ft : FaultCode) : State :=
  { State.reset with cmp := { Compressor.reset with state := st, fault := ft } }

/-- A compressor engine after CMP.FLUSH. -/
def flushed : State :=
  { State.reset with
    cmp := { Compressor.reset with bw := { acc := 0, nbits := 0, flushed := true }, state := .flushed } }

/-- The window of N2: 66 6F 6F 20, cursor 4. -/
def fooWindow : Window := { buf := [(0, 0x66), (1, 0x6F), (2, 0x6F), (3, 0x20)], cur := 4 }

/-- Both engines with the window of N2 and the defaults. -/
def foo : State :=
  { State.reset with
    cmp := { Compressor.reset with win := fooWindow }, dec := { Decompressor.reset with win := fooWindow } }

/-- A source that delivers these bytes and is then exhausted. -/
def fed (l : List Nat) : State :=
  { State.reset with source := { answers := (bytes l).map .byte, delivered := 0 } }

/-- Reset, with a decompressor engine in another state. -/
def decIn (st : DecState) (ft : FaultCode) (eos : Bool) : State :=
  { State.reset with
    dec := { Decompressor.reset with br := { acc := 0, nbits := 0, eos := eos }, state := st, fault := ft } }

/-- A DEC.DECOMPRESS in progress that waits for its header. -/
def opening (l : List Nat) : State := { fed l with pull := some { limit := none, out := [] } }

/-- A DEC.DECOMPRESS in progress in MID_STREAM, with the defaults and the window of N2. -/
def pulling (limit : Option Nat) (l : List Nat) : State :=
  { fed l with
    dec := { Decompressor.reset with win := fooWindow, state := .midStream }
    pull := some { limit := limit, out := [] } }

/-- Between operations in MID_STREAM. -/
def midStream (l : List Nat) : State := { pulling none l with pull := none }

/-- A state with these bytes in OVF. -/
def withOvf (s : State) (ovf : List Byte) : State := { s with dec := { s.dec with ovf := ovf } }

/-- The defaults. -/
def dflt : Cfg := Cfg.ofNats 10 4 8

/-! ## WellFormed: for each check an ill-formed term, refused, beside a well-formed one -/

theorem test_wf_literal :
    (Instr.literal 0x7F).wf (Cfg.ofNats 10 4 7) = true ∧ (Instr.literal 0x80).wf (Cfg.ofNats 10 4 7) = false := by
  decide

theorem test_wf_reference :
    (Instr.reference 1023 15).wf dflt = true ∧ (Instr.reference 1024 15).wf dflt = false ∧
      (Instr.reference 1023 16).wf dflt = false := by decide

theorem test_wf_cmpInit :
    (Instr.cmpInit 15 7 15).wf dflt = true ∧ (Instr.cmpInit 16 4 8).wf dflt = false ∧
      (Instr.cmpInit 10 8 8).wf dflt = false ∧ (Instr.cmpInit 10 4 16).wf dflt = false := by decide

/-- A chunk of 2^32 bytes is no operand. -/
theorem test_wf_cmpCompress :
    (Instr.cmpCompress []).wf dflt = true ∧ (Instr.cmpCompress (List.replicate (2 ^ 32) 0)).wf dflt = false := by
  constructor
  · decide
  · simp only [Instr.wf, List.length_replicate, Config.dataLenW]
    decide

theorem test_wf_decDecompress :
    (Instr.decDecompress (-2147483648)).wf dflt = true ∧ (Instr.decDecompress (-2147483649)).wf dflt = false ∧
      (Instr.decDecompress 2147483647).wf dflt = true ∧ (Instr.decDecompress 2147483648).wf dflt = false := by decide

theorem test_wf_widths :
    (Instr.bwWrite 0 16).wf dflt = true ∧ (Instr.bwWrite 0 17).wf dflt = false ∧
      (Instr.brRead 16).wf dflt = true ∧ (Instr.brRead 17).wf dflt = false := by decide

theorem test_wf_window :
    (Instr.winWriteByte .compressor 255).wf dflt = true ∧ (Instr.winWriteByte .compressor 256).wf dflt = false ∧
      (Instr.winSearch [0] 1024).wf dflt = true ∧ (Instr.winSearch [] 0).wf dflt = false ∧
      (Instr.winSearch [0] 1025).wf dflt = false := by decide

theorem test_wf_span :
    (Instr.winReadSpan 1023 17).wf dflt = true ∧ (Instr.winReadSpan 1024 1).wf dflt = false ∧
      (Instr.winReadSpan 0 0).wf dflt = false ∧ (Instr.winReadSpan 0 18).wf dflt = false := by decide

theorem test_wf_header_codec :
    (Instr.hdrEncode 8 4 5).wf dflt = true ∧ (Instr.hdrEncode 7 4 5).wf dflt = false ∧
      (Instr.hdrDecode 0x46).wf dflt = true ∧ (Instr.hdrDecode 0x47).wf dflt = false := by decide

/-! ## Decoding: words written out from 30_encoding.md -/

/-- R91: 010 00 11 0 is (10, 4, 8); R92: an odd byte is none. -/
theorem test_decode_header :
    decode dflt (.header 0b01000110) = .ok (.header 2 0 3) ∧
      decode dflt (.header 0b11111110) = .ok (.header 7 3 3) ∧
      decode dflt (.header 0b01000111) = .error .reservedHeaderBit := by decide

/-- R95: 1, then LB bits, for each LB. -/
theorem test_decode_literal :
    decode (Cfg.ofNats 8 4 5) (.stream [true, true, false, false, false, true]) = .ok (.literal 17) ∧
      decode (Cfg.ofNats 8 4 6) (.stream [true, true, false, false, false, false, true]) = .ok (.literal 33) ∧
      decode (Cfg.ofNats 8 4 7) (.stream [true, true, false, false, false, false, false, true]) = .ok (.literal 65) ∧
      decode (Cfg.ofNats 8 4 8) (.stream [true, true, false, false, false, false, false, false, true])
        = .ok (.literal 129) := by decide

/-- R96: 0, then WB bits of position, then SB bits of length: Q2's 0 11111110 0011. -/
theorem test_decode_reference :
    decode (Cfg.ofNats 8 4 8)
        (.stream [false, true, true, true, true, true, true, true, false, false, false, true, true])
      = .ok (.reference 254 3) := by decide

/-- R104: up to 7 zero bits are padding; R270: a cut token is none. -/
theorem test_decode_pad :
    decode dflt (.stream []) = .ok (.pad 0) ∧ decode dflt (.stream [false, false]) = .ok (.pad 2) ∧
      decode dflt (.stream [true, false]) = .error .truncatedToken := by decide

/-- R106: the four codes of cmp_cmd; R221: CMP.INIT without operands has the defaults. -/
theorem test_decode_cmp :
    decode dflt (.cmp { code := 0, init := some { wb := 9, sb := 5, lb := 6 }, data := [] }) = .ok (.cmpInit 9 5 6) ∧
      decode dflt (.cmp { code := 0, init := none, data := [] }) = .ok (.cmpInit 10 4 8) ∧
      decode dflt (.cmp { code := 1, init := none, data := [0x61] }) = .ok (.cmpCompress [0x61]) ∧
      decode dflt (.cmp { code := 2, init := none, data := [] }) = .ok .cmpFlush ∧
      decode dflt (.cmp { code := 3, init := none, data := [] }) = .ok .cmpReserved := by decide

/-- R106: the four codes of dec_cmd; max_size is signed. -/
theorem test_decode_dec :
    decode dflt (.dec { code := 0, maxSize := 0 }) = .ok .decInit ∧
      decode dflt (.dec { code := 1, maxSize := 0xFFFFFFFF }) = .ok (.decDecompress (-1)) ∧
      decode dflt (.dec { code := 2, maxSize := 0 }) = .ok (.decReserved 0) ∧
      decode dflt (.dec { code := 3, maxSize := 0 }) = .ok (.decReserved 1) := by decide

/-- Section 3 of the vectors: MINLEN and MAXLEN at the corners and at an equal cost (R207). -/
theorem test_derived_constants :
    ((Cfg.ofNats 8 4 5).minLen, (Cfg.ofNats 8 4 5).maxLen) = (3, 18) ∧
      ((Cfg.ofNats 15 7 5).minLen, (Cfg.ofNats 15 7 5).maxLen) = (4, 131) ∧
      ((Cfg.ofNats 10 7 8).minLen, (Cfg.ofNats 10 7 8).maxLen) = (2, 129) := by decide

/-! ## The Bit Writer and the Bit Reader -/

/-- W4: seven ones pending, then a 16-bit field. -/
theorem test_bwWrite_widest :
    (got (exec (.bwWrite 0xABCD 16) (writing 0x7F 7 []))).map (fun t => (t.sink.taken, t.cmp.bw)) =
      some ([0xFF, 0x57], { acc := 0x4D, nbits := 7, flushed := false }) := by decide

/-- W3: a value wider than its field. -/
theorem test_bwWrite_wide_value :
    (got (exec (.bwWrite 0x1FF 4) (writing 0 0 []))).map (fun t => (t.sink.taken, t.cmp.bw)) =
      some ([], { acc := 0xF, nbits := 4, flushed := false }) := by decide

/-- W1: two pending bits. -/
theorem test_bwFlush_pads :
    (got (exec .bwFlush (writing 0x3 2 []))).map (fun t => (t.sink.taken, t.cmp.bw)) =
      some ([0xC0], { acc := 0, nbits := 0, flushed := true }) := by decide

/-- W2: nothing pending; W6: a second flush. -/
theorem test_bwFlush_empty :
    (got (exec .bwFlush (writing 0 0 []))).map (fun t => t.sink.taken) = some [] ∧
      why (exec .bwFlush flushed) = some .useAfterFlush := by decide

/-- B7: 4 bits buffered, 16 read over two more bytes. -/
theorem test_brRead_widest :
    (got (exec (.brRead 16)
        { fed [0x34, 0x56] with dec := { Decompressor.reset with br := { acc := 2, nbits := 4, eos := false } } })).map
      (fun t => (t.resp, t.dec.br, t.source.delivered)) =
      some (.value 0x2345, { acc := 6, nbits := 4, eos := false }, 2) := by decide

/-- B5: the empty source. -/
theorem test_brRead_empty :
    (got (exec (.brRead 0) (fed []))).map (fun t => t.resp) = some (.value 0) ∧
      (got (exec (.brRead 1) (fed []))).map (fun t => (t.resp, t.dec.br.eos)) = some (.fault .endOfStream, true) ∧
      (got (exec (.brRead 0) (decIn .hdrPending .none true))).map (fun t => t.resp) = some (.fault .endOfStream) := by
  decide

/-! ## The Window and the Header codec -/

/-- The example of R171: the last cell of a window of 256. -/
theorem test_winWriteByte_wraps :
    (got (exec (.winWriteByte .decompressor 0x41)
        { State.reset with
          dec := { Decompressor.reset with cfg := Cfg.ofNats 8 4 8, win := { buf := [], cur := 255 } } })).map
      (fun t => t.dec.win) = some { buf := [(255, 0x41)], cur := 0 } := by decide

/-- N1: three bytes over the end of a window of 256. -/
theorem test_winWriteBytes_wraps :
    (got (exec (.winWriteBytes .compressor [0x61, 0x62, 0x63])
        { State.reset with
          cmp := { Compressor.reset with
                   cfg := Cfg.ofNats 8 4 8, win := { buf := [(0, 0x01), (1, 0x02)], cur := 254 } } })).map
      (fun t => t.cmp.win) = some { buf := [(0, 0x63), (1, 0x02), (254, 0x61), (255, 0x62)], cur := 1 } := by decide

/-- N2: over cells never written, and from a start above the lowest occurrence. -/
theorem test_winSearch_found :
    (got (exec (.winSearch [0x6F, 0x20, 0, 0] 0) foo)).map (fun t => t.resp) = some (.found 2) ∧
      (got (exec (.winSearch [0x6F] 2) foo)).map (fun t => t.resp) = some (.found 2) := by decide

/-- N2: no occurrence across the end. -/
theorem test_winSearch_no_wrap :
    (got (exec (.winSearch [0, 0] 1022) foo)).map (fun t => t.resp) = some (.found 1022) ∧
      (got (exec (.winSearch [0, 0] 1023) foo)).map (fun t => t.resp) = some .notFound := by decide

/-- N5: the read wraps. -/
theorem test_winReadSpan_wraps :
    (got (exec (.winReadSpan 1022 4) foo)).map (fun t => t.resp) = some (.bytes [0, 0, 0x66, 0x6F]) := by decide

/-- The examples of R200. -/
theorem test_hdrEncode :
    (got (exec (.hdrEncode 10 4 8) State.reset)).map (fun t => t.resp) = some (.header 0x46) ∧
      (got (exec (.hdrEncode 16 4 8) State.reset)).map (fun t => (t.resp, t.cmp.state)) =
        some (.fault (.invalidConfig 16 4 8), .unconfigured) := by decide

/-- The examples of R201. -/
theorem test_hdrDecode :
    (got (exec (.hdrDecode 0xFE) State.reset)).map (fun t => t.resp) =
        some (.config { wb := 15, sb := 7, lb := 8 }) ∧
      (got (exec (.hdrDecode 0x01) State.reset)).map (fun t => t.resp) = some (.fault (.unsupportedHeader 0x01)) := by
  decide

/-! ## The compressor engine -/

/-- The example of R222. -/
theorem test_cmpInit :
    (got (exec (.cmpInit 10 4 8) State.reset)).map (fun t => (t.sink.taken, t.cmp.bw.nbits, t.cmp.state)) =
      some ([0x46], 0, .active) := by decide

/-- K23: an operand out of range. -/
theorem test_cmpInit_invalid :
    (got (exec (.cmpInit 16 4 8) State.reset)).map (fun t => (t.sink.taken, t.cmp.state, t.cmp.fault)) =
      some ([], .faulted, .invalidConfig) := by decide

/-- K7 up to its flush: 20 zeros match the new window; REF 0, 17 then REF 0, 3. -/
theorem test_cmpCompress_zeros :
    (got (exec (.cmpCompress (List.replicate 20 0)) (active 10 4 8))).map
      (fun t => (t.sink.taken, t.cmp.bw.nbits, t.cmp.win.cur)) = some ([0x00, 0x1E, 0x00], 6, 20) := by decide

/-- K14: the byte that does not fit. -/
theorem test_cmpCompress_excess :
    (got (exec (.cmpCompress [0x80]) (active 10 4 7))).map (fun t => (t.resp, t.sink.taken, t.cmp.state, t.cmp.fault)) =
      some (.fault (.excessBits 0x80 0), [], .faulted, .excessBits) := by decide

/-- The example of R232. -/
theorem test_cmpFlush :
    (got (exec .cmpFlush
        { State.reset with
          cmp := { Compressor.reset with bw := { acc := 1, nbits := 2, flushed := false }, state := .active } })).map
      (fun t => (t.sink.taken, t.cmp.state)) = some ([0x40], .flushed) := by decide

/-- V3: reserved codes. -/
theorem test_reserved :
    why (exec .cmpReserved State.reset) = some .badCommand ∧
      why (exec (.decReserved 1) State.reset) = some .badCommand := by decide

/-! ## The decompressor engine -/

/-- X9 and Q5: DEC.INIT after a bad header. -/
theorem test_decInit :
    (got (exec .decInit (decIn .faulted .unsupportedHeader false))).map (fun t => (t.dec.state, t.dec.fault)) =
      some (.hdrPending, .none) := by decide

/-- The known vector cut to two literals (X8, 4 bytes). -/
theorem test_decDecompress_literals :
    (got (exec (.decDecompress (-1)) (fed [0x46, 0xB3, 0x5B, 0xED]))).map (fun t => (t.resp, t.dec.state, t.source.delivered)) =
      some (.bytes [0x66, 0x6F], .finished, 4) := by decide

/-- X15's first call: 17 zeros, one of them past the limit. -/
theorem test_decDecompress_overflow :
    (got (exec (.decDecompress 16) (fed [0x46, 0x00, 0x1E]))).map (fun t => (t.resp, t.dec.ovf, t.dec.win.cur)) =
      some (.bytes (List.replicate 16 0), [0], 17) := by decide

/-- The header 0x46 opens the stream of the defaults (R262). -/
theorem test_header :
    (got (exec (.header 2 0 3) (opening []))).map (fun t => (t.dec.cfg, t.dec.win.cur, t.dec.state)) =
      some ({ wb := 10, sb := 4, lb := 8 }, 0, .midStream) := by decide

/-- The example of R266, at cursor 4. -/
theorem test_literal :
    (got (exec (.literal 0x66) (pulling none []))).map (fun t => (t.dec.win.cur, Memory.read t.dec.win.buf 4, t.pull)) =
      some (5, 0x66, some { limit := none, out := [0x66] }) := by decide

/-- The example of R267: span 66 6F 6F 20 to cells 4 to 7, one byte of room. -/
theorem test_reference_overflow :
    (got (exec (.reference 0 2) (pulling (some 1) []))).map (fun t => (t.dec.win.cur, t.dec.ovf, t.pull)) =
      some (8, [0x6F, 0x6F, 0x20], some { limit := some 1, out := [0x66] }) := by decide

/-- V1: the copy that starts before the cursor and passes it reads the cells as they were. -/
theorem test_reference_snapshot :
    (got (exec (.reference 3 1) (pulling none []))).map (fun t => t.pull) =
      some (some { limit := none, out := [0x20, 0, 0] }) := by decide

/-- R270: nothing is decoded. -/
theorem test_pad :
    (got (exec (.pad 6) (pulling none []))).map (fun t => (t.dec.state, t.dec.br.eos, t.dec.win.cur)) =
      some (.finished, true, 4) := by decide

/-! ## Words of the opcode table -/

/-- One word of each kind is decoded and run as the first instruction after reset. -/
theorem test_table_words :
    decodeTableWord 8 2 = some .cmpFlush ∧ decodeTableWord 8 0x40 = some (.literal 0) ∧
      decodeTableWord 16 0 = some (.reference 0 0) ∧ decodeTableWord 24 0 = some (.reference 0 0) ∧
      (got (step (State.reset.withFetchWord 16 0x100))).map (fun t => t.pull) =
        some (some { limit := none, out := [0] }) := by decide

/-- R221, R222: the bare code of CMP.INIT starts a stream of 10, 4, 8, whose header is 0x46. -/
theorem test_table_word_init :
    decodeTableWord 8 0 = some (.cmpInit 10 4 8) ∧
      (got (step (State.reset.withFetchWord 8 0))).map (fun t => (t.sink.taken, t.cmp.state)) =
        some ([0x46], .active) := by decide

/-! ## Witnesses: for each obligation with hypotheses, a state and operands that meet them -/

open Sys2Proof

theorem witness_DecodeInvertsEncode :
    dflt.legal = true ∧ (Instr.reference 1023 15).wf dflt = true ∧ (Instr.reference 1023 15).hasWire = true := by
  decide

theorem witness_TokensReadBack :
    dflt.legal = true ∧ (∀ t ∈ [Token.literal 255, Token.reference 1023 15], t.instr.wf dflt = true) ∧ 7 ≤ 7 := by
  decide

theorem witness_HeaderRoundTrip :
    (8 ≤ 15 ∧ 15 ≤ 15 ∧ 4 ≤ 7 ∧ 7 ≤ 7 ∧ 5 ≤ 8 ∧ 8 ≤ 8) ∧ (0xFE : Byte).getLsbD 0 = false ∧
      (0xFF : Byte).getLsbD 0 = true := by decide

theorem witness_DerivedConstants :
    (Cfg.ofNats 15 7 5).legal = true ∧ 3 < (Cfg.ofNats 15 7 5).minLen := by decide

theorem witness_HeaderCodec :
    ((8 ≤ 15 ∧ 15 ≤ 15) ∧ (4 ≤ 7 ∧ 7 ≤ 7) ∧ (5 ≤ 8 ∧ 8 ≤ 8)) ∧
      ¬ ((8 ≤ 16 ∧ 16 ≤ 15) ∧ (4 ≤ 7 ∧ 7 ≤ 7) ∧ (5 ≤ 8 ∧ 8 ≤ 8)) ∧
      (0xFE : Byte).toNat % 2 = 0 ∧ (0xFF : Byte).toNat % 2 = 1 := by decide

theorem acceptsAll_nil (taken : List Byte) : Sink.acceptsAll { taken := taken, answers := [] } := by
  simp [Sink.acceptsAll]

theorem acceptsNext_nil (taken : List Byte) (k : Nat) : Sink.acceptsNext k { taken := taken, answers := [] } := by
  simp [Sink.acceptsNext]

theorem witness_BwWriteAppends :
    (writing 0x7F 7 []).cmp.bw.flushed = false ∧ (16 ≤ 16) ∧
      (writing 0x7F 7 []).sink.acceptsNext (((writing 0x7F 7 []).cmp.bw.nbits.toNat + 16) / 8) :=
  ⟨rfl, le_refl _, acceptsNext_nil _ _⟩

theorem witness_BwWritesAreTheBitString :
    State.reset.cmp.bw = { acc := 0, nbits := 0, flushed := false } ∧ State.reset.sink.taken = [] ∧
      State.reset.sink.acceptsAll ∧ (∀ f ∈ [(0x2A5, 10), (0xFFFF, 16)], f.2 ≤ 16) ∧
      (∀ f ∈ [(0x15, 5), (0x05, 5), (0, 0), (0xFFFF, 16)], f.2 ≤ 16) ∧
      ([(0x15, 5), (0x05, 5), (0, 0), (0xFFFF, 16)].flatMap fun f => fieldBits f.2 f.1) =
        ([(0x2A5, 10), (0xFFFF, 16)].flatMap fun f => fieldBits f.2 f.1) :=
  ⟨rfl, rfl, acceptsAll_nil _, by decide, by decide, by decide⟩

theorem witness_BwWriteSplits :
    (writing 0x7F 7 []).cmp.bw.flushed = false ∧
      (writing 0x7F 7 []).cmp.bw.acc.toNat < 2 ^ (writing 0x7F 7 []).cmp.bw.nbits.toNat ∧
      (writing 0x7F 7 []).sink.acceptsAll ∧ 5 + 11 ≤ 16 :=
  ⟨rfl, by decide, acceptsAll_nil _, by decide⟩

theorem witness_WidthCorners :
    (writing 0x7F 7 []).cmp.bw.flushed = false ∧
      (writing 0x7F 7 []).cmp.bw.acc.toNat < 2 ^ (writing 0x7F 7 []).cmp.bw.nbits.toNat ∧ 16 < 17 ∧
      State.reset.dec.br.eos = false ∧ State.reset.dec.br.acc.toNat < 2 ^ State.reset.dec.br.nbits.toNat := by decide

theorem witness_FlushedUntilInit :
    (∃ t, exec .bwFlush (writing 0 0 []) = .next t ∧ t.resp = .ok) ∧ flushed.cmp.bw.flushed = true ∧
      (∀ wb sb lb, Instr.brRead 0 ≠ .cmpInit wb sb lb) ∧ ∃ t, exec (.brRead 0) flushed = .next t :=
  ⟨⟨_, rfl, rfl⟩, rfl, fun _ _ _ h => (by cases h), _, rfl⟩

theorem witness_BwFlushPads :
    (writing 0 0 []).cmp.bw.flushed = false ∧ (writing 0 0 []).sink.acceptsNext 1 ∧
      (writing 0x7F 7 []).cmp.bw.flushed = false ∧ (writing 0x7F 7 []).sink.acceptsNext 1 :=
  ⟨rfl, acceptsNext_nil _ _, rfl, acceptsNext_nil _ _⟩

/-- Both sides of the equivalence: a sink that fails, one that accepts; and each operation answers. -/
theorem witness_SinkErrorStops :
    (∃ t, exec (.bwWrite 0 8) (writing 0 0 [.fails]) = .next t ∧ t.resp = .fault .sinkError) ∧
      (∃ t, exec (.bwWrite 0 8) (writing 0 0 [.accepts]) = .next t ∧ t.resp = .ok) ∧
      (∃ t, exec .bwFlush (writing 1 1 [.fails]) = .next t) ∧
      (∃ t, exec (.cmpInit 10 4 8) (writing 0 0 [.fails]) = .next t) ∧
      (∃ t, exec (.cmpCompress []) (active 10 4 8) = .next t) ∧ ∃ t, exec .cmpFlush (active 10 4 8) = .next t :=
  ⟨⟨_, rfl, rfl⟩, ⟨_, rfl, rfl⟩, ⟨_, rfl⟩, ⟨_, rfl⟩, ⟨_, rfl⟩, _, rfl⟩

theorem witness_BrReadNextBits :
    (fed [0x12, 0x34]).dec.br.eos = false ∧ (16 ≤ 16) ∧ 16 ≤ (fed [0x12, 0x34]).unreadBits.length := by decide

/-- An EndOfStream of a unit used alone; a unit's operation in a FAULTED engine. -/
theorem witness_UnitsAlone :
    (∃ t, exec (.brRead 1) (decIn .faulted .endOfStream true) = .next t ∧ t.resp = .fault .endOfStream) ∧
      ∃ t, exec (.bwWrite 0 16) (cmpIn .faulted .excessBits) = .next t := ⟨⟨_, rfl, rfl⟩, _, rfl⟩

/-- A source that delivers bytes and nothing else ends cleanly. -/
theorem fed_endsCleanly (l : List Nat) : (fed l).source.endsCleanly := by
  intro a ha
  have : leadingBytes (fed l).source.answers = bytes l := by
    show leadingBytes ((bytes l).map .byte) = bytes l
    generalize bytes l = bs
    induction bs with
    | nil => rfl
    | cons b bs ih => simp [leadingBytes, ih]
  rw [this] at ha
  simp [fed] at ha

/-- The next read has its bits, and has not. -/
theorem witness_BrReadsAreTheBitString :
    (fed [0x12, 0x34]).dec.br.eos = false ∧ (fed [0x12, 0x34]).source.endsCleanly ∧
      (∀ m ∈ [4, 9], m ≤ 16) ∧ [4, 9].sum ≤ (fed [0x12, 0x34]).unreadBits.length ∧
      [4, 9].sum + 3 ≤ (fed [0x12, 0x34]).unreadBits.length ∧
      (fed [0x12, 0x34]).unreadBits.length < [4, 9].sum + 4 :=
  ⟨rfl, fed_endsCleanly _, by decide, by decide, by decide, by decide⟩

theorem witness_BrEndOfStream :
    (fed []).dec.br.eos = false ∧ 1 ≤ 16 ∧ (fed []).source.endsCleanly ∧ (fed []).unreadBits.length < 1 ∧
      ¬ (fed []).unreadBits.length < 0 := ⟨rfl, by decide, fed_endsCleanly _, by decide, by decide⟩

theorem witness_EndOfStreamSticks :
    (∃ t, exec (.brRead 1) (fed []) = .next t ∧ t.resp = .fault .endOfStream) ∧
    (decIn .finished .none true).dec.br.eos = true ∧ Instr.brRead 16 ≠ .decInit ∧
      ∃ t, exec (.brRead 16) (decIn .finished .none true) = .next t := ⟨⟨_, rfl, rfl⟩, rfl, by decide, _, rfl⟩

/-- X19's source: two bytes, then a failure. -/
def failing : State :=
  { State.reset with source := { answers := [.byte 0x46, .byte 0xB3, .fails], delivered := 0 } }

theorem witness_SourceErrorStops :
    (got (exec (.decDecompress (-1)) failing)).map (fun t => t.resp) = some (.fault .sourceError) ∧
      (got (exec (.brRead 16) failing)).map (fun t => t.resp) = some (.value 0x46B3) := by decide

theorem wf_reset : Memory.wf (State.reset.window .compressor).buf := by decide

theorem witness_WindowWriteByte : 255 < 256 ∧ Memory.wf (State.reset.window .compressor).buf ∧ 255 < 256 := by decide

/-- An index not reached, and a byte overwritten when the window wraps. -/
theorem witness_WindowContents :
    Memory.wf (State.reset.window .decompressor).buf ∧ (State.reset.window .decompressor).cur = 0 ∧
      (∀ i, i < (State.reset.cfgOf .decompressor).cap → Memory.read (State.reset.window .decompressor).buf i = 0) ∧
      (1023 < (State.reset.cfgOf .decompressor).cap ∧ 1023 ≤ 1023) ∧
      (0 < (State.reset.cfgOf .decompressor).cap ∧ 1024 < 1025 ∧
        1024 % (State.reset.cfgOf .decompressor).cap = 0 ∧ 1025 ≤ 1024 + (State.reset.cfgOf .decompressor).cap) :=
  ⟨by decide, rfl, fun _ _ => rfl, by decide, by decide⟩

theorem witness_SearchFindsLeast :
    ([0] : List Byte) ≠ [] ∧ 1024 ≤ 2 ^ foo.cmp.cfg.wb.toNat ∧ 2 ^ foo.cmp.cfg.wb.toNat - 1024 < ([0] : List Byte).length ∧
      2 ^ foo.cmp.cfg.wb.toNat < 1025 := by decide

/-- N6's kind of search, and one that finds nothing. -/
theorem witness_SearchMonotone :
    (1 ≤ 1 ∧ 1 < 2) ∧
      exec (.winSearch (([0x6F, 0x20] : List Byte).take 1) 0) foo = .next { foo with resp := .found 1 } ∧
      exec (.winSearch (([0x6F, 0x20] : List Byte).take 2) 0) foo = .next { foo with resp := .found 2 } ∧
      exec (.winSearch (([0x01, 0x20] : List Byte).take 1) 0) (active 8 4 8) =
        .next { active 8 4 8 with resp := .notFound } := ⟨by decide, rfl, rfl, by rfl⟩

theorem witness_ReadSpan :
    (1023 < foo.dec.cfg.cap ∧ 1 ≤ 17 ∧ 17 ≤ foo.dec.cfg.maxLen) ∧ foo.dec.cfg.cap ≤ 1024 ∧ foo.dec.cfg.maxLen < 18 := by
  decide

theorem witness_CmpInitLegal :
    configLegal 15 7 8 = true ∧ State.reset.sink.acceptsNext 1 ∧ (writing 0 0 [.fails]).sink.answers = .fails :: [] :=
  ⟨by decide, acceptsNext_nil _ _, rfl⟩

theorem witness_CmpInitIllegal :
    ¬ ((8 ≤ 7 ∧ 7 ≤ 15) ∧ (4 ≤ 4 ∧ 4 ≤ 7) ∧ (5 ≤ 5 ∧ 5 ≤ 8)) ∧ State.reset.pull = none ∧
      ({ State.reset with pending := [.cmp { code := 0, init := none, data := [] }] } : State).pending =
        .cmp { code := 0, init := none, data := [] } :: [] := by decide

theorem witness_CompressWritesGreedyTokens :
    (active 10 4 7).cmp.state = .active ∧ (active 10 4 7).cmp.bw.flushed = false ∧ (active 10 4 7).sink.acceptsAll ∧
      narrow (active 10 4 7).cmp.cfg [0x7F, 0x00] := by
  refine ⟨rfl, rfl, acceptsAll_nil _, ?_⟩
  unfold narrow
  decide

/-- K15's bytes. -/
theorem witness_ExcessBitsIsPrecise :
    (active 10 4 7).cmp.state = .active ∧ (active 10 4 7).cmp.bw.flushed = false ∧ (active 10 4 7).sink.acceptsAll ∧
      Memory.wf (active 10 4 7).cmp.win.buf ∧ (active 10 4 7).cmp.win.inv (active 10 4 7).cmp.cfg ∧
      narrow (active 10 4 7).cmp.cfg [0x41, 0x42, 0x41, 0x42] ∧
      2 ^ (active 10 4 7).cmp.cfg.lb.toNat ≤ (0x80 : Byte).toNat ∧
      (∀ wb sb lb, Instr.brRead 0 ≠ .cmpInit wb sb lb) ∧ ∃ v, exec (.brRead 0) (active 10 4 7) = .next v := by
  refine ⟨rfl, rfl, acceptsAll_nil _, by decide, Window.inv_reset _, ?_, by decide, fun _ _ _ h => (by cases h), _, rfl⟩
  unfold narrow
  decide

theorem witness_CmpFlushEndsStream :
    (active 10 4 8).cmp.state = .active ∧ (active 10 4 8).cmp.bw.flushed = false ∧ (active 10 4 8).sink.acceptsNext 1 :=
  ⟨rfl, rfl, acceptsNext_nil _ _⟩

theorem witness_CompressorStateChecks :
    (cmpIn .unconfigured .none).cmp.state ≠ .active ∧ flushed.cmp.state ≠ .active ∧
      (cmpIn .faulted .excessBits).cmp.state ≠ .active ∧ (active 10 4 8).cmp.state = .active := by decide

theorem witness_DecInitResets :
    (decIn .faulted .unsupportedHeader false).pull = none ∧ (midStream []).pull = none := by decide

theorem witness_HeaderOpensStream :
    (opening []).pull = some { limit := none, out := [] } ∧ (opening []).dec.state = .hdrPending := by decide

theorem witness_LiteralAppends :
    (pulling none []).pull = some { limit := none, out := [] } ∧ (pulling none []).dec.state = .midStream ∧
      Memory.wf (pulling none []).dec.win.buf := by decide

/-- No limit; a span of 4 that fits exactly; one that does not. -/
theorem witness_ReferenceCopies :
    (pulling none []).pull = some { limit := none, out := [] } ∧
      (pulling (some 4) []).pull = some { limit := some 4, out := [] } ∧
      (pulling (some 3) []).pull = some { limit := some 3, out := [] } ∧
      (pulling (some 3) []).dec.state = .midStream ∧
      (pulling (some 0) []).pull = some { limit := some 0, out := [] } ∧
      (0 : BitVec 15).toNat < 2 ^ (pulling (some 3) []).dec.cfg.wb.toNat ∧
      (2 : BitVec 7).toNat < 2 ^ (pulling (some 3) []).dec.cfg.sb.toNat := by decide

theorem witness_ReferenceIsSnapshot :
    (pulling none []).pull = some { limit := none, out := [] } ∧ (pulling none []).dec.state = .midStream ∧
      (pulling none []).dec.cfg.legal = true ∧ Memory.wf (pulling none []).dec.win.buf ∧
      (pulling none []).dec.win.cur.toNat < (pulling none []).dec.cfg.cap ∧
      ∃ t, exec (.reference 3 1) (pulling none []) = .next t :=
  ⟨rfl, rfl, by decide, by decide, by decide, _, rfl⟩

theorem witness_PadEndsStream :
    (pulling none []).pull = some { limit := none, out := [] } ∧ (pulling none []).dec.state = .midStream := by decide

theorem witness_StreamInstructionsElsewhere :
    State.reset.pull = none ∧ (opening []).pull = some { limit := none, out := [] } ∧
      (opening []).dec.state ≠ .midStream ∧ (pulling none []).pull = some { limit := none, out := [] } ∧
      (pulling none []).dec.state ≠ .hdrPending ∧ (pulling none []).dec.state = .midStream ∧
      2 ^ (pulling none []).dec.cfg.wb.toNat ≤ (1024 : BitVec 15).toNat ∧
      2 ^ (pulling none []).dec.cfg.sb.toNat ≤ (16 : BitVec 7).toNat := by decide

theorem witness_DecompressEnds :
    (decIn .faulted .endOfStream true).pull = none ∧ (decIn .faulted .endOfStream true).dec.state = .faulted ∧
      (midStream []).pull = none ∧ (midStream []).dec.state ≠ .faulted := by decide

theorem takeField_header : takeField 8 (fed [0x46]).unreadBits = some (0x46, []) := by decide

theorem config_header : decodeConfig (BitVec.ofNat 8 0x46) = some dflt := by decide

/-- A stream of the header alone (X10). -/
theorem readable_header : (fed [0x46]).Readable where
  state := by decide
  source := fun _ => ⟨fed_endsCleanly _, rfl⟩
  header := fun _ => ⟨_, _, _, takeField_header, config_header⟩

/-- In each state of the engine but FAULTED, with fewer bytes owed than the limit; a limit of all of OVF and of none
of it; a header to read. -/
theorem witness_DecompressReturnsOwed :
    (fed [0x46]).pull = none ∧ (fed [0x46]).Readable ∧ (midStream [0xB0, 0x80]).pull = none ∧
      (midStream [0xB0, 0x80]).Readable ∧ (decIn .finished .none true).pull = none ∧
      (decIn .finished .none true).Readable ∧ (fed [0x46]).owed.length < 1 ∧
      (withOvf (midStream []) [1, 2]).pull = none ∧ (withOvf (midStream []) [1, 2]).dec.state = .midStream ∧
      2 ≤ (withOvf (midStream []) [1, 2]).dec.ovf.length ∧ (decIn .finished .none true).dec.state = .finished ∧
      0 ≤ (decIn .finished .none true).dec.ovf.length ∧ (fed [0x46]).dec.state = .hdrPending ∧
      (fed [0x46]).dec.br.eos = false ∧ takeField 8 (fed [0x46]).unreadBits = some (0x46, []) ∧
      decodeConfig (BitVec.ofNat 8 0x46) = some dflt := by
  refine ⟨rfl, readable_header, rfl, ⟨by decide, fun _ => ⟨fed_endsCleanly _, rfl⟩, fun h => by cases h⟩, rfl,
    ⟨by decide, fun h => ?_, fun h => by cases h⟩, by decide, by decide, by decide, by decide, by decide, by decide,
    by decide, by decide, by decide, by decide⟩
  rcases h with h | h <;> cases h

theorem witness_HeaderFaults :
    (fed []).pull = none ∧ (fed []).dec.state = .hdrPending ∧ (fed []).dec.br.eos = false ∧
      (fed []).source.endsCleanly ∧ (fed []).unreadBits.length < 8 ∧ (fed [0x47]).source.endsCleanly ∧
      takeField 8 (fed [0x47]).unreadBits = some (0x47, []) ∧ 0x47 % 2 = 1 :=
  ⟨rfl, rfl, rfl, fed_endsCleanly _, by decide, fed_endsCleanly _, by decide, rfl⟩

theorem witness_FinishedReturnsNothing :
    (decIn .finished .none true).pull = none ∧ (decIn .finished .none true).dec.state = .finished ∧
      (decIn .finished .none true).dec.ovf = [] := by decide

theorem takeField_literal :
    takeField 8 (fed [0x46, 0xB0, 0x80]).unreadBits = some (0x46, bytesBits (bytes [0xB0, 0x80])) := by decide

/-- The stream of K5. -/
theorem readable_literal : (fed [0x46, 0xB0, 0x80]).Readable where
  state := by decide
  source := fun _ => ⟨fed_endsCleanly _, rfl⟩
  header := fun _ => ⟨_, _, _, takeField_literal, config_header⟩

/-- The stream of K5: one literal, pulled with limits 1 and 1. -/
theorem witness_ChunkInvariance :
    (fed [0x46, 0xB0, 0x80]).pull = none ∧ (fed [0x46, 0xB0, 0x80]).Readable ∧ (∀ x ∈ [1, 1], 1 ≤ x) ∧
      (pulls [1] (fed [0x46, 0xB0, 0x80])).map (fun r => r.1) = some [0x61] ∧
      ((pulls [1] (fed [0x46, 0xB0, 0x80])).bind fun r => (pulls [1] r.2).map fun q => q.1.length) = some 0 := by
  exact ⟨rfl, readable_literal, by decide, by decide, by decide⟩

/-- The stream of K5: its run, and a decompressor that is given it. -/
theorem witness_RoundTrip :
    configLegal 10 4 8 = true ∧ State.reset.sink.taken = [] ∧ State.reset.sink.acceptsAll ∧
      Memory.wf State.reset.cmp.win.buf ∧ (∀ data ∈ [bytes [0x61]], narrow (Cfg.ofNats 10 4 8) data) ∧
      (got (execAll [.cmpInit 10 4 8, .cmpCompress [0x61], .cmpFlush] State.reset)).map (fun t => t.sink.taken) =
        some (bytes [0x46, 0xB0, 0x80]) ∧
      (fed [0x46, 0xB0, 0x80]).pull = none ∧ Memory.wf (fed [0x46, 0xB0, 0x80]).dec.win.buf ∧
      (fed [0x46, 0xB0, 0x80]).source.answers = (bytes [0x46, 0xB0, 0x80]).map .byte := by
  refine ⟨by decide, rfl, acceptsAll_nil _, by decide, ?_, by decide, rfl, by decide, rfl⟩
  unfold narrow
  decide

theorem witness_StreamLength :
    configLegal 10 4 8 = true ∧ State.reset.sink.taken = [] ∧ State.reset.sink.acceptsAll ∧
      ∀ data ∈ [bytes [0x61], []], narrow (Cfg.ofNats 10 4 8) data := by
  refine ⟨by decide, rfl, acceptsAll_nil _, ?_⟩
  unfold narrow
  decide

/-- Right after reset, with any source, the invariant holds. -/
theorem fed_inv (l : List Nat) : (fed l).Inv :=
  (State.inv_iff (fed l)).mpr ⟨Compressor.inv_reset, Decompressor.inv_reset, fun p hp => by cases hp⟩

theorem witness_OutputAlphabet :
    (fed [0x46, 0xB0, 0x80]).Inv ∧ (fed [0x46, 0xB0, 0x80]).pull = none ∧
      (got (exec (.decDecompress (-1)) (fed [0x46, 0xB0, 0x80]))).map (fun t => t.resp) = some (.bytes [0x61]) :=
  ⟨fed_inv _, rfl, by decide⟩

/-- Operations of both engines answer. -/
theorem witness_EnginesShareNothing :
    (∃ t, exec (.cmpInit 10 4 8) State.reset = .next t) ∧ (∃ t, exec (.winWriteByte .compressor 255) foo = .next t) ∧
      (∃ t, exec (.winWriteByte .decompressor 255) foo = .next t) ∧ ∃ t, exec .decInit State.reset = .next t :=
  ⟨⟨_, rfl⟩, ⟨_, rfl⟩, ⟨_, rfl⟩, _, rfl⟩

theorem witness_CompressorIgnoresDecompressor :
    (∃ t, exec (.cmpInit 10 4 8) State.reset = .next t) ∧ (∃ t, exec (.cmpCompress [0x61]) (active 10 4 8) = .next t) ∧
      ∃ t, exec .cmpFlush (active 10 4 8) = .next t := ⟨⟨_, rfl⟩, ⟨_, rfl⟩, _, rfl⟩

/-- An operation that writes the registers on each side. -/
theorem witness_ConfigWrittenByInit :
    (∃ t, exec (.cmpInit 8 4 5) State.reset = .next t ∧ t.cmp.cfg ≠ State.reset.cmp.cfg) ∧
      ∃ t, exec (.header 0 0 0) (opening []) = .next t ∧ t.dec.cfg ≠ (opening []).dec.cfg :=
  ⟨⟨_, rfl, by decide⟩, _, rfl, by decide⟩

theorem witness_FaultedUntilInit :
    (cmpIn .faulted .excessBits).cmp.state = .faulted ∧
      (∀ wb sb lb, Instr.bwWrite 0 16 ≠ .cmpInit wb sb lb) ∧
      (∃ t, exec (.bwWrite 0 16) (cmpIn .faulted .excessBits) = .next t) ∧
      (decIn .faulted .endOfStream true).dec.state = .faulted ∧ (decIn .faulted .endOfStream true).pull = none ∧
      Instr.brRead 16 ≠ .decInit ∧ ∃ t, exec (.brRead 16) (decIn .faulted .endOfStream true) = .next t :=
  ⟨rfl, fun _ _ _ h => (by cases h), ⟨_, rfl⟩, rfl, rfl, by decide, _, rfl⟩

/-- Each event of the host at the head, and an instruction with a command of each port. -/
theorem witness_StepTakesEvent :
    State.reset.pull = none ∧ State.reset.pending = [] ∧
      ({ State.reset with pending := [.cmp (cmpWord 3), .resetDec] } : State).pending = .cmp (cmpWord 3) :: [.resetDec] ∧
      ({ State.reset with pending := [.dec { code := 3, maxSize := 0 }] } : State).pending =
        .dec { code := 3, maxSize := 0 } :: [] ∧
      (Instr.cmpFlush).wf dflt = true ∧ encode dflt .cmpFlush = some (.cmp (cmpWord 2)) ∧
      (Instr.decInit).wf dflt = true ∧ encode dflt .decInit = some (.dec { code := 0, maxSize := 0 }) := by decide

/-- A full output; bytes in OVF with room for one; FINISHED; a literal to fetch; bits that are no token. -/
theorem witness_StepRunsToken :
    (pulling (some 0) []).pull = some { limit := some 0, out := [] } ∧ (pulling (some 0) []).dec.state = .midStream ∧
      Pull.hasRoom { limit := some 0, out := [] } = false ∧
      (withOvf (pulling (some 1) []) [1, 2]).pull = some { limit := some 1, out := [] } ∧
      (withOvf (pulling (some 1) []) [1, 2]).dec.state = .midStream ∧
      Pull.hasRoom { limit := some 1, out := [] } = true ∧ (withOvf (pulling (some 1) []) [1, 2]).dec.ovf ≠ [] ∧
      (pulling none []).finish.pull = some { limit := none, out := [] } ∧
      (pulling none []).finish.dec.state = .finished ∧ (pulling none []).finish.dec.ovf = [] ∧
      (pulling none [0xB0, 0x80]).pull = some { limit := none, out := [] } ∧
      (pulling none [0xB0, 0x80]).dec.state = .midStream ∧ Pull.hasRoom { limit := none, out := [] } = true ∧
      (pulling none [0xB0, 0x80]).dec.ovf = [] ∧ (pulling none [0xB0, 0x80]).dec.br.eos = false ∧
      decodeStream (pulling none [0xB0, 0x80]).dec.cfg (pulling none [0xB0, 0x80]).unreadBits =
        .ok ((Token.literal 0x61).instr, [false, false, false, false, false, false, false]) ∧
      takeToken (pulling none []).dec.cfg (pulling none []).unreadBits = none ∧ (pulling none []).source.endsCleanly :=
  ⟨rfl, rfl, rfl, rfl, rfl, rfl, by decide, rfl, rfl, rfl, rfl, rfl, rfl, rfl, rfl, by decide, by decide,
    fed_endsCleanly []⟩

theorem witness_StepRunsHeader :
    (opening [0x46]).pull = some { limit := none, out := [] } ∧ (opening [0x46]).dec.state = .hdrPending ∧
      (opening [0x46]).dec.br.eos = false ∧ takeField 8 (opening [0x46]).unreadBits = some (0x46, []) ∧
      decodeHeader (BitVec.ofNat 8 0x46) = .ok (.header 2 0 3) ∧
      takeField 8 (opening [0x47]).unreadBits = some (0x47, []) ∧
      decodeHeader (BitVec.ofNat 8 0x47) = .error .reservedHeaderBit := by decide

theorem witness_DecompressIsItsSteps :
    (fed [0x46]).pull = none ∧ ∃ t, exec (.decDecompress (-1)) (fed [0x46]) = .next t := ⟨rfl, _, rfl⟩

theorem witness_MemoryFormKept :
    Memory.wf foo.cmp.win.buf ∧ Memory.wf foo.dec.win.buf ∧ (∃ t, exec (.winWriteByte .compressor 0) foo = .next t) ∧
      (∃ t, exec (.cmpInit 8 4 5) foo = .next t ∧ t.resp = .ok) ∧
      ∃ t, exec (.header 0 0 0) (opening []) = .next t :=
  ⟨by decide, by decide, ⟨_, rfl⟩, ⟨_, rfl, rfl⟩, _, rfl⟩

theorem witness_StepKeepsInvariant : State.reset.Inv ∧ ∃ t, step State.reset = .next t := ⟨fed_inv [], _, rfl⟩

end Sys2Proof.Tests
end

section
/-! The values after reset (R39). -/

namespace Sys2Proof.Machine

@[simp] theorem Window.reset_cur : Window.reset.cur = 0 := rfl

/-- A window at reset lists no cell, and an unlisted index reads as zero. -/
@[simp] theorem Window.read_reset (i : Nat) : Memory.read Window.reset.buf i = 0 := Memory.read_nil i

@[simp] theorem Cfg.minLen_reset : Cfg.reset.minLen = 2 := by decide

@[simp] theorem Cfg.maxLen_reset : Cfg.reset.maxLen = 17 := by decide

@[simp] theorem Cfg.cap_reset : Cfg.reset.cap = 1024 := by decide

@[simp] theorem State.brPos_reset : State.reset.brPos = 0 := by decide

/-- Settles O48: both engines hold `Window.reset` and `Cfg.reset`, and the other registers stand in the reset
state as they are. -/
theorem resetValues : Obligations.ResetValues := by
  unfold Obligations.ResetValues
  exact ⟨rfl, rfl, Window.reset_cur, Window.reset_cur, fun i => ⟨Window.read_reset i, Window.read_reset i⟩,
    rfl, rfl, Cfg.minLen_reset, Cfg.maxLen_reset, Cfg.cap_reset,
    rfl, rfl, rfl, rfl, rfl, rfl, rfl, State.brPos_reset⟩

end Sys2Proof.Machine
end

section
/-! A row of BW.WRITE is one bit string (R130): what the sink has and what is pending are fixed by the bits alone. -/

namespace Sys2Proof.Machine

/-! ## What a bit string leaves in the sink and in the Bit Writer -/

/-- A value below 2^n is recovered from its field. -/
theorem fieldBits_inj {n a b : Nat} (ha : a < 2 ^ n) (hb : b < 2 ^ n) (h : fieldBits n a = fieldBits n b) : a = b := by
  have hv := congrArg bitsValue h
  rwa [bitsValue_fieldBits, bitsValue_fieldBits, Nat.mod_eq_of_lt ha, Nat.mod_eq_of_lt hb] at hv

theorem bytesBits_injective : Function.Injective bytesBits := by
  intro as
  induction as with
  | nil =>
    intro bs h
    have hlen := congrArg List.length h
    rw [length_bytesBits, length_bytesBits] at hlen
    exact (List.eq_nil_of_length_eq_zero (by simpa using hlen.symm)).symm
  | cons a as ih =>
    intro bs h
    cases bs with
    | nil => simpa using congrArg List.length h
    | cons b bs =>
      obtain ⟨hhead, htail⟩ := List.append_inj h (by simp)
      rw [BitVec.eq_of_toNat_eq (fieldBits_inj a.isLt b.isLt hhead), ih htail]

/-- The bytes handed to the sink and a Bit Writer that goes on hold the bit string between them. -/
structure Packed (bits : Bits) (bytes : List Byte) (bw : BitWriter) : Prop where
  eq : bytesBits bytes ++ bw.bits = bits
  inv : bw.inv
  flushed : bw.flushed = false

@[simp] theorem BitWriter.length_bits (bw : BitWriter) : bw.bits.length = bw.nbits.toNat := length_fieldBits _ _

theorem Packed.length_eq {bits : Bits} {bytes : List Byte} {bw : BitWriter} (h : Packed bits bytes bw) :
    8 * bytes.length + bw.nbits.toNat = bits.length := by
  rw [← h.eq, List.length_append, length_bytesBits, BitWriter.length_bits]

/-- The bytes are as many as the bit string has whole bytes. -/
theorem Packed.length_bytes {bits : Bits} {bytes : List Byte} {bw : BitWriter} (h : Packed bits bytes bw) :
    bytes.length = bits.length / 8 := by
  have := h.length_eq
  have := bw.nbits.isLt
  omega

theorem Packed.nbits {bits : Bits} {bytes : List Byte} {bw : BitWriter} (h : Packed bits bytes bw) :
    bw.nbits.toNat = bits.length % 8 := by
  have := h.length_eq
  have := bw.nbits.isLt
  omega

/-- Its whole bytes are in the sink. -/
theorem Packed.bytesBits_eq {bits : Bits} {bytes : List Byte} {bw : BitWriter} (h : Packed bits bytes bw) :
    bytesBits bytes = bits.take (8 * (bits.length / 8)) := by
  rw [← h.length_bytes, ← h.eq]
  exact (List.take_left' (length_bytesBits bytes)).symm

/-- Its last bits are pending. -/
theorem Packed.acc {bits : Bits} {bytes : List Byte} {bw : BitWriter} (h : Packed bits bytes bw) :
    bw.acc.toNat = bitsValue (bits.drop (8 * (bits.length / 8))) := by
  have hdrop : bits.drop (8 * (bits.length / 8)) = bw.bits := by
    rw [← h.length_bytes, ← h.eq]
    exact List.drop_left' (length_bytesBits bytes)
  rw [hdrop, BitWriter.bits, bitsValue_fieldBits, Nat.mod_eq_of_lt h.inv]

/-- A bit string is held in one way only. -/
theorem Packed.unique {bits : Bits} {bytes bytes' : List Byte} {bw bw' : BitWriter} (h : Packed bits bytes bw)
    (h' : Packed bits bytes' bw') : bytes = bytes' ∧ bw = bw' := by
  refine ⟨bytesBits_injective (h.bytesBits_eq.trans h'.bytesBits_eq.symm), ?_⟩
  have hacc : bw.acc = bw'.acc := BitVec.eq_of_toNat_eq (h.acc.trans h'.acc.symm)
  have hnbits : bw.nbits = bw'.nbits := BitVec.eq_of_toNat_eq (h.nbits.trans h'.nbits.symm)
  have hflushed : bw.flushed = bw'.flushed := h.flushed.trans h'.flushed.symm
  cases bw
  cases bw'
  simp_all

/-! ## A row of BW.WRITE -/

/-- What writing leaves: bytes more in the sink, each with one of the sink's answers used, and other Bit Writer
registers. -/
def State.wrote (s : State) (bytes : List Byte) (bw : BitWriter) : State :=
  (s.setSink { taken := s.sink.taken ++ bytes, answers := s.sink.answers.drop bytes.length }).setBw bw

@[simp] theorem wrote_sink (s : State) (bytes : List Byte) (bw : BitWriter) : (s.wrote bytes bw).sink =
    { taken := s.sink.taken ++ bytes, answers := s.sink.answers.drop bytes.length } := rfl
@[simp] theorem wrote_cmp (s : State) (bytes : List Byte) (bw : BitWriter) :
    (s.wrote bytes bw).cmp = { s.cmp with bw := bw } := rfl

/-- Writing nothing changes nothing. -/
theorem wrote_nil (s : State) : s.wrote [] s.cmp.bw = s := by simp [State.wrote, State.setBw]

/-- Writing twice is writing once, whatever was answered between. -/
theorem wrote_wrote (s : State) (as bs : List Byte) (bw bw' : BitWriter) (r r' : Response) :
    (((s.wrote as bw).respond r).wrote bs bw').respond r' = (s.wrote (as ++ bs) bw').respond r' := by
  simp [State.wrote, State.setBw, State.respond, List.drop_drop]

/-- BW.WRITE of one field over a sink that takes every byte (R130, R131). -/
theorem exec_bwWrite_wrote {s : State} {value n : Nat} (hf : s.cmp.bw.flushed = false) (hn : n ≤ 16)
    (h : s.sink.acceptsAll) :
    ∃ bytes bw, Packed (s.cmp.bw.bits ++ fieldBits n value) bytes bw ∧
      exec (.bwWrite value n) s = .next ((s.wrote bytes bw).respond .ok) := by
  obtain ⟨bytes, bw, hlen, hbits, -, hinv, hfl, hw⟩ :=
    bwWrite_accepts (value := value) hf hn (Sink.acceptsNext_of_all h _)
  rw [← hlen] at hw
  refine ⟨bytes, bw, ⟨hbits.symm, hinv, hfl⟩, ?_⟩
  show execBwWrite value n s = _
  rw [execBwWrite, hw]
  rfl

/-- Fields written one after another: their bits follow the pending bits (R130). -/
theorem execAll_bwWrite {s : State} {fields : List (Nat × Nat)} (hf : s.cmp.bw.flushed = false)
    (hi : s.cmp.bw.inv) (h : s.sink.acceptsAll) (hw : ∀ f ∈ fields, f.2 ≤ 16) :
    ∃ bytes bw r, Packed (s.cmp.bw.bits ++ fields.flatMap fun f => fieldBits f.2 f.1) bytes bw ∧
      execAll (fields.map fun f => .bwWrite f.1 f.2) s = .next ((s.wrote bytes bw).respond r) := by
  induction fields generalizing s with
  | nil => exact ⟨[], s.cmp.bw, s.resp, ⟨by simp, hi, hf⟩, by rw [wrote_nil]; rfl⟩
  | cons f fields ih =>
    obtain ⟨hhead, htail⟩ := List.forall_mem_cons.mp hw
    obtain ⟨bytes, bw, hp, hexec⟩ := exec_bwWrite_wrote (value := f.1) hf hhead h
    obtain ⟨bytes', bw', r, hp', hall⟩ := ih (s := (s.wrote bytes bw).respond .ok) hp.flushed hp.inv
      (fun a ha => h a (List.mem_of_mem_drop ha)) htail
    refine ⟨bytes ++ bytes', bw', r, ⟨?_, hp'.inv, hp'.flushed⟩, ?_⟩
    · have hfirst := hp.eq
      have hrest : bytesBits bytes' ++ bw'.bits = bw.bits ++ fields.flatMap fun f => fieldBits f.2 f.1 := hp'.eq
      rw [bytesBits_append, List.append_assoc, hrest, ← List.append_assoc, hfirst, List.flatMap_cons,
        List.append_assoc]
    · rw [List.map_cons, execAll, hexec]
      exact hall.trans (by rw [wrote_wrote])

/-- From an empty Bit Writer the fields' bits are all there is (R130). -/
theorem execAll_bwWrite_empty {s : State} {fields : List (Nat × Nat)}
    (hbw : s.cmp.bw = { acc := 0, nbits := 0, flushed := false }) (h : s.sink.acceptsAll)
    (hw : ∀ f ∈ fields, f.2 ≤ 16) :
    ∃ bytes bw r, Packed (fields.flatMap fun f => fieldBits f.2 f.1) bytes bw ∧
      execAll (fields.map fun f => .bwWrite f.1 f.2) s = .next ((s.wrote bytes bw).respond r) := by
  have hbits : s.cmp.bw.bits = [] := by rw [hbw]; rfl
  have hrow := execAll_bwWrite (by rw [hbw]) (by simp [BitWriter.inv, hbw]) h hw
  rwa [hbits, List.nil_append] at hrow

/-- Settles O8: the fields' bits determine the bytes and the registers (`Packed.unique`), whichever fields they came
from. -/
theorem bwWritesAreTheBitString : Obligations.BwWritesAreTheBitString := by
  unfold Obligations.BwWritesAreTheBitString
  intro s fields hbw htaken haccepts hwidths
  obtain ⟨bytes, bw, r, hp, hexec⟩ := execAll_bwWrite_empty hbw haccepts hwidths
  refine ⟨_, hexec, ?_, fun others hothers hbits => ?_⟩
  · rw [respond_sink, respond_cmp, wrote_sink, wrote_cmp, htaken]
    exact ⟨hp.length_bytes, hp.bytesBits_eq, hp.nbits, hp.acc⟩
  · obtain ⟨bytes', bw', r', hp', hexec'⟩ := execAll_bwWrite_empty hbw haccepts hothers
    rw [hbits] at hp'
    obtain ⟨rfl, rfl⟩ := hp.unique hp'
    exact ⟨_, hexec', rfl, rfl⟩

end Sys2Proof.Machine
end

section
/-! An operation of the compressor engine and the failing sink (R137, R234): `SinkTrue` read off the answer. -/

namespace Sys2Proof.Machine

/-- A sink answer other than a failure is an acceptance. -/
theorem accepts_of_not_fails {used : List SinkAnswer} (h : .fails ∉ used) : ∀ a ∈ used, a = .accepts
  | .accepts, _ => rfl
  | .fails, ha => absurd ha h

/-- What an operation that is true to the sink has answered: SinkError with a FAULTED engine where its last access
failed, something else where none did. -/
theorem SinkTrue.answer {s t : State} {x : Result Unit} (h : SinkTrue s x)
    (ht : x.answer (fun _ => .ok) = .next t) :
    (t.resp = .fault .sinkError ∧ SinkFailed s t ∧ t.cmp.state = .faulted ∧ t.cmp.fault = .sinkError ∨
      t.resp ≠ .fault .sinkError ∧ SinkServed s t) ∧ SameBeside s t := by
  obtain ⟨a, u, hx, rfl⟩ | ⟨f, u, hx, rfl⟩ := answer_eq_next.mp ht
  · obtain ⟨hserved, hbeside⟩ := h.ok a u hx
    exact ⟨.inr ⟨by simp, hserved⟩, hbeside⟩
  · obtain ⟨⟨rfl, hfailed, hstate, hcode⟩ | ⟨hf, hserved⟩, hbeside⟩ := h.fault f u hx
    · exact ⟨.inl ⟨rfl, hfailed, hstate, hcode⟩, hbeside⟩
    · exact ⟨.inr ⟨by simpa using hf, hserved⟩, hbeside⟩

/-- BW.WRITE answers ok or SinkError. -/
theorem execBwWrite_resp {value n : Nat} {s t : State} (h : execBwWrite value n s = .next t) :
    t.resp = .ok ∨ t.resp = .fault .sinkError := by
  unfold execBwWrite at h
  obtain ⟨k, bw, -, -, hw⟩ | ⟨k, hw⟩ | ⟨r, hw, -⟩ := bwWrite_cases value n s <;> rw [hw] at h <;> cases h
  · exact .inl rfl
  · exact .inr rfl

/-- BW.FLUSH answers ok, BW.FLUSHED then being set, or SinkError. -/
theorem execBwFlush_resp {s t : State} (h : execBwFlush s = .next t) :
    t.resp = .ok ∧ t.cmp.bw.flushed = true ∨ t.resp = .fault .sinkError := by
  unfold execBwFlush at h
  obtain ⟨k, hw⟩ | ⟨k, hw⟩ | ⟨hw, -⟩ := bwFlush_cases s <;> rw [hw] at h <;> cases h
  · exact .inl ⟨rfl, rfl⟩
  · exact .inr rfl

/-- Each operation that hands bytes to the sink answers for a result that is true to the sink. -/
theorem exec_sinkTrue {i : Instr} {s : State}
    (hi : (∃ value n, i = .bwWrite value n) ∨ i = .bwFlush ∨ (∃ wb sb lb, i = .cmpInit wb sb lb) ∨
      (∃ data, i = .cmpCompress data) ∨ i = .cmpFlush) :
    ∃ x : Result Unit, SinkTrue s x ∧ exec i s = x.answer fun _ => .ok := by
  rcases hi with ⟨value, n, rfl⟩ | rfl | ⟨wb, sb, lb, rfl⟩ | ⟨data, rfl⟩ | rfl
  · exact ⟨_, sinkTrue_bwWrite value n s, rfl⟩
  · exact ⟨_, sinkTrue_bwFlush s, rfl⟩
  · exact ⟨_, sinkTrue_initCompressor wb sb lb s, rfl⟩
  · exact ⟨_, sinkTrue_compressChunk data s, rfl⟩
  · exact ⟨_, sinkTrue_flushCompressor s, rfl⟩

/-- Settles O13: what `SinkTrue` says of each of the five operations, carried over to its answer. -/
theorem sinkErrorStops : Obligations.SinkErrorStops := by
  unfold Obligations.SinkErrorStops
  intro i s t hi ht
  obtain ⟨x, hx, hexec⟩ := exec_sinkTrue (s := s) hi
  obtain ⟨hsink, hbeside⟩ := hx.answer (hexec.symm.trans ht)
  refine ⟨?_, ?_, ?_, hbeside⟩
  · rcases hsink with ⟨hresp, ⟨used, hused, hfails⟩, -⟩ | ⟨hresp, used, hused, hfails⟩
    · exact .inl ⟨hresp, used, hused, accepts_of_not_fails hfails⟩
    · exact .inr ⟨hresp, used, hused, accepts_of_not_fails hfails⟩
  · intro hresp
    rcases hsink with ⟨-, -, hstate, hfault⟩ | ⟨hother, -⟩
    · exact ⟨hstate, by rw [hfault]; rfl⟩
    · exact absurd hresp hother
  · rintro (⟨value, n, rfl⟩ | rfl)
    · exact execBwWrite_resp ht
    · exact (execBwFlush_resp ht).imp_left And.left

end Sys2Proof.Machine
end

section
/-! BW.FLUSHED stays set (R136): no operation of the compressor engine but CMP.INIT gets past it, and the others do
not write the Bit Writer. -/

namespace Sys2Proof.Machine

/-! ## The operations of the decompressor engine leave the compressor engine -/

/-- The compressor engine, the sink and the host's events are as before. -/
def SameCompressor (s t : State) : Prop := t.cmp = s.cmp ∧ t.sink = s.sink ∧ t.pending = s.pending

/-- A stream instruction that answers ran inside a DEC.DECOMPRESS, in the state that fetches it. -/
theorem inPull_eq_next {want : DecState} {s t : State} {run : Pull → Host.Outcome State Fault Refusal} :
    inPull want s run = .next t ↔ ∃ p, s.pull = some p ∧ s.dec.state = want ∧ run p = .next t := by
  unfold inPull
  split
  · next hp => simp [hp]
  · next p hp => split <;> simp_all

theorem execHeader_sameCompressor {w : BitVec 3} {sz l : BitVec 2} {s t : State}
    (h : execHeader w sz l s = .next t) : SameCompressor s t := by
  obtain ⟨p, -, -, hrun⟩ := inPull_eq_next.mp h
  cases hrun
  exact ⟨rfl, rfl, rfl⟩

theorem execLiteral_sameCompressor {v : Byte} {s t : State} (h : execLiteral v s = .next t) : SameCompressor s t := by
  obtain ⟨p, -, -, hrun⟩ := inPull_eq_next.mp h
  cases hrun
  exact ⟨rfl, rfl, rfl⟩

theorem execReference_sameCompressor {pos : BitVec 15} {n : BitVec 7} {s t : State}
    (h : execReference pos n s = .next t) : SameCompressor s t := by
  obtain ⟨p, -, -, hrun⟩ := inPull_eq_next.mp h
  split at hrun
  · cases hrun
    exact ⟨rfl, rfl, rfl⟩
  · cases hrun

theorem execPad_sameCompressor {k : BitVec 3} {s t : State} (h : execPad k s = .next t) : SameCompressor s t := by
  obtain ⟨p, -, -, hrun⟩ := inPull_eq_next.mp h
  cases hrun
  exact ⟨rfl, rfl, rfl⟩

theorem execDecInit_sameCompressor {s t : State} (h : execDecInit s = .next t) : SameCompressor s t := by
  unfold execDecInit at h
  split at h
  · cases h
  · cases h
    exact ⟨rfl, rfl, rfl⟩

theorem execDecDecompress_sameCompressor {maxSize : Int} {s t : State} (h : execDecDecompress maxSize s = .next t) :
    SameCompressor s t := by
  cases hp : s.pull with
  | some p => simp [execDecDecompress, hp] at h
  | none =>
    by_cases hs : s.dec.state = .faulted
    · simp [execDecDecompress, hp, hs] at h
    · obtain ⟨u, hu, hcmp, hsink, hpending, -⟩ := execDecDecompress_runs maxSize hp hs
      cases hu.symm.trans h
      exact ⟨hcmp, hsink, hpending⟩

theorem execBrRead_sameCompressor {n : Nat} {s t : State} (h : execBrRead n s = .next t) : SameCompressor s t := by
  unfold execBrRead at h
  obtain ⟨v, src, br, -, hr⟩ | ⟨src, hr⟩ | ⟨-, hr⟩ | ⟨src, hr⟩ | ⟨hr, -⟩ := brRead_cases n s <;>
    rw [hr] at h <;> cases h <;> exact ⟨rfl, rfl, rfl⟩

/-! ## The other units -/

/-- Appending to a window writes no Bit Writer. -/
@[simp] theorem appendWindow_cmp_bw (s : State) (e : Engine) (seq : List Byte) :
    (s.appendWindow e seq).cmp.bw = s.cmp.bw := by
  cases e <;> rfl

theorem execWinWriteByte_bw {e : Engine} {b : Nat} {s t : State} (h : execWinWriteByte e b s = .next t) :
    t.cmp.bw = s.cmp.bw := by
  unfold execWinWriteByte at h
  split at h
  · cases h
  · cases h
    simp

theorem execWinWriteBytes_bw {e : Engine} {seq : List Byte} {s t : State}
    (h : execWinWriteBytes e seq s = .next t) : t.cmp.bw = s.cmp.bw := by
  cases h
  simp

theorem execWinSearch_cmp {pattern : List Byte} {start : Nat} {s t : State}
    (h : execWinSearch pattern start s = .next t) : t.cmp = s.cmp := by
  unfold execWinSearch at h
  split at h
  · split at h <;> cases h <;> rfl
  · cases h

theorem execWinReadSpan_cmp {pos len : Nat} {s t : State} (h : execWinReadSpan pos len s = .next t) :
    t.cmp = s.cmp := by
  unfold execWinReadSpan at h
  split at h
  · cases h
    rfl
  · cases h

theorem execHdrEncode_cmp {wb sb lb : Nat} {s t : State} (h : execHdrEncode wb sb lb s = .next t) :
    t.cmp = s.cmp := by
  unfold execHdrEncode hdrEncode at h
  split at h <;> cases h <;> rfl

theorem execHdrDecode_cmp {b : Byte} {s t : State} (h : execHdrDecode b s = .next t) : t.cmp = s.cmp := by
  unfold execHdrDecode hdrDecode at h
  split at h <;> cases h <;> rfl

/-! ## The compressor engine with BW.FLUSHED set -/

theorem bwWrite_of_flushed {s : State} (hf : s.cmp.bw.flushed = true) (value n : Nat) :
    bwWrite value n s = .refused .useAfterFlush := by
  rw [bwWrite, if_pos hf]

theorem bwFlush_of_flushed {s : State} (hf : s.cmp.bw.flushed = true) : bwFlush s = .refused .useAfterFlush := by
  rw [bwFlush, if_pos hf]

theorem exec_bwWrite_of_flushed {s : State} (hf : s.cmp.bw.flushed = true) (value n : Nat) :
    exec (.bwWrite value n) s = .refused .useAfterFlush := by
  simp [exec, execBwWrite, bwWrite_of_flushed hf]

theorem exec_bwFlush_of_flushed {s : State} (hf : s.cmp.bw.flushed = true) :
    exec .bwFlush s = .refused .useAfterFlush := by
  simp [exec, execBwFlush, bwFlush_of_flushed hf]

/-- CMP.FLUSH is refused: BW.FLUSH in it is. -/
theorem execCmpFlush_of_flushed {s t : State} (hf : s.cmp.bw.flushed = true) : execCmpFlush s ≠ .next t := by
  unfold execCmpFlush flushCompressor
  split
  · simp [bwFlush_of_flushed hf]
  · simp

/-- A token is refused at its first bit, unless its literal's byte does not fit, which is found before any bit. -/
theorem emitToken_of_flushed {s : State} (hf : s.cmp.bw.flushed = true) (b : Byte) (bs : List Byte) (ipos : Nat) :
    emitToken (b :: bs) ipos s = .refused .useAfterFlush ∨
      emitToken (b :: bs) ipos s = .fault (.excessBits b ipos) (enterFault (.excessBits b ipos) s) := by
  unfold emitToken
  simp only
  split
  · exact .inl (by simp [emitReference, bwWrite_of_flushed hf])
  · by_cases hb : 2 ^ s.cmp.cfg.lb.toNat ≤ b.toNat
    · exact .inr (by rw [emitLiteral_excess b ipos hb, bind_fault])
    · exact .inl (by simp [emitLiteral, hb, bwWrite_of_flushed hf])

/-- CMP.COMPRESS answers for the empty chunk, or with ExcessBitsError at its first byte; either leaves the Bit
Writer. -/
theorem execCmpCompress_of_flushed {data : List Byte} {s t : State} (hf : s.cmp.bw.flushed = true)
    (h : execCmpCompress data s = .next t) : t.cmp.bw = s.cmp.bw := by
  unfold execCmpCompress compressChunk at h
  split at h
  · cases data with
    | nil =>
      cases h
      rfl
    | cons b bs =>
      rw [List.length_cons, compressLoop] at h
      rcases emitToken_of_flushed hf b bs 0 with he | he <;> rw [he] at h <;> cases h
      rfl
  · cases h

/-- With BW.FLUSHED set, no operation but CMP.INIT that answers leaves it clear (R136). -/
theorem exec_keeps_flushed {i : Instr} {s t : State} (hf : s.cmp.bw.flushed = true)
    (hi : ∀ wb sb lb, i ≠ .cmpInit wb sb lb) (h : exec i s = .next t) : t.cmp.bw.flushed = true := by
  have of_cmp (hcmp : t.cmp = s.cmp) : t.cmp.bw.flushed = true := by rw [hcmp, hf]
  have of_bw (hbw : t.cmp.bw = s.cmp.bw) : t.cmp.bw.flushed = true := by rw [hbw, hf]
  cases i with
  | header w sz l => exact of_cmp (execHeader_sameCompressor h).1
  | literal v => exact of_cmp (execLiteral_sameCompressor h).1
  | reference pos n => exact of_cmp (execReference_sameCompressor h).1
  | pad k => exact of_cmp (execPad_sameCompressor (k := k) h).1
  | cmpInit wb sb lb => exact absurd rfl (hi wb sb lb)
  | cmpCompress data => exact of_bw (execCmpCompress_of_flushed hf h)
  | cmpFlush => exact absurd h (execCmpFlush_of_flushed hf)
  | cmpReserved => cases h
  | decInit => exact of_cmp (execDecInit_sameCompressor h).1
  | decDecompress maxSize => exact of_cmp (execDecDecompress_sameCompressor h).1
  | decReserved x => cases h
  | bwWrite value n => cases (exec_bwWrite_of_flushed hf value n).symm.trans h
  | bwFlush => cases (exec_bwFlush_of_flushed hf).symm.trans h
  | brRead n => exact of_cmp (execBrRead_sameCompressor h).1
  | winWriteByte e b => exact of_bw (execWinWriteByte_bw h)
  | winWriteBytes e seq => exact of_bw (execWinWriteBytes_bw h)
  | winSearch pattern start => exact of_cmp (execWinSearch_cmp h)
  | winReadSpan pos len => exact of_cmp (execWinReadSpan_cmp h)
  | hdrEncode wb sb lb => exact of_cmp (execHdrEncode_cmp h)
  | hdrDecode b => exact of_cmp (execHdrDecode_cmp h)

/-- Settles O11: an ok of BW.FLUSH sets the flag, the units are refused while it is set, and `exec_keeps_flushed`. -/
theorem flushedUntilInit : Obligations.FlushedUntilInit := by
  unfold Obligations.FlushedUntilInit
  refine fun s => ⟨fun t h hresp => ?_, fun hf =>
    ⟨exec_bwWrite_of_flushed hf, exec_bwFlush_of_flushed hf, fun i t => exec_keeps_flushed hf⟩⟩
  rcases execBwFlush_resp h with ⟨-, hset⟩ | hfault
  · exact hset
  · cases hresp.symm.trans hfault

end Sys2Proof.Machine
end

section
/-! BR.READ at the end of the stream (R153): with fewer bits left than it wants it needs a byte more than the source
has, and what the source answers after its last byte decides between EndOfStream and SourceError. -/

namespace Sys2Proof.Machine

/-! ## What the source answers after its last byte -/

theorem endsCleanly_nil (d : Nat) : Source.endsCleanly { answers := [], delivered := d } := by
  simp [Source.endsCleanly]

/-- The first byte says nothing of the end; nor does the count of bytes delivered. -/
theorem endsCleanly_byte_iff (b : Byte) (rest : List SourceAnswer) (d e : Nat) :
    Source.endsCleanly { answers := .byte b :: rest, delivered := d } ↔
      Source.endsCleanly { answers := rest, delivered := e } := by
  simp [Source.endsCleanly, leadingBytes]

theorem endsCleanly_exhausted (rest : List SourceAnswer) (d : Nat) :
    Source.endsCleanly { answers := .exhausted :: rest, delivered := d } := by
  simp [Source.endsCleanly, leadingBytes]

/-- More bytes wanted than the source has, and then it fails: SourceError (R156). -/
theorem pullBytes_fails (k t : Nat) (s : State) (h : (leadingBytes s.source.answers).length < k)
    (hc : ¬ s.source.endsCleanly) :
    ∃ src, pullBytes k t s = .fault .sourceError (enterFault .sourceError (s.setSource src)) := by
  induction k generalizing t s with
  | zero => omega
  | succ k ih =>
    rcases hs : s.source with ⟨answers, delivered⟩
    rw [pullBytes]
    rw [hs] at h hc
    cases answers with
    | nil => exact absurd (endsCleanly_nil delivered) hc
    | cons a rest =>
      cases a with
      | byte b =>
        simp only [sourceGet, hs]
        refine ih _ (s.setSource { answers := rest, delivered := delivered + 1 }) ?_ ?_
        · simpa [leadingBytes] using h
        · rwa [endsCleanly_byte_iff b rest delivered (delivered + 1)] at hc
      | exhausted => exact absurd (endsCleanly_exhausted rest delivered) hc
      | fails => exact ⟨{ answers := rest, delivered := delivered }, by simp [sourceGet, hs]⟩

/-! ## BR.READ that lacks bits -/

/-- BR.READ where the stream has fewer bits and the source then fails: SourceError (R156). -/
theorem brRead_fails {n : Nat} {s : State} (he : s.dec.br.eos = false) (hn : n ≤ Config.nMax)
    (h : s.unreadBits.length < n) (hc : ¬ s.source.endsCleanly) :
    ∃ src, brRead n s = .fault .sourceError (enterFault .sourceError (s.setSource src)) := by
  rw [State.length_unreadBits] at h
  have hw : widthOk n = true := by simpa [widthOk] using hn
  have hk : (leadingBytes s.source.answers).length < bytesNeeded s.dec.br.nbits.toNat n := by
    rw [bytesNeeded]
    omega
  obtain ⟨src, hp⟩ := pullBytes_fails _ s.dec.br.acc.toNat s hk hc
  refine ⟨src, ?_⟩
  unfold brRead
  rw [hw, he, hp]
  rfl

/-- BR.READ used alone answers what the Bit Reader gives. -/
theorem exec_brRead (n : Nat) (s : State) : exec (.brRead n) s = (brRead n s).answer .value := rfl

/-- Settles O16: the bits are there (`brRead_accepts`), or they are not and the source ends (`brRead_ends`) or fails
(`brRead_fails`); in the second case alone the answer is EndOfStream. -/
theorem brEndOfStream : Obligations.BrEndOfStream := by
  unfold Obligations.BrEndOfStream
  intro s n he hn
  have hexec := exec_brRead n s
  rcases le_or_gt n s.unreadBits.length with hle | hlt
  · obtain ⟨br, -, -, -, -, hr⟩ := brRead_accepts he hn hle
    rw [hr, answer_ok] at hexec
    exact ⟨_, hexec, ⟨nofun, fun h => absurd h.1 (Nat.not_lt.mpr hle)⟩, nofun, execBrRead_sameCompressor hexec⟩
  · by_cases hc : s.source.endsCleanly
    · rw [brRead_ends he hn hlt hc, answer_fault] at hexec
      exact ⟨_, hexec, iff_of_true rfl ⟨hlt, hc⟩, fun _ => ⟨rfl, rfl, rfl, rfl, rfl⟩,
        execBrRead_sameCompressor hexec⟩
    · obtain ⟨src, hr⟩ := brRead_fails he hn hlt hc
      rw [hr, answer_fault] at hexec
      exact ⟨_, hexec, ⟨nofun, fun h => absurd h.2 hc⟩, nofun, execBrRead_sameCompressor hexec⟩

end Sys2Proof.Machine
end

section
/-! A failing source (R156, R276): `SourceTrue` read off BR.READ's answer, `pullLoop_source` off DEC.DECOMPRESS's. -/

namespace Sys2Proof.Machine

/-- An operation over the source has ended: with SourceError and a FAULTED engine where its last access failed, with
something else where none did. -/
def SourceEnded (s t : State) : Prop :=
  (SourceServed s t ∧ t.resp ≠ .fault .sourceError) ∨
    (SourceFailed s t ∧ t.dec.state = .faulted ∧ t.dec.fault = .sourceError ∧ t.pull = none ∧
      t.resp = .fault .sourceError)

theorem execBrRead_sourceEnded {n : Nat} {s t : State} (h : execBrRead n s = .next t) : SourceEnded s t := by
  have htrue := sourceTrue_brRead n s
  obtain ⟨v, u, hr, rfl⟩ | ⟨f, u, hr, rfl⟩ := answer_eq_next.mp h
  · exact .inl ⟨htrue.ok v u hr, by simp⟩
  · obtain ⟨rfl, hfailed, hstate, hfault, hpull, -⟩ | ⟨rfl, hserved⟩ := htrue.fault f u hr
    · exact .inr ⟨hfailed, hstate, hfault, hpull, rfl⟩
    · exact .inl ⟨hserved, by simp⟩

/-- DEC.DECOMPRESS that answers was not refused, and its loop ran to its end. -/
theorem execDecDecompress_eq_next {maxSize : Int} {s t : State} :
    execDecDecompress maxSize s = .next t ↔
      s.pull = none ∧ s.dec.state ≠ .faulted ∧ pullLoop (bitsLeft s + 4) (openPull maxSize s) = .next t := by
  unfold execDecDecompress
  cases hp : s.pull with
  | some p => simp
  | none => by_cases hs : s.dec.state = .faulted <;> simp [hs]

theorem execDecDecompress_sourceEnded {maxSize : Int} {s t : State} (h : execDecDecompress maxSize s = .next t) :
    SourceEnded s t := by
  obtain ⟨-, -, hloop⟩ := execDecDecompress_eq_next.mp h
  exact pullLoop_source _ (s := openPull maxSize s) (by simp [openPull]) hloop

/-- Settles O18: each of the two operations has `SourceEnded`, and leaves the compressor engine. -/
theorem sourceErrorStops : Obligations.SourceErrorStops := by
  unfold Obligations.SourceErrorStops
  intro i s t hi ht
  obtain ⟨hended, hsame⟩ : SourceEnded s t ∧ SameCompressor s t := by
    rcases hi with ⟨n, rfl⟩ | ⟨m, rfl⟩
    · exact ⟨execBrRead_sourceEnded ht, execBrRead_sameCompressor ht⟩
    · exact ⟨execDecDecompress_sourceEnded ht, execDecDecompress_sameCompressor ht⟩
  rcases hended with ⟨⟨used, hused, hfails⟩, hresp⟩ | ⟨⟨used, hused, hfails⟩, hstate, hfault, hpull, hresp⟩
  · exact ⟨.inr ⟨hresp, used, hused, List.forall_mem_ne'.mpr hfails⟩, fun h => absurd h hresp, hsame⟩
  · exact ⟨.inl ⟨hresp, used, hused, List.forall_mem_ne'.mpr hfails⟩,
      fun _ => ⟨hstate, by rw [hfault]; rfl, hpull⟩, hsame⟩

end Sys2Proof.Machine
end

section
/-! BR.EOS stays set (R154): no read gets past it, and what does not read leaves the Bit Reader or sets the flag. -/

namespace Sys2Proof.Machine

/-! ## BR.READ -/

/-- EndOfStream leaves BR.EOS set, whether it was raised now or before (R153, R154). -/
theorem execBrRead_eos_of_endOfStream {n : Nat} {s t : State} (h : execBrRead n s = .next t)
    (hresp : t.resp = .fault .endOfStream) : t.dec.br.eos = true := by
  unfold execBrRead at h
  obtain ⟨v, src, br, -, hr⟩ | ⟨src, hr⟩ | ⟨he, hr⟩ | ⟨src, hr⟩ | ⟨hr, -⟩ := brRead_cases n s <;>
    rw [hr] at h <;> cases h
  · cases hresp
  · rfl
  · exact he
  · cases hresp

/-- With BR.EOS set, a read of a legal width answers EndOfStream and changes nothing else (R154). -/
theorem execBrRead_of_eos {n : Nat} {s : State} (he : s.dec.br.eos = true) (hn : n ≤ Config.nMax) :
    execBrRead n s = .next (s.respond (.fault .endOfStream)) := by
  rw [execBrRead, brRead_eos he hn, answer_fault]

/-- A width above NMAX is refused, whatever the flag (R155). -/
theorem execBrRead_of_wide {n : Nat} (hn : Config.nMax < n) (s : State) : execBrRead n s = .refused .badWidth := by
  rw [execBrRead, brRead, if_pos (by simpa [widthOk] using hn), answer_refused]

/-! ## DEC.DECOMPRESS with BR.EOS set -/

theorem headerStep_of_eos {s : State} (he : s.dec.br.eos = true) :
    headerStep s = .next (enterFault .endOfStream s) := by
  rw [headerStep, brRead_eos he (by decide)]
  rfl

theorem tokenStep_of_eos {s : State} (he : s.dec.br.eos = true) : tokenStep s = .next s.finish := by
  rw [tokenStep, fetchToken, brRead_eos he (by decide)]
  rfl

/-- A step's read finds the end of the stream, and no step writes the Bit Reader otherwise. -/
theorem pullStep_br_of_eos {s u : State} (he : s.dec.br.eos = true) (h : pullStep s = .next u) :
    u.dec.br = s.dec.br := by
  unfold pullStep at h
  rw [headerStep_of_eos he, tokenStep_of_eos he] at h
  cases hp : s.pull with
  | none => simp [hp] at h
  | some p =>
    cases hst : s.dec.state <;> simp only [hp, hst] at h
    case hdrPending =>
      cases h
      rfl
    case midStream =>
      split at h
      · split at h <;> cases h <;> rfl
      · cases h
        rfl
    case finished => split at h <;> cases h <;> rfl
    case faulted => cases h

theorem pullLoop_br_of_eos (fuel : Nat) {s t : State} (he : s.dec.br.eos = true) (h : pullLoop fuel s = .next t) :
    t.dec.br = s.dec.br := by
  induction fuel generalizing s with
  | zero =>
    rw [pullLoop] at h
    split at h
    · cases h
      rfl
    · cases h
  | succ fuel ih =>
    rw [pullLoop] at h
    split at h
    · cases h
      rfl
    · split at h
      · next u hu =>
        have hbr := pullStep_br_of_eos he hu
        exact (ih (by rw [hbr, he]) h).trans hbr
      · cases h
      · cases h

theorem execDecDecompress_br_of_eos {maxSize : Int} {s t : State} (he : s.dec.br.eos = true)
    (h : execDecDecompress maxSize s = .next t) : t.dec.br = s.dec.br := by
  obtain ⟨-, -, hloop⟩ := execDecDecompress_eq_next.mp h
  exact pullLoop_br_of_eos _ (s := openPull maxSize s) he hloop

/-! ## The stream's instructions -/

theorem execHeader_br {w : BitVec 3} {sz l : BitVec 2} {s t : State} (h : execHeader w sz l s = .next t) :
    t.dec.br = s.dec.br := by
  obtain ⟨p, -, -, hrun⟩ := inPull_eq_next.mp h
  cases hrun
  rfl

theorem execLiteral_br {v : Byte} {s t : State} (h : execLiteral v s = .next t) : t.dec.br = s.dec.br := by
  obtain ⟨p, -, -, hrun⟩ := inPull_eq_next.mp h
  cases hrun
  rfl

theorem execReference_br {pos : BitVec 15} {n : BitVec 7} {s t : State} (h : execReference pos n s = .next t) :
    t.dec.br = s.dec.br := by
  obtain ⟨p, -, -, hrun⟩ := inPull_eq_next.mp h
  split at hrun
  · cases hrun
    rfl
  · cases hrun

/-- Padding is the end of the stream (R104). -/
theorem execPad_eos {k : BitVec 3} {s t : State} (h : execPad k s = .next t) : t.dec.br.eos = true := by
  obtain ⟨p, -, -, hrun⟩ := inPull_eq_next.mp h
  cases hrun
  rfl

/-! ## The other operations -/

/-- An operation that hands bytes to the sink leaves the decompressor engine (R20). -/
theorem exec_dec_of_sinkTrue {i : Instr} {s t : State}
    (hi : (∃ value n, i = .bwWrite value n) ∨ i = .bwFlush ∨ (∃ wb sb lb, i = .cmpInit wb sb lb) ∨
      (∃ data, i = .cmpCompress data) ∨ i = .cmpFlush)
    (h : exec i s = .next t) : t.dec = s.dec := by
  obtain ⟨x, hx, hexec⟩ := exec_sinkTrue (s := s) hi
  exact (hx.answer (hexec.symm.trans h)).2.1

/-- Appending to a window writes no Bit Reader. -/
@[simp] theorem appendWindow_dec_br (s : State) (e : Engine) (seq : List Byte) :
    (s.appendWindow e seq).dec.br = s.dec.br := by
  cases e <;> rfl

theorem execWinWriteByte_br {e : Engine} {b : Nat} {s t : State} (h : execWinWriteByte e b s = .next t) :
    t.dec.br = s.dec.br := by
  unfold execWinWriteByte at h
  split at h
  · cases h
  · cases h
    simp

theorem execWinWriteBytes_br {e : Engine} {seq : List Byte} {s t : State}
    (h : execWinWriteBytes e seq s = .next t) : t.dec.br = s.dec.br := by
  cases h
  simp

/-! ### Units that change the response only -/

theorem execWinSearch_respond {pattern : List Byte} {start : Nat} {s t : State}
    (h : execWinSearch pattern start s = .next t) : ∃ r, t = s.respond r := by
  unfold execWinSearch at h
  split at h
  · split at h <;> cases h <;> exact ⟨_, rfl⟩
  · cases h

theorem execWinReadSpan_respond {pos len : Nat} {s t : State} (h : execWinReadSpan pos len s = .next t) :
    ∃ r, t = s.respond r := by
  unfold execWinReadSpan at h
  split at h
  · cases h
    exact ⟨_, rfl⟩
  · cases h

theorem execHdrEncode_respond {wb sb lb : Nat} {s t : State} (h : execHdrEncode wb sb lb s = .next t) :
    ∃ r, t = s.respond r := by
  unfold execHdrEncode hdrEncode at h
  split at h <;> cases h <;> exact ⟨_, rfl⟩

theorem execHdrDecode_respond {b : Byte} {s t : State} (h : execHdrDecode b s = .next t) :
    ∃ r, t = s.respond r := by
  unfold execHdrDecode hdrDecode at h
  split at h <;> cases h <;> exact ⟨_, rfl⟩

/-! ### Every operation -/

/-- With BR.EOS set, no operation but DEC.INIT that answers leaves it clear (R154). -/
theorem exec_keeps_eos {i : Instr} {s t : State} (he : s.dec.br.eos = true) (hi : i ≠ .decInit)
    (h : exec i s = .next t) : t.dec.br.eos = true := by
  have of_br (hbr : t.dec.br = s.dec.br) : t.dec.br.eos = true := by rw [hbr, he]
  have of_dec (hdec : t.dec = s.dec) : t.dec.br.eos = true := by rw [hdec, he]
  have of_respond : (∃ r, t = s.respond r) → t.dec.br.eos = true := by
    rintro ⟨r, rfl⟩
    exact he
  cases i with
  | header w sz l => exact of_br (execHeader_br h)
  | literal v => exact of_br (execLiteral_br h)
  | reference pos n => exact of_br (execReference_br h)
  | pad k => exact execPad_eos (k := k) h
  | cmpInit wb sb lb => exact of_dec (exec_dec_of_sinkTrue (by simp) h)
  | cmpCompress data => exact of_dec (exec_dec_of_sinkTrue (by simp) h)
  | cmpFlush => exact of_dec (exec_dec_of_sinkTrue (by simp) h)
  | cmpReserved => cases h
  | decInit => exact absurd rfl hi
  | decDecompress maxSize => exact of_br (execDecDecompress_br_of_eos he h)
  | decReserved x => cases h
  | bwWrite value n => exact of_dec (exec_dec_of_sinkTrue (by simp) h)
  | bwFlush => exact of_dec (exec_dec_of_sinkTrue (by simp) h)
  | brRead n =>
    by_cases hn : n ≤ Config.nMax
    · cases (execBrRead_of_eos he hn).symm.trans h
      exact he
    · cases (execBrRead_of_wide (Nat.lt_of_not_le hn) s).symm.trans h
  | winWriteByte e b => exact of_br (execWinWriteByte_br h)
  | winWriteBytes e seq => exact of_br (execWinWriteBytes_br h)
  | winSearch pattern start => exact of_respond (execWinSearch_respond h)
  | winReadSpan pos len => exact of_respond (execWinReadSpan_respond h)
  | hdrEncode wb sb lb => exact of_respond (execHdrEncode_respond h)
  | hdrDecode b => exact of_respond (execHdrDecode_respond h)

/-- Settles O17: EndOfStream sets the flag, a read is at its end while it is set, and `exec_keeps_eos`. -/
theorem endOfStreamSticks : Obligations.EndOfStreamSticks := by
  unfold Obligations.EndOfStreamSticks
  exact fun s => ⟨fun n t => execBrRead_eos_of_endOfStream,
    fun he => ⟨fun n hn => ⟨_, execBrRead_of_eos he hn, rfl, rfl⟩, fun i t => exec_keeps_eos he⟩⟩

end Sys2Proof.Machine
end

section
/-! Writing to the window (R170 to R172): what the two write operations answer, and the cells and cursor after them. -/

namespace Sys2Proof.Machine

/-! ## An engine's window and configuration after an append -/

@[simp] theorem window_setWindow (s : State) (e : Engine) (w : Window) : (s.setWindow e w).window e = w := by
  cases e <;> rfl

@[simp] theorem window_respond (s : State) (e : Engine) (r : Response) : (s.respond r).window e = s.window e := by
  cases e <;> rfl

@[simp] theorem window_appendWindow (s : State) (e : Engine) (seq : List Byte) :
    (s.appendWindow e seq).window e = Window.writeBytes (s.cfgOf e).cap (s.window e) seq :=
  window_setWindow s e _

@[simp] theorem appendWindow_nil (s : State) (e : Engine) : s.appendWindow e [] = s := by
  cases e <;> rfl

/-- Appending a sequence is appending its first byte and then the rest, whatever the response in between. -/
theorem appendWindow_cons_respond (s : State) (e : Engine) (b : Byte) (bs : List Byte) (r r' : Response) :
    (((s.appendWindow e [b]).respond r).appendWindow e bs).respond r' = (s.appendWindow e (b :: bs)).respond r' := by
  cases e <;> rfl

/-! ## WIN.WRITE_BYTE (R171) -/

theorem exec_winWriteByte {b : Nat} (hb : b < 256) (s : State) (e : Engine) :
    exec (.winWriteByte e b) s = .next ((s.appendWindow e [BitVec.ofNat 8 b]).respond .ok) :=
  if_neg (by omega)

theorem exec_winWriteByte_of_wide {b : Nat} (hb : 255 < b) (s : State) (e : Engine) :
    exec (.winWriteByte e b) s = .refused .badOperand :=
  if_pos hb

/-- Settles O20: the window after the append is `Window.writeByte`'s, whose cells `Memory.read_write` gives and whose
cursor `Window.writeByte_cur`. -/
theorem windowWriteByte : Obligations.WindowWriteByte := by
  unfold Obligations.WindowWriteByte
  intro s e b
  refine ⟨fun hb hm => ⟨_, exec_winWriteByte hb s e, fun i => Memory.read_write hm _ _ i, ?_⟩,
    fun hb => exec_winWriteByte_of_wide hb s e⟩
  exact Window.writeByte_cur (Cfg.cap_pos _) (Cfg.cap_le _) _ _

/-! ## WIN.WRITE_BYTES (R172) -/

theorem exec_winWriteBytes (s : State) (e : Engine) (seq : List Byte) :
    exec (.winWriteBytes e seq) s = .next ((s.appendWindow e seq).respond .ok) := rfl

/-- A row of WIN.WRITE_BYTE appends its bytes in order. -/
theorem execAll_winWriteByte (s : State) (e : Engine) (seq : List Byte) :
    ∃ r, execAll (seq.map fun b => .winWriteByte e b.toNat) s = .next ((s.appendWindow e seq).respond r) := by
  induction seq generalizing s with
  | nil => exact ⟨s.resp, by rw [appendWindow_nil]; rfl⟩
  | cons b bs ih =>
    obtain ⟨r, hr⟩ := ih ((s.appendWindow e [b]).respond .ok)
    have hb := exec_winWriteByte b.isLt s e
    rw [BitVec.ofNat_toNat, BitVec.setWidth_eq] at hb
    refine ⟨r, ?_⟩
    rw [List.map_cons, execAll, hb, ← appendWindow_cons_respond s e b bs .ok r]
    exact hr

/-- Settles O21: both append the sequence to the window, and differ in the response at most. -/
theorem windowWriteBytes : Obligations.WindowWriteBytes := by
  unfold Obligations.WindowWriteBytes
  intro s e seq
  obtain ⟨r, hr⟩ := execAll_winWriteByte s e seq
  exact ⟨_, hr, exec_winWriteBytes s e seq⟩

/-! ## A new window after a sequence (R170) -/

/-- From cursor 0 the sequence has not reached the index of its length, nor one above it. -/
theorem Window.read_writeBytes_unreached {c : Nat} (hle : c ≤ 2 ^ 15) {w : Window} (hm : Memory.wf w.buf)
    (hcur : w.cur = 0) {seq : List Byte} {i : Nat} (hi : i < c) (hseq : seq.length ≤ i) :
    Memory.read (Window.writeBytes c w seq).buf i = Memory.read w.buf i := by
  have hc : 0 < c := by omega
  have hzero : w.cur.toNat = 0 := by rw [hcur]; rfl
  refine Window.read_writeBytes_other hc hle hm (by omega) seq i fun k hk => ?_
  rw [hzero, Nat.zero_add, Nat.mod_eq_of_lt (by omega)]
  omega

/-- Settles O22: an index the sequence does not reach is as before, and a byte that no later one overwrites stands at
its own position modulo C. -/
theorem windowContents : Obligations.WindowContents := by
  unfold Obligations.WindowContents
  intro s e seq hm hcur hnew
  have hpos := Cfg.cap_pos (s.cfgOf e)
  have hle := Cfg.cap_le (s.cfgOf e)
  have hzero : (s.window e).cur.toNat = 0 := by rw [hcur]; rfl
  have hlt : (s.window e).cur.toNat < (s.cfgOf e).cap := by omega
  refine ⟨_, exec_winWriteBytes s e seq, ?_⟩
  rw [window_respond, window_appendWindow]
  refine ⟨?_, fun i hi => ⟨fun hseq => ?_, fun j hj hji hlast => ?_⟩⟩
  · rw [Window.writeBytes_cur hpos hle _ hlt, hzero, Nat.zero_add]
  · rw [Window.read_writeBytes_unreached hle hm hcur hi hseq, hnew i hi]
  · have hread := Window.read_writeBytes hpos hle hm hlt seq j hj hlast
    rwa [hzero, Nat.zero_add, hji] at hread

end Sys2Proof.Machine
end

section
/-! WIN.SEARCH (R174 to R179): its two answers say where the pattern occurs, and everything else follows from that. -/

namespace Sys2Proof.Machine

/-! ## The search by where the pattern occurs -/

/-- The least index from start on at which the pattern stands in the linear buffer of capacity c (R174). -/
def leastOccurrence (c : Nat) (w : Window) (pattern : List Byte) (start i : Nat) : Prop :=
  start ≤ i ∧ occursAt c w pattern i ∧ ∀ j, start ≤ j → j < i → ¬ occursAt c w pattern j

theorem leastOccurrence_unique {c : Nat} {w : Window} {pattern : List Byte} {start i j : Nat}
    (hi : leastOccurrence c w pattern start i) (hj : leastOccurrence c w pattern start j) : i = j := by
  obtain ⟨hsi, hoi, hmini⟩ := hi
  obtain ⟨hsj, hoj, hminj⟩ := hj
  rcases Nat.lt_trichotomy i j with hlt | heq | hgt
  · exact absurd hoi (hminj i hsi hlt)
  · exact heq
  · exact absurd hoj (hmini j hsj hgt)

/-- The least occurrence lies in the linear buffer. -/
theorem leastOccurrence_le_cap {c : Nat} {w : Window} {pattern : List Byte} {start i : Nat}
    (h : leastOccurrence c w pattern start i) : i ≤ c := by
  obtain ⟨-, ⟨hfits, -⟩, -⟩ := h
  omega

/-- The least occurrence is also the least from any later start that is not past it. -/
theorem leastOccurrence_later_start {c : Nat} {w : Window} {pattern : List Byte} {start start' i : Nat}
    (h : leastOccurrence c w pattern start i) (hs : start ≤ start') (hi : start' ≤ i) :
    leastOccurrence c w pattern start' i := by
  obtain ⟨-, ho, hmin⟩ := h
  exact ⟨hi, ho, fun j hj => hmin j (Nat.le_trans hs hj)⟩

theorem Window.search_eq_some_iff {c : Nat} {w : Window} {pattern : List Byte} {start i : Nat} (hp : pattern ≠ []) :
    Window.search c w pattern start = some i ↔ leastOccurrence c w pattern start i := by
  refine ⟨Window.search_some hp, fun h => ?_⟩
  have ⟨hs, ho, _⟩ := h
  obtain ⟨j, hj⟩ := Window.search_isSome hs ho
  rw [hj, leastOccurrence_unique h (Window.search_some hp hj)]

theorem Window.search_eq_none_iff {c : Nat} {w : Window} {pattern : List Byte} {start : Nat} (hp : pattern ≠ []) :
    Window.search c w pattern start = none ↔ ∀ j, start ≤ j → ¬ occursAt c w pattern j := by
  refine ⟨Window.search_none, fun h => Option.eq_none_iff_forall_ne_some.mpr fun i hi => ?_⟩
  obtain ⟨hs, ho, -⟩ := Window.search_some hp hi
  exact h i hs ho

/-! ## What WIN.SEARCH answers -/

/-- The search's result as a response. -/
def searchResponse : Option Nat → Response
  | some i => .found i
  | none => .notFound

@[simp] theorem searchResponse_eq_found (r : Option Nat) (i : Nat) : searchResponse r = .found i ↔ r = some i := by
  cases r <;> simp [searchResponse]

@[simp] theorem searchResponse_eq_notFound (r : Option Nat) : searchResponse r = .notFound ↔ r = none := by
  cases r <;> simp [searchResponse]

@[simp] theorem next_respond_inj (s : State) (r r' : Response) :
    (Host.Outcome.next (s.respond r) : Host.Outcome State Fault Refusal) = .next (s.respond r') ↔ r = r' := by
  refine ⟨fun h => ?_, fun h => by rw [h]⟩
  cases h
  rfl

theorem searchOk_iff (c : Nat) (pattern : List Byte) (start : Nat) :
    searchOk c pattern start = true ↔ pattern ≠ [] ∧ start ≤ c := by
  simp [searchOk]

/-- With operands in range it answers, and changes the response only. -/
theorem exec_winSearch {pattern : List Byte} {start : Nat} {s : State} (hp : pattern ≠ [])
    (hs : start ≤ s.cmp.cfg.cap) :
    exec (.winSearch pattern start) s =
      .next (s.respond (searchResponse (Window.search s.cmp.cfg.cap s.cmp.win pattern start))) := by
  have hok := (searchOk_iff s.cmp.cfg.cap pattern start).mpr ⟨hp, hs⟩
  change execWinSearch pattern start s = _
  rw [execWinSearch, if_pos hok]
  cases Window.search s.cmp.cfg.cap s.cmp.win pattern start <;> rfl

theorem exec_winSearch_refused {pattern : List Byte} {start : Nat} {s : State}
    (h : pattern = [] ∨ s.cmp.cfg.cap < start) : exec (.winSearch pattern start) s = .refused .badOperand := by
  refine if_neg fun hok => ?_
  obtain ⟨hp, hs⟩ := (searchOk_iff _ _ _).mp hok
  rcases h with h | h
  · exact hp h
  · omega

theorem exec_winSearch_found_iff {pattern : List Byte} {start i : Nat} {s : State} (hp : pattern ≠ [])
    (hs : start ≤ s.cmp.cfg.cap) :
    exec (.winSearch pattern start) s = .next (s.respond (.found i)) ↔
      leastOccurrence s.cmp.cfg.cap s.cmp.win pattern start i := by
  rw [exec_winSearch hp hs, next_respond_inj, searchResponse_eq_found, Window.search_eq_some_iff hp]

theorem exec_winSearch_notFound_iff {pattern : List Byte} {start : Nat} {s : State} (hp : pattern ≠ [])
    (hs : start ≤ s.cmp.cfg.cap) :
    exec (.winSearch pattern start) s = .next (s.respond .notFound) ↔
      ∀ j, start ≤ j → ¬ occursAt s.cmp.cfg.cap s.cmp.win pattern j := by
  rw [exec_winSearch hp hs, next_respond_inj, searchResponse_eq_notFound, Window.search_eq_none_iff hp]

/-- A pattern longer than what lies between the start and the end of the linear buffer does not occur (R177). -/
theorem not_occursAt_of_long {c : Nat} {w : Window} {pattern : List Byte} {start j : Nat}
    (hlong : c - start < pattern.length) (hj : start ≤ j) : ¬ occursAt c w pattern j := by
  rintro ⟨hfits, -⟩
  omega

/-- Settles O23: by the result of the search, each answer with what it says of the pattern. -/
theorem searchFindsLeast : Obligations.SearchFindsLeast := by
  unfold Obligations.SearchFindsLeast
  intro s pattern start
  refine ⟨fun hp hs => ⟨_, exec_winSearch hp hs, ?_⟩, exec_winSearch_refused⟩
  cases hr : Window.search s.cmp.cfg.cap s.cmp.win pattern start with
  | none => exact ⟨.inr ⟨rfl, Window.search_none hr⟩, fun _ => rfl⟩
  | some i =>
    obtain ⟨hsi, ho, hmin⟩ := Window.search_some hp hr
    exact ⟨.inl ⟨i, rfl, hsi, ho, hmin⟩, fun hlong => absurd ho (not_occursAt_of_long hlong hsi)⟩

/-! ## A pattern and its first bytes (R179) -/

/-- An occurrence of n + 1 bytes is one of the first n. -/
theorem occursAt_take_of_succ {c : Nat} {w : Window} {p : List Byte} {n i : Nat}
    (h : occursAt c w (p.take (n + 1)) i) : occursAt c w (p.take n) i := by
  have := occursAt_take h n
  rwa [List.take_take, Nat.min_eq_left (by omega)] at this

/-- The longer pattern's least occurrence is not below the shorter one's. -/
theorem leastOccurrence_take_le {c : Nat} {w : Window} {p : List Byte} {n start i j : Nat}
    (hi : leastOccurrence c w (p.take n) start i) (hj : leastOccurrence c w (p.take (n + 1)) start j) : i ≤ j := by
  obtain ⟨-, -, hmin⟩ := hi
  obtain ⟨hs, ho, -⟩ := hj
  exact Nat.le_of_not_lt fun hlt => hmin j hs hlt (occursAt_take_of_succ ho)

/-- Settles O24: the answers are the least occurrences, and an occurrence of n + 1 bytes is one of the first n
(`occursAt_take_of_succ`). -/
theorem searchMonotone : Obligations.SearchMonotone := by
  unfold Obligations.SearchMonotone
  intro s p n i hn hlt
  have hshort : p.take n ≠ [] := List.ne_nil_of_length_pos (by rw [List.length_take]; omega)
  have hlong : p.take (n + 1) ≠ [] := List.ne_nil_of_length_pos (by rw [List.length_take]; omega)
  refine ⟨fun hi j hj => ?_, fun hnone => ?_⟩
  · have hleast := (exec_winSearch_found_iff hshort (Nat.zero_le _)).mp hi
    have hleast' := (exec_winSearch_found_iff hlong (Nat.zero_le _)).mp hj
    have hij := leastOccurrence_take_le hleast hleast'
    have hleast'' := leastOccurrence_later_start hleast' (Nat.zero_le i) hij
    exact ⟨hij, (exec_winSearch_found_iff hlong (leastOccurrence_le_cap hleast)).mpr hleast''⟩
  · have hno := (exec_winSearch_notFound_iff hshort (Nat.zero_le _)).mp hnone
    exact (exec_winSearch_notFound_iff hlong (Nat.zero_le _)).mpr fun j hj ho => hno j hj (occursAt_take_of_succ ho)

end Sys2Proof.Machine
end

section
/-! WIN.READ_SPAN (R178). -/

namespace Sys2Proof.Machine

theorem spanOk_iff (cfg : Cfg) (pos len : Nat) :
    spanOk cfg pos len = true ↔ pos < cfg.cap ∧ 1 ≤ len ∧ len ≤ cfg.maxLen := by
  simp [spanOk, and_assoc]

theorem exec_winReadSpan {pos len : Nat} {s : State} (hpos : pos < s.dec.cfg.cap) (hlen : 1 ≤ len)
    (hmax : len ≤ s.dec.cfg.maxLen) :
    exec (.winReadSpan pos len) s = .next (s.respond (.bytes (Window.readSpan s.dec.cfg.cap s.dec.win pos len))) :=
  if_pos ((spanOk_iff _ _ _).mpr ⟨hpos, hlen, hmax⟩)

theorem exec_winReadSpan_refused {pos len : Nat} {s : State}
    (h : s.dec.cfg.cap ≤ pos ∨ len = 0 ∨ s.dec.cfg.maxLen < len) :
    exec (.winReadSpan pos len) s = .refused .badOperand := by
  refine if_neg fun hok => ?_
  obtain ⟨hpos, hlen, hmax⟩ := (spanOk_iff _ _ _).mp hok
  omega

/-- Settles O25: the answer is `Window.readSpan`, whose byte k `Window.getElem_readSpan` gives. -/
theorem readSpan : Obligations.ReadSpan := by
  unfold Obligations.ReadSpan
  intro s pos len
  exact ⟨fun hpos hlen hmax => ⟨_, exec_winReadSpan hpos hlen hmax, Window.length_readSpan _ _ _ _,
    Window.getElem_readSpan _ _ _ _⟩, exec_winReadSpan_refused⟩

end Sys2Proof.Machine
end

section
/-! The Header codec and the derived constants (R202 to R207): a header byte's fields as numbers, and MINLEN as the
least length whose literals take at least the bits of a reference. -/

namespace Sys2Proof.Machine

/-! ## The header byte and its fields as numbers (R200, R201) -/

/-- The header byte of a legal triple fits 8 bits. -/
theorem toNat_headerByte {wb sb lb : Nat} (h : configLegal wb sb lb = true) :
    (headerByte wb sb lb).toNat = (wb - 8) * 32 + (sb - 4) * 8 + (lb - 5) * 2 := by
  obtain ⟨_, _, _, _, _, _⟩ := (configLegal_iff wb sb lb).mp h
  rw [headerByte, BitVec.toNat_ofNat, Nat.mod_eq_of_lt (by omega), Nat.add_zero]

/-- The reserved flag is the header byte's parity. -/
theorem getLsbD_zero_eq_false_iff (h : Byte) : h.getLsbD 0 = false ↔ h.toNat % 2 = 0 := by
  rw [BitVec.getLsbD, Nat.testBit_zero, decide_eq_false_iff_not]
  omega

theorem decodeConfig_of_reserved_set {h : Byte} (hb : h.getLsbD 0 = true) : decodeConfig h = none := by
  simp only [decodeConfig, headerFields, hb, if_true]

theorem decodeConfig_of_reserved_clear {h : Byte} (hb : h.getLsbD 0 = false) :
    decodeConfig h = some (headerCfg (h.extractLsb' 5 3) (h.extractLsb' 3 2) (h.extractLsb' 1 2)) := by
  simp only [decodeConfig, headerFields, hb, Bool.false_eq_true, if_false]

@[simp] theorem toNat_wb_headerCfg (w : BitVec 3) (s l : BitVec 2) : (headerCfg w s l).wb.toNat = w.toNat + 8 := by
  rw [headerCfg, Cfg.ofNats, BitVec.toNat_ofNat]
  omega

@[simp] theorem toNat_sb_headerCfg (w : BitVec 3) (s l : BitVec 2) : (headerCfg w s l).sb.toNat = s.toNat + 4 := by
  rw [headerCfg, Cfg.ofNats, BitVec.toNat_ofNat]
  omega

@[simp] theorem toNat_lb_headerCfg (w : BitVec 3) (s l : BitVec 2) : (headerCfg w s l).lb.toNat = l.toNat + 5 := by
  rw [headerCfg, Cfg.ofNats, BitVec.toNat_ofNat]
  omega

/-- HDR.DECODE of an even byte in numbers: a legal configuration, its three registers by division (R201, R202). -/
theorem decodeConfig_of_even {h : Byte} (hb : h.toNat % 2 = 0) :
    ∃ c, decodeConfig h = some c ∧ c.legal = true ∧ c.wb.toNat = h.toNat / 32 % 8 + 8 ∧
      c.sb.toNat = h.toNat / 8 % 4 + 4 ∧ c.lb.toNat = h.toNat / 2 % 4 + 5 := by
  have hclear := (getLsbD_zero_eq_false_iff h).mpr hb
  refine ⟨_, decodeConfig_of_reserved_clear hclear, headerCfg_legal _ _ _, ?_, ?_, ?_⟩ <;>
    simp [Nat.shiftRight_eq_div_pow]

/-- Settles O4: the fields of a byte are its digits in the mixed base 8, 4, 4, 2, and the header byte puts the
digits together again. -/
theorem headerRoundTrip : Obligations.HeaderRoundTrip := by
  unfold Obligations.HeaderRoundTrip
  refine ⟨fun wb sb lb _ _ _ _ _ _ => ?_, fun h => ⟨fun hb => ?_, decodeConfig_of_reserved_set⟩⟩
  · have hval := toNat_headerByte ((configLegal_iff wb sb lb).mpr (by omega))
    obtain ⟨c, hc, -, hwb, hsb, hlb⟩ := decodeConfig_of_even (h := headerByte wb sb lb) (by omega)
    exact ⟨c, hc, by omega, by omega, by omega⟩
  · have heven := (getLsbD_zero_eq_false_iff h).mp hb
    obtain ⟨c, hc, hlegal, hwb, hsb, hlb⟩ := decodeConfig_of_even heven
    refine ⟨c, hc, hlegal, BitVec.eq_of_toNat_eq ?_⟩
    rw [toNat_headerByte hlegal]
    omega

/-! ## The derived constants (R204 to R207) -/

theorem Cfg.legal_iff (c : Cfg) :
    c.legal = true ↔ 8 ≤ c.wb.toNat ∧ c.wb.toNat ≤ 15 ∧ 4 ≤ c.sb.toNat ∧ c.sb.toNat ≤ 7 ∧
      5 ≤ c.lb.toNat ∧ c.lb.toNat ≤ 8 :=
  configLegal_iff _ _ _

/-- MINLEN is the least length whose literals take at least the bits of a reference (R207). -/
theorem Cfg.minLen_le_iff (c : Cfg) (n : Nat) :
    c.minLen ≤ n ↔ 1 + c.wb.toNat + c.sb.toNat ≤ n * (c.lb.toNat + 1) := by
  rw [Cfg.minLen, Nat.succ_le_iff, Nat.div_lt_iff_lt_mul (Nat.succ_pos c.lb.toNat), Nat.add_assoc, Nat.one_add_le_iff]

/-- Settles O5: the bounds of MINLEN and what it means are `Cfg.minLen_le_iff`; MAXLEN and C are then bounded by a
power of two. -/
theorem derivedConstants : Obligations.DerivedConstants := by
  unfold Obligations.DerivedConstants
  intro c hc
  obtain ⟨hwb, hwb', hsb, hsb', hlb, hlb'⟩ := (Cfg.legal_iff c).mp hc
  have hlow : ¬ c.minLen ≤ 1 := mt (Cfg.minLen_le_iff c 1).mp (by omega)
  have hhigh : c.minLen ≤ 4 := (Cfg.minLen_le_iff c 4).mpr (by omega)
  have hmax := Cfg.maxLen_add c
  have hspan : 2 ^ 4 ≤ 2 ^ c.sb.toNat ∧ 2 ^ c.sb.toNat ≤ 2 ^ 7 :=
    ⟨Nat.pow_le_pow_right Nat.zero_lt_two hsb, Nat.pow_le_pow_right Nat.zero_lt_two hsb'⟩
  exact ⟨rfl, by omega, hhigh, rfl, by omega, by omega, rfl, Nat.pow_le_pow_right Nat.zero_lt_two hwb, Cfg.cap_le c,
    (Cfg.minLen_le_iff c _).mp le_rfl,
    fun n hn => Nat.lt_of_not_le (mt (Cfg.minLen_le_iff c n).mpr (Nat.not_le_of_lt hn))⟩

end Sys2Proof.Machine
end

section
/-! CMP.INIT with legal operands (R222): what it answers by the sink's next answer. -/

namespace Sys2Proof.Machine

/-- Legal operands fit their registers (R29). -/
theorem toNat_ofNats {wb sb lb : Nat} (h : configLegal wb sb lb = true) :
    (Cfg.ofNats wb sb lb).wb.toNat = wb ∧ (Cfg.ofNats wb sb lb).sb.toNat = sb ∧
      (Cfg.ofNats wb sb lb).lb.toNat = lb := by
  obtain ⟨_, _, _, _, _, _⟩ := (configLegal_iff wb sb lb).mp h
  simp only [Cfg.ofNats, BitVec.toNat_ofNat]
  exact ⟨Nat.mod_eq_of_lt (by omega), Nat.mod_eq_of_lt (by omega), Nat.mod_eq_of_lt (by omega)⟩

/-- A new window is zero below C (R222, R39). -/
theorem Window.read_fresh {c i : Nat} (hi : i < c) (w : Window) : Memory.read (Window.fresh c w).buf i = 0 :=
  (Memory.read_clearBelow w.buf c i).trans (if_pos hi)

/-- A byte that the sink fails on (R67, R336). -/
theorem sinkPut_fails {s : State} {rest : List SinkAnswer} (h : s.sink.answers = .fails :: rest) (b : Byte) :
    sinkPut b s =
      .fault .sinkError (enterFault .sinkError (s.setSink { taken := s.sink.taken, answers := rest })) := by
  simp only [sinkPut, h]

/-- CMP.INIT over a sink that takes the byte (R222). -/
theorem exec_cmpInit_accepts {wb sb lb : Nat} (h : configLegal wb sb lb = true) {s : State}
    (hk : s.sink.acceptsNext 1) :
    exec (.cmpInit wb sb lb) s = .next
      { s with
        cmp := { s.cmp.init (Cfg.ofNats wb sb lb) with state := .active }
        sink := { taken := s.sink.taken ++ [headerByte wb sb lb], answers := s.sink.answers.drop 1 }
        resp := .ok } := by
  have hput := sinkPut_accepts (s := { s with cmp := s.cmp.init (Cfg.ofNats wb sb lb) }) hk (headerByte wb sb lb)
  show (initCompressor wb sb lb s).answer _ = _
  rw [initCompressor_legal h, hput]
  rfl

/-- CMP.INIT over a sink that fails (R234, R336). -/
theorem exec_cmpInit_fails {wb sb lb : Nat} (h : configLegal wb sb lb = true) {s : State} {rest : List SinkAnswer}
    (hk : s.sink.answers = .fails :: rest) :
    ∃ t, exec (.cmpInit wb sb lb) s = .next t ∧ t.resp = .fault .sinkError ∧ t.cmp.state = .faulted := by
  have hput := sinkPut_fails (s := { s with cmp := s.cmp.init (Cfg.ofNats wb sb lb) }) hk (headerByte wb sb lb)
  show ∃ t, (initCompressor wb sb lb s).answer _ = _ ∧ _
  rw [initCompressor_legal h, hput]
  exact ⟨_, rfl, rfl, rfl⟩

/-- Settles O26: the header byte goes straight through the empty Bit Writer (`initCompressor_legal`), and the sink
takes it or fails. -/
theorem cmpInitLegal : Obligations.CmpInitLegal := by
  unfold Obligations.CmpInitLegal
  intro s wb sb lb h
  obtain ⟨hwb, hsb, hlb⟩ := toNat_ofNats h
  refine ⟨fun hk => ⟨Cfg.ofNats wb sb lb, Window.fresh (Cfg.ofNats wb sb lb).cap s.cmp.win,
    exec_cmpInit_accepts h hk, hwb, hsb, hlb, rfl, fun i hi => ?_⟩, fun rest => exec_cmpInit_fails h⟩
  exact Window.read_fresh (by rwa [Cfg.cap, hwb]) _

end Sys2Proof.Machine
end

section
/-! FindMatch without its loop (R229). -/

namespace Sys2Proof.Machine

/-- Settles O28: `findMatch_spec`, with the two bounds on a length as one. -/
theorem findMatchIsGreatest : Obligations.FindMatchIsGreatest := by
  unfold Obligations.FindMatchIsGreatest
  intro cfg w rest
  obtain ⟨hbest, habove⟩ := findMatch_spec (cfg := cfg) (w := w) (rest := rest) Prod.mk.eta.symm
  refine ⟨?_, fun n hn hmin hmax => habove n hn hmin (le_min_iff.mp hmax).1 (le_min_iff.mp hmax).2⟩
  rcases hbest with h0 | ⟨hmin, hmax, hlen, hocc, hleast⟩
  · exact .inl h0
  · exact .inr ⟨hmin, le_min hmax hlen, hocc, hleast⟩

end Sys2Proof.Machine
end

section
/-! Which states accept the compressor's commands (R231, R233). -/

namespace Sys2Proof.Machine

theorem exec_cmpCompress_of_active {s : State} (h : s.cmp.state = .active) (data : List Byte) :
    exec (.cmpCompress data) s = (compressLoop data.length data 0 s).answer fun _ => .ok := by
  show (compressChunk data s).answer _ = _
  rw [compressChunk, if_pos h]

theorem exec_cmpCompress_refused {s : State} (h : s.cmp.state ≠ .active) (data : List Byte) :
    exec (.cmpCompress data) s = .refused .badState := by
  show (compressChunk data s).answer _ = _
  rw [compressChunk, if_neg h, answer_refused]

theorem exec_cmpFlush_refused {s : State} (h : s.cmp.state ≠ .active) : exec .cmpFlush s = .refused .badState := by
  show (flushCompressor s).answer _ = _
  rw [flushCompressor, if_neg h, answer_refused]

/-- CMP.INIT answers: InvalidConfig, ok or SinkError. -/
theorem exec_cmpInit_answers (wb sb lb : Nat) (s : State) : ∃ t, exec (.cmpInit wb sb lb) s = .next t := by
  show ∃ t, (initCompressor wb sb lb s).answer _ = .next t
  obtain ⟨-, h⟩ | ⟨-, k, h⟩ | ⟨k, h⟩ := initCompressor_cases wb sb lb s <;> exact ⟨_, by rw [h]; rfl⟩

/-- Settles O32: the state is the first thing CMP.COMPRESS and CMP.FLUSH look at, and CMP.INIT does not look at it. -/
theorem compressorStateChecks : Obligations.CompressorStateChecks := by
  unfold Obligations.CompressorStateChecks
  exact fun s => ⟨fun h => ⟨exec_cmpCompress_refused h, exec_cmpFlush_refused h⟩,
    fun h => exec_cmpCompress_of_active h [], fun wb sb lb => exec_cmpInit_answers wb sb lb s⟩

end Sys2Proof.Machine
end

section
/-! A byte that does not fit LB bits (R235): no match reaches over it, so what comes before it is compressed as if the
chunk ended there; and a FAULTED compressor engine stays FAULTED until CMP.INIT. -/

namespace Sys2Proof.Machine

/-! ## The match in front of a byte that does not fit -/

/-- A pattern that reaches over a byte that does not fit stands nowhere in the window. -/
theorem search_over_excess {cfg : Cfg} {w : Window} (hw : w.inv cfg) {b : Byte} (hb : 2 ^ cfg.lb.toNat ≤ b.toNat)
    {pattern : List Byte} (hmem : b ∈ pattern) (start : Nat) : Window.search cfg.cap w pattern start = none := by
  cases h : Window.search cfg.cap w pattern start with
  | none => rfl
  | some i =>
    obtain ⟨-, hocc, -⟩ := Window.search_some (List.ne_nil_of_mem hmem) h
    exact absurd (narrow_of_occursAt hw hocc b hmem) (Nat.not_lt_of_le hb)

/-- The loop of FindMatch ends before such a byte as it ends before the end of the chunk. -/
theorem searchLengths_append_excess {cfg : Cfg} {w : Window} (hw : w.inv cfg) {b : Byte}
    (hb : 2 ^ cfg.lb.toNat ≤ b.toNat) (before after : List Byte) (k len start best idx : Nat) :
    searchLengths cfg.cap w (before ++ b :: after) k len start best idx =
      searchLengths cfg.cap w before k len start best idx := by
  induction k generalizing len start best idx with
  | zero => rfl
  | succ k ih =>
    rw [searchLengths, searchLengths]
    by_cases hlen : before.length < len
    · have hmem : b ∈ (before ++ b :: after).take len := by
        rw [List.take_append, List.mem_append]
        exact .inr (by rw [List.mem_take_iff_getElem]; exact ⟨0, by simp; omega, rfl⟩)
      rw [if_pos hlen, search_over_excess hw hb hmem, ite_self]
    · rw [if_neg hlen, if_neg (by rw [List.length_append]; omega),
        List.take_append_of_le_length (Nat.le_of_not_lt hlen)]
      simp only [ih]

/-- FindMatch does not look past a byte that does not fit. -/
theorem findMatch_append_excess {cfg : Cfg} {w : Window} (hw : w.inv cfg) {b : Byte}
    (hb : 2 ^ cfg.lb.toNat ≤ b.toNat) (before after : List Byte) :
    findMatch cfg w (before ++ b :: after) = findMatch cfg w before :=
  searchLengths_append_excess hw hb before after _ _ _ _ _

/-! ## The tokens in front of it, and the fault at it -/

theorem length_findMatch_le {cfg : Cfg} {w : Window} {rest : List Byte} (h : cfg.minLen ≤ (findMatch cfg w rest).1) :
    (findMatch cfg w rest).1 ≤ rest.length := by
  obtain ⟨-, hlen, -⟩ := findMatch_index Prod.mk.eta.symm h
  exact hlen

/-- One token at the front of a chunk that is not empty (R225 to R228). -/
theorem emitToken_cons (b : Byte) (bs : List Byte) (ipos : Nat) (s : State) :
    emitToken (b :: bs) ipos s =
      if s.cmp.cfg.minLen ≤ (findMatch s.cmp.cfg s.cmp.win (b :: bs)).1 then
        (emitReference (findMatch s.cmp.cfg s.cmp.win (b :: bs)).2 (findMatch s.cmp.cfg s.cmp.win (b :: bs)).1 s).bind
          fun _ u => .ok (findMatch s.cmp.cfg s.cmp.win (b :: bs)).1
            (u.appendWindow .compressor ((b :: bs).take (findMatch s.cmp.cfg s.cmp.win (b :: bs)).1))
      else (emitLiteral b ipos s).bind fun _ u => .ok 1 (u.appendWindow .compressor [b]) := rfl

/-- The token in front of a byte that does not fit is the token of the chunk that ends there. -/
theorem emitToken_append_excess {s : State} (hw : s.cmp.win.inv s.cmp.cfg) {b : Byte}
    (hb : 2 ^ s.cmp.cfg.lb.toNat ≤ b.toNat) (x : Byte) (xs after : List Byte) (ipos : Nat) :
    emitToken (x :: xs ++ b :: after) ipos s = emitToken (x :: xs) ipos s := by
  rw [List.cons_append, emitToken_cons, emitToken_cons, ← List.cons_append, findMatch_append_excess hw hb]
  by_cases hbest : s.cmp.cfg.minLen ≤ (findMatch s.cmp.cfg s.cmp.win (x :: xs)).1
  · rw [List.take_append_of_le_length (length_findMatch_le hbest)]
  · rw [if_neg hbest, if_neg hbest]

/-- At the byte itself there is no match, so its literal faults (R228). -/
theorem emitToken_excess {s : State} (hw : s.cmp.win.inv s.cmp.cfg) {b : Byte}
    (hb : 2 ^ s.cmp.cfg.lb.toNat ≤ b.toNat) (after : List Byte) (ipos : Nat) :
    emitToken (b :: after) ipos s = .fault (.excessBits b ipos) (enterFault (.excessBits b ipos) s) := by
  have hnone : ¬ s.cmp.cfg.minLen ≤ (findMatch s.cmp.cfg s.cmp.win (b :: after)).1 := fun hbest => by
    have hpos := Cfg.minLen_pos s.cmp.cfg
    rw [← List.nil_append (b :: after), findMatch_append_excess hw hb [] after] at hbest
    have hlen := length_findMatch_le hbest
    rw [List.length_nil] at hlen
    omega
  rw [emitToken_cons, if_neg hnone, emitLiteral_excess b ipos hb, bind_fault]

/-- The bytes before the one that does not fit are compressed as alone; then the fault, with nothing of that byte
written (R235). -/
theorem compressLoop_append_excess {s : State} {b : Byte} {before after : List Byte} {fuel fuel' : Nat}
    (hfuel : before.length < fuel) (hfuel' : before.length ≤ fuel') (hf : s.cmp.bw.flushed = false)
    (hm : Memory.wf s.cmp.win.buf) (hw : s.cmp.win.inv s.cmp.cfg) (hb : 2 ^ s.cmp.cfg.lb.toNat ≤ b.toNat)
    (ipos : Nat) :
    compressLoop fuel (before ++ b :: after) ipos s =
      (compressLoop fuel' before ipos s).bind fun _ u =>
        .fault (.excessBits b (ipos + before.length)) (enterFault (.excessBits b (ipos + before.length)) u) := by
  induction fuel generalizing before fuel' ipos s with
  | zero => omega
  | succ fuel ih =>
    cases before with
    | nil =>
      rw [List.nil_append, compressLoop, emitToken_excess hw hb]
      cases fuel' <;> rfl
    | cons x xs =>
      cases fuel' with
      | zero => simp at hfuel'
      | succ fuel' =>
        have htoken := emitToken_append_excess hw hb x xs after ipos
        rw [List.cons_append] at htoken ⊢
        rw [compressLoop, compressLoop, htoken]
        obtain ⟨k, bw, n, hfl, -, hn1, hnle, hnar, he⟩ | ⟨-, he⟩ | ⟨k, he⟩ :=
          emitToken_cases x xs ipos s hf hw
        · have hlen : ((x :: xs).drop n).length = (x :: xs).length - n := List.length_drop
          have hpos : ipos + n + ((x :: xs).drop n).length = ipos + (x :: xs).length := by omega
          rw [he, bind_ok, bind_ok, ← List.cons_append, List.drop_append_of_le_length hnle, ← hpos]
          exact ih (s := s.setOut k bw (Window.writeBytes s.cmp.cfg.cap s.cmp.win ((x :: xs).take n)))
            (before := (x :: xs).drop n) (fuel' := fuel') (by omega) (by omega) hfl (Window.wf_writeBytes hm _)
            (Window.narrow_writeBytes hm hw hnar) hb _
        · rw [he]
          rfl
        · rw [he]
          rfl

/-! ## FAULTED until CMP.INIT -/

@[simp] theorem appendWindow_cmp_state (s : State) (e : Engine) (seq : List Byte) :
    (s.appendWindow e seq).cmp.state = s.cmp.state := by
  cases e <;> rfl

theorem execWinWriteByte_cmp_state {e : Engine} {b : Nat} {s t : State} (h : execWinWriteByte e b s = .next t) :
    t.cmp.state = s.cmp.state := by
  unfold execWinWriteByte at h
  split at h
  · cases h
  · cases h
    exact appendWindow_cmp_state _ _ _

theorem execWinWriteBytes_cmp_state {e : Engine} {seq : List Byte} {s t : State}
    (h : execWinWriteBytes e seq s = .next t) : t.cmp.state = s.cmp.state := by
  cases h
  exact appendWindow_cmp_state _ _ _

/-- BW.WRITE leaves CMP.STATE, or SinkError makes it FAULTED. -/
theorem execBwWrite_cmp_state {value n : Nat} {s t : State} (h : execBwWrite value n s = .next t) :
    t.cmp.state = s.cmp.state ∨ t.cmp.state = .faulted := by
  unfold execBwWrite at h
  obtain ⟨k, bw, -, -, hw⟩ | ⟨k, hw⟩ | ⟨r, hw, -⟩ := bwWrite_cases value n s <;> rw [hw] at h <;> cases h
  · exact .inl rfl
  · exact .inr rfl

/-- BW.FLUSH leaves CMP.STATE, or SinkError makes it FAULTED. -/
theorem execBwFlush_cmp_state {s t : State} (h : execBwFlush s = .next t) :
    t.cmp.state = s.cmp.state ∨ t.cmp.state = .faulted := by
  unfold execBwFlush at h
  obtain ⟨k, hw⟩ | ⟨k, hw⟩ | ⟨hw, -⟩ := bwFlush_cases s <;> rw [hw] at h <;> cases h
  · exact .inl rfl
  · exact .inr rfl

/-- In FAULTED, no operation but CMP.INIT that answers leaves another CMP.STATE (R235, R341). -/
theorem exec_keeps_cmp_faulted {i : Instr} {s t : State} (hs : s.cmp.state = .faulted)
    (hi : ∀ wb sb lb, i ≠ .cmpInit wb sb lb) (h : exec i s = .next t) : t.cmp.state = .faulted := by
  have hna : s.cmp.state ≠ .active := by simp [hs]
  have of_cmp (hcmp : t.cmp = s.cmp) : t.cmp.state = .faulted := by rw [hcmp, hs]
  have of_state (hst : t.cmp.state = s.cmp.state) : t.cmp.state = .faulted := hst.trans hs
  cases i with
  | header w sz l => exact of_cmp (execHeader_sameCompressor h).1
  | literal v => exact of_cmp (execLiteral_sameCompressor h).1
  | reference pos n => exact of_cmp (execReference_sameCompressor h).1
  | pad k => exact of_cmp (execPad_sameCompressor (k := k) h).1
  | cmpInit wb sb lb => exact absurd rfl (hi wb sb lb)
  | cmpCompress data => cases (exec_cmpCompress_refused hna data).symm.trans h
  | cmpFlush => cases (exec_cmpFlush_refused hna).symm.trans h
  | cmpReserved => cases h
  | decInit => exact of_cmp (execDecInit_sameCompressor h).1
  | decDecompress maxSize => exact of_cmp (execDecDecompress_sameCompressor h).1
  | decReserved x => cases h
  | bwWrite value n => exact (execBwWrite_cmp_state h).elim of_state id
  | bwFlush => exact (execBwFlush_cmp_state h).elim of_state id
  | brRead n => exact of_cmp (execBrRead_sameCompressor h).1
  | winWriteByte e b => exact of_state (execWinWriteByte_cmp_state h)
  | winWriteBytes e seq => exact of_state (execWinWriteBytes_cmp_state h)
  | winSearch pattern start => exact of_cmp (execWinSearch_cmp h)
  | winReadSpan pos len => exact of_cmp (execWinReadSpan_cmp h)
  | hdrEncode wb sb lb => exact of_cmp (execHdrEncode_cmp h)
  | hdrDecode b => exact of_cmp (execHdrDecode_cmp h)

/-- Settles O30: the bytes before compress (`compressLoop_accepts`), the run of the whole chunk is that run and then
the fault (`compressLoop_append_excess`), and the FAULTED engine stays so (`exec_keeps_cmp_faulted`). -/
theorem excessBitsIsPrecise : Obligations.ExcessBitsIsPrecise := by
  unfold Obligations.ExcessBitsIsPrecise
  intro s before b after ha hf hk hm hw hn hb
  obtain ⟨k, bw, -, -, -, -, -, hloop⟩ := compressLoop_accepts before.length before 0 s le_rfl hf hk hn
  have hfault := compressLoop_append_excess (after := after) (fuel := (before ++ b :: after).length)
    (by simp) (le_refl before.length) hf hm hw hb 0
  rw [hloop, bind_ok, Nat.zero_add] at hfault
  refine ⟨_, _, (exec_cmpCompress_of_active ha _).trans (by rw [hloop, answer_ok]),
    (exec_cmpCompress_of_active ha _).trans (by rw [hfault]; rfl), rfl, rfl, ?_, ?_, ?_⟩
  · exact exec_cmpCompress_refused (by simp)
  · exact exec_cmpFlush_refused (by simp)
  · exact fun i v => exec_keeps_cmp_faulted rfl

end Sys2Proof.Machine
end

section
/-! A DEC.DECOMPRESS that its first step ends: nothing left to return (R271), or a bad header (R262, R272). -/

namespace Sys2Proof.Machine

/-! ## An operation of one step -/

/-- DEC.DECOMPRESS is the one step that ends it. -/
theorem exec_decDecompress_of_pullStep {m : Int} {s t : State} (hp : s.pull = none) (hs : s.dec.state ≠ .faulted)
    (hstep : pullStep (openPull m s) = .next t) (ht : t.pull = none) : exec (.decDecompress m) s = .next t := by
  refine execDecDecompress_eq_next.mpr ⟨hp, hs, ?_⟩
  rw [pullLoop, hstep]
  exact pullLoop_none _ ht

theorem pullStep_of_hdrPending {s : State} {p : Pull} (hp : s.pull = some p) (hs : s.dec.state = .hdrPending) :
    pullStep s = headerStep s := by
  simp only [pullStep, hp, hs]

/-- In FINISHED with OVF empty the step is the return (R261, R271). -/
theorem pullStep_of_finished {s : State} {p : Pull} (hp : s.pull = some p) (hs : s.dec.state = .finished)
    (ho : s.dec.ovf = []) : pullStep s = .next (closePull p s) := by
  simp [pullStep, hp, hs, ho]

/-- An operation opened and closed at once returns nothing. -/
theorem closePull_openPull {s : State} (hp : s.pull = none) (m : Int) :
    closePull { limit := limitOf m, out := [] } (openPull m s) = { s with resp := .bytes [] } := by
  rw [closePull, openPull, ← hp]

/-- Settles O43: the first step is the return, of the output that is still empty. -/
theorem finishedReturnsNothing : Obligations.FinishedReturnsNothing := by
  unfold Obligations.FinishedReturnsNothing
  intro s m hp hs ho
  rw [← closePull_openPull hp m]
  exact exec_decDecompress_of_pullStep hp (by simp [hs]) (pullStep_of_finished rfl hs ho) rfl

/-! ## A bad header (R262, R272) -/

theorem takeField_eq_some {n v : Nat} {bits rest : Bits} (h : takeField n bits = some (v, rest)) :
    n ≤ bits.length ∧ bitsValue (bits.take n) = v ∧ bits.drop n = rest := by
  rcases Nat.lt_or_ge bits.length n with hlt | hle
  · rw [takeField_none n bits hlt] at h
    cases h
  · rw [takeField_eq n bits hle] at h
    cases h
    exact ⟨hle, rfl, rfl⟩

/-- An odd byte is no header (R99, R201). -/
theorem headerFields_of_odd {h : Nat} (hodd : h % 2 = 1) : headerFields (BitVec.ofNat 8 h) = none := by
  have hset : (BitVec.ofNat 8 h).getLsbD 0 = true := by
    rw [← Bool.not_eq_false, getLsbD_zero_eq_false_iff, BitVec.toNat_ofNat]
    omega
  simp only [headerFields, hset, if_true]

/-- ReadHeader where the stream has no byte left (R272). -/
theorem headerStep_short {s : State} (he : s.dec.br.eos = false) (hc : s.source.endsCleanly)
    (h : s.unreadBits.length < 8) :
    ∃ src, headerStep s = .next (enterFault .endOfStream (s.setSource src).markEos) := by
  obtain ⟨src, hr⟩ := brRead_short he (by decide) h hc
  exact ⟨src, by rw [headerStep, hr]; rfl⟩

/-- ReadHeader over a byte with its reserved bit set (R262). -/
theorem headerStep_odd {s : State} {h : Nat} {rest : Bits} (he : s.dec.br.eos = false)
    (hh : takeField 8 s.unreadBits = some (h, rest)) (hodd : h % 2 = 1) :
    ∃ src br, (s.setIn src br).unreadBits = rest ∧
      headerStep s = .next (enterFault (.unsupportedHeader (BitVec.ofNat 8 h)) (s.setIn src br)) := by
  obtain ⟨hlen, rfl, rfl⟩ := takeField_eq_some hh
  obtain ⟨src, br, -, hrest, -, hr⟩ := brRead_take he (by decide) hlen
  exact ⟨src, br, hrest, by simp only [headerStep, hr, headerFields_of_odd hodd]⟩

/-- With the header pending, DEC.DECOMPRESS is ReadHeader where that ends it (R262, R272). -/
theorem exec_decDecompress_of_headerStep {m : Int} {s t : State} (hp : s.pull = none)
    (hs : s.dec.state = .hdrPending) (hstep : headerStep (openPull m s) = .next t) (ht : t.pull = none) :
    exec (.decDecompress m) s = .next t := by
  have hfirst := pullStep_of_hdrPending (s := openPull m s) rfl hs
  exact exec_decDecompress_of_pullStep hp (by simp [hs]) (hfirst.trans hstep) ht

/-- Settles O42: the first step reads the header and faults (`headerStep_short`, `headerStep_odd`), and a fault ends
the operation. -/
theorem headerFaults : Obligations.HeaderFaults := by
  unfold Obligations.HeaderFaults
  intro s m hp hs he hc
  refine ⟨fun hlen => ?_, fun h rest hh hodd => ?_⟩
  · obtain ⟨src, hstep⟩ := headerStep_short (s := openPull m s) he hc hlen
    exact ⟨_, exec_decDecompress_of_headerStep hp hs hstep rfl, rfl, rfl, rfl, rfl, rfl, rfl, rfl, rfl⟩
  · obtain ⟨src, br, hrest, hstep⟩ := headerStep_odd (s := openPull m s) he hh hodd
    exact ⟨_, exec_decDecompress_of_headerStep hp hs hstep rfl, rfl, rfl, rfl, rfl, rfl, rfl, rfl, hrest, rfl⟩

end Sys2Proof.Machine
end

section
/-! A reference's copy (R268): the span is read before it is written, and is no longer than the window, so no byte of
it lands on another. -/

namespace Sys2Proof.Machine

/-- The longest span fits the smallest window (R205, R206). -/
theorem Cfg.maxLen_le_cap {c : Cfg} (hc : c.legal = true) : c.maxLen ≤ c.cap := by
  obtain ⟨-, -, -, -, -, hmax, -, hcap, -⟩ := derivedConstants c hc
  omega

/-- A reference that completes is the copy of a span in WIN.READ_SPAN's range (R267, R345). -/
theorem execReference_eq_next {pos : BitVec 15} {n : BitVec 7} {s t : State}
    (h : execReference pos n s = .next t) :
    n.toNat + s.dec.cfg.minLen ≤ s.dec.cfg.maxLen ∧
      ∃ p, t = copySpan p (Window.readSpan s.dec.cfg.cap s.dec.win pos.toNat (n.toNat + s.dec.cfg.minLen)) s := by
  obtain ⟨p, -, -, hrun⟩ := inPull_eq_next.mp h
  split at hrun
  · next hok =>
    obtain ⟨-, -, hmax⟩ := (spanOk_iff _ _ _).mp hok
    cases hrun
    exact ⟨hmax, p, rfl⟩
  · cases hrun

/-- Settles O37: the window afterwards is the old one with its own span written at the cursor, which the laws of
`Window.writeBytes` read back. -/
theorem referenceIsSnapshot : Obligations.ReferenceIsSnapshot := by
  unfold Obligations.ReferenceIsSnapshot
  intro s t _ pos n _ _ hlegal hm hcur ht
  obtain ⟨hmax, p, rfl⟩ := execReference_eq_next ht
  have hpos := Cfg.cap_pos s.dec.cfg
  have hle := Cfg.cap_le s.dec.cfg
  have hfits : n.toNat + s.dec.cfg.minLen ≤ s.dec.cfg.cap := hmax.trans (Cfg.maxLen_le_cap hlegal)
  have hlen := Window.length_readSpan s.dec.cfg.cap s.dec.win pos.toNat (n.toNat + s.dec.cfg.minLen)
  rw [copySpan_win]
  refine ⟨fun k hk => ?_, fun i hi => ?_, ?_⟩
  · rw [Window.read_writeBytes hpos hle hm hcur _ k (by omega) (by omega), Window.getElem_readSpan]
  · exact Window.read_writeBytes_other hpos hle hm hcur _ i (by rwa [hlen])
  · rw [Window.writeBytes_cur hpos hle _ hcur, hlen]

end Sys2Proof.Machine
end

section
/-! Pulls with limits (R304): each returns the first bytes owed, as many as its limit, and leaves the rest owed, so a
row of them returns the first bytes owed, as many as the limits add up to. -/

namespace Sys2Proof.Machine

/-- One DEC.DECOMPRESS with a limit (R261). -/
theorem exec_decDecompress_limit (m : Nat) {s : State} (hp : s.pull = none) (hR : s.Readable) :
    ∃ t, exec (.decDecompress m) s = .next t ∧ t.pull = none ∧ t.Readable ∧ t.windowAtEnd = s.windowAtEnd ∧
      t.resp = .bytes (s.owed.take m) ∧ t.owed = s.owed.drop m ∧ (s.owed.length < m → t.dec.state = .finished) := by
  obtain ⟨t, k, ht, hRt, hpt, hw, -, -, -, hresp, howed, hk, hfin⟩ := execDecDecompress_readable m hp hR
  have hmin : k = min s.owed.length m := hk.trans (if_neg (by omega))
  refine ⟨t, ht, hpt, hRt, hw, ?_, ?_, fun h => hfin.mpr (.inr (.inr h))⟩
  · rw [hresp, hmin, Nat.min_comm, ← List.take_take, List.take_length]
  · rw [howed, hmin]
    rcases Nat.le_total m s.owed.length with hle | hle
    · rw [Nat.min_eq_right hle]
    · rw [Nat.min_eq_left hle, List.drop_length, List.drop_of_length_le hle]

/-- DEC.DECOMPRESS(-1) returns everything owed, and the stream has ended after it (R261, R270). -/
theorem exec_decDecompress_all {s : State} (hp : s.pull = none) (hR : s.Readable) :
    ∃ t, exec (.decDecompress (-1)) s = .next t ∧ t.resp = .bytes s.owed ∧ t.dec.win = s.windowAtEnd := by
  obtain ⟨t, k, ht, -, -, hw, -, -, -, hresp, -, hk, hfin⟩ := execDecDecompress_readable (-1) hp hR
  have hall : k = s.owed.length := hk.trans (if_pos (by decide))
  refine ⟨t, ht, by rw [hresp, hall, List.take_length], ?_⟩
  rw [← hw, windowAtEnd_finished (hfin.mpr (.inr (.inl (by decide))))]

/-- A row of pulls. -/
theorem pulls_readable (ms : List Nat) {s : State} (hp : s.pull = none) (hR : s.Readable) :
    ∃ t, pulls ms s = some (s.owed.take ms.sum, t) ∧ t.pull = none ∧ t.Readable ∧
      t.windowAtEnd = s.windowAtEnd ∧ t.owed = s.owed.drop ms.sum := by
  induction ms generalizing s with
  | nil => exact ⟨s, rfl, hp, hR, rfl, rfl⟩
  | cons m ms ih =>
    obtain ⟨u, hu, hpu, hRu, hwu, hresp, hou, -⟩ := exec_decDecompress_limit m hp hR
    obtain ⟨t, ht, hpt, hRt, hwt, hot⟩ := ih hpu hRu
    refine ⟨t, ?_, hpt, hRt, hwt.trans hwu, ?_⟩
    · simp only [pulls, hu, hresp, ht, Option.map_some, hou, List.sum_cons, List.take_add]
    · rw [hot, hou, List.drop_drop, List.sum_cons]

/-- A pull that returns fewer bytes than its limit returns all that is owed, and the stream has ended after it. -/
theorem pulls_short {m : Nat} {s t : State} {last : List Byte} (hp : s.pull = none) (hR : s.Readable)
    (h : pulls [m] s = some (last, t)) (hlast : last.length < m) : last = s.owed ∧ t.dec.win = s.windowAtEnd := by
  obtain ⟨u, hu, -, -, hw, hresp, -, hfin⟩ := exec_decDecompress_limit m hp hR
  simp only [pulls, hu, hresp, Option.map_some, List.append_nil, Option.some.injEq, Prod.mk.injEq] at h
  obtain ⟨rfl, rfl⟩ := h
  have hshort : s.owed.length < m := by
    rw [List.length_take] at hlast
    omega
  exact ⟨List.take_of_length_le hshort.le, by rw [← hw, windowAtEnd_finished (hfin hshort)]⟩

/-- Settles O44: a row of pulls returns the first bytes owed (`pulls_readable`), the unbounded pull all of them
(`exec_decDecompress_all`), and a pull that falls short the rest (`pulls_short`). -/
theorem chunkInvariance : Obligations.ChunkInvariance := by
  unfold Obligations.ChunkInvariance
  intro s hp hR
  obtain ⟨u, hu, hresp, hwin⟩ := exec_decDecompress_all hp hR
  refine ⟨u, s.owed, hu, hresp, fun ms _ => ?_, fun ms m some₁ last s₁ t _ h₁ hlast hshort => ?_⟩
  · obtain ⟨t, ht, -⟩ := pulls_readable ms hp hR
    exact ⟨t, ht⟩
  · obtain ⟨s₁', h₁', hp₁, hR₁, hw₁, ho₁⟩ := pulls_readable ms hp hR
    rw [h₁'] at h₁
    cases h₁
    obtain ⟨rfl, hwt⟩ := pulls_short hp₁ hR₁ hlast hshort
    rw [ho₁, List.take_append_drop, hwt, hw₁, hwin]
    exact ⟨rfl, rfl⟩

end Sys2Proof.Machine
end

section
/-! Round trip (R303). The compressor's side: chunk after chunk, tokens are written that stand for the bytes taken, and
the window holds those bytes (`Compressed`). The decompressor's side: DEC.INIT and DEC.DECOMPRESS(-1) return what the
stream's tokens stand for. Both windows are new at the header and are written with the same bytes, so they agree (R301). -/

namespace Sys2Proof.Machine

/-! ## Tokens that stand for bytes -/

/-- Tokens that fit the configuration and, read from window w on, stand for the bytes of data (R301). -/
structure Encodes (c : Cfg) (w : Window) (ts : List Token) (data : List Byte) : Prop where
  wf : ∀ t ∈ ts, t.instr.wf c = true
  expand : expand c w ts = data

theorem Encodes.nil (c : Cfg) (w : Window) : Encodes c w [] [] := ⟨nofun, rfl⟩

theorem Encodes.append {c : Cfg} {w : Window} {ts ts' : List Token} {data data' : List Byte}
    (h : Encodes c w ts data) (h' : Encodes c (Window.writeBytes c.cap w data) ts' data') :
    Encodes c w (ts ++ ts') (data ++ data') :=
  ⟨List.forall_mem_append.mpr ⟨h.wf, h'.wf⟩, by rw [expand_append, h.expand, h'.expand]⟩

/-- Read back from their bits, padding after them, they are the same tokens (R98, R104). -/
theorem Encodes.tokensOf_eq {c : Cfg} {w : Window} {ts : List Token} {data : List Byte} (h : Encodes c w ts data)
    (hc : c.legal = true) {n : Nat} (hn : n ≤ 7) :
    tokensOf c (ts.flatMap (tokenBits c) ++ List.replicate n false) = ts := by
  obtain ⟨hwb, -⟩ := (Cfg.legal_iff c).mp hc
  rw [tokensOf_flatMap h.wf, tokensOf_nil (takeToken_pad hn (by omega)), List.append_nil]

/-! ## The compressor's commands over a sink that takes every byte -/

/-- The compressor engine takes chunks, and the sink will take every byte. -/
structure State.Compressing (s : State) : Prop where
  active : s.cmp.state = .active
  flushed : s.cmp.bw.flushed = false
  sink : s.sink.acceptsAll

/-- From s to t the tokens ts were written, which stand for data, and data went to the window (R223, R301). -/
structure Compressed (ts : List Token) (data : List Byte) (s t : State) : Prop where
  compressing : t.Compressing
  cfg : t.cmp.cfg = s.cmp.cfg
  encodes : Encodes s.cmp.cfg s.cmp.win ts data
  bits : t.writtenBits = s.writtenBits ++ ts.flatMap (tokenBits s.cmp.cfg)
  win : t.cmp.win = Window.writeBytes s.cmp.cfg.cap s.cmp.win data

theorem Compressed.refl {s : State} (h : s.Compressing) : Compressed [] [] s s :=
  ⟨h, rfl, Encodes.nil _ _, by simp, rfl⟩

theorem Compressed.trans {ts ts' : List Token} {data data' : List Byte} {s t u : State}
    (h : Compressed ts data s t) (h' : Compressed ts' data' t u) : Compressed (ts ++ ts') (data ++ data') s u := by
  obtain ⟨hu, hcfg, henc, hbits, hwin⟩ := h'
  rw [h.cfg] at hcfg henc hbits hwin
  rw [h.win] at henc hwin
  refine ⟨hu, hcfg, h.encodes.append henc, ?_, ?_⟩
  · rw [hbits, h.bits, List.flatMap_append, List.append_assoc]
  · rw [hwin, Window.writeBytes_append]

/-- CMP.INIT: the header byte is all there is of the stream, and the window is new (R222). -/
theorem exec_cmpInit_compressing {s : State} {wb sb lb : Nat} (hlegal : configLegal wb sb lb = true)
    (htaken : s.sink.taken = []) (hsink : s.sink.acceptsAll) :
    ∃ t, exec (.cmpInit wb sb lb) s = .next t ∧ t.Compressing ∧ t.cmp.cfg = Cfg.ofNats wb sb lb ∧
      t.cmp.win = Window.fresh (Cfg.ofNats wb sb lb).cap s.cmp.win ∧
      t.writtenBits = fieldBits 8 (headerByte wb sb lb).toNat := by
  refine ⟨_, exec_cmpInit_accepts hlegal (Sink.acceptsNext_of_all hsink 1),
    ⟨rfl, rfl, fun a ha => hsink a (List.mem_of_mem_drop ha)⟩, rfl, rfl, ?_⟩
  simp [State.writtenBits, htaken, BitWriter.bits]

/-- CMP.COMPRESS of bytes that all fit (R223, R301). -/
theorem exec_cmpCompress_compressed {s : State} (h : s.Compressing) {data : List Byte}
    (hn : narrow s.cmp.cfg data) :
    ∃ t ts, exec (.cmpCompress data) s = .next t ∧ Compressed ts data s t := by
  obtain ⟨k, bw, hk, hfl, hwf, hexp, hbits, hloop⟩ :=
    compressLoop_accepts data.length data 0 s le_rfl h.flushed h.sink hn
  have hexec := exec_cmpCompress_of_active h.active data
  rw [hloop, answer_ok] at hexec
  exact ⟨_, _, hexec, ⟨h.active, hfl, hk⟩, rfl, ⟨hwf, hexp⟩, hbits, rfl⟩

/-- A row of CMP.COMPRESS. -/
theorem execAll_cmpCompress {s : State} (h : s.Compressing) (chunks : List (List Byte))
    (hn : ∀ data ∈ chunks, narrow s.cmp.cfg data) :
    ∃ t ts, execAll (chunks.map .cmpCompress) s = .next t ∧ Compressed ts chunks.flatten s t := by
  induction chunks generalizing s with
  | nil => exact ⟨s, [], rfl, Compressed.refl h⟩
  | cons data chunks ih =>
    obtain ⟨hdata, hchunks⟩ := List.forall_mem_cons.mp hn
    obtain ⟨u, ts, hu, hcu⟩ := exec_cmpCompress_compressed h hdata
    obtain ⟨t, ts', ht, hct⟩ := ih hcu.compressing (by rwa [hcu.cfg])
    exact ⟨t, ts ++ ts', by simp only [List.map_cons, execAll, hu, ht], hcu.trans hct⟩

/-- CMP.FLUSH: at most 7 zero bits after what was written, and the window as before (R232, R134). -/
theorem exec_cmpFlush_pads {s : State} (h : s.Compressing) :
    ∃ t n, exec .cmpFlush s = .next t ∧ n ≤ 7 ∧
      bytesBits t.sink.taken = s.writtenBits ++ List.replicate n false ∧ t.cmp.win = s.cmp.win := by
  obtain ⟨bytes, -, hbits, hflush⟩ := bwFlush_accepts h.flushed (Sink.acceptsNext_of_all h.sink 1)
  have hexec : exec .cmpFlush s = (flushCompressor s).answer fun _ => .ok := rfl
  rw [flushCompressor, if_pos h.active, hflush, bind_ok, answer_ok] at hexec
  refine ⟨_, (8 - s.cmp.bw.nbits.toNat) % 8, hexec, by omega, ?_, rfl⟩
  show bytesBits (s.sink.taken ++ bytes) = _
  rw [bytesBits_append, hbits, State.writtenBits, List.append_assoc]

theorem execAll_append {is js : List Instr} {s t : State} (h : execAll is s = .next t) :
    execAll (is ++ js) s = execAll js t := by
  induction is generalizing s with
  | nil =>
    cases h
    rfl
  | cons i is ih =>
    rw [List.cons_append, execAll]
    rw [execAll] at h
    cases hi : exec i s with
    | next u =>
      simp only [hi] at h ⊢
      exact ih h
    | fault f => simp [hi] at h
    | refused r => simp [hi] at h

/-- A whole stream: the header, tokens that stand for the chunks in a new window, and padding (R222, R223, R232). -/
theorem execAll_compress {s : State} {wb sb lb : Nat} {chunks : List (List Byte)}
    (hlegal : configLegal wb sb lb = true) (htaken : s.sink.taken = []) (hsink : s.sink.acceptsAll)
    (hn : ∀ data ∈ chunks, narrow (Cfg.ofNats wb sb lb) data) :
    ∃ t ts n, execAll (.cmpInit wb sb lb :: chunks.map .cmpCompress ++ [.cmpFlush]) s = .next t ∧ n ≤ 7 ∧
      Encodes (Cfg.ofNats wb sb lb) (Window.fresh (Cfg.ofNats wb sb lb).cap s.cmp.win) ts chunks.flatten ∧
      bytesBits t.sink.taken = fieldBits 8 (headerByte wb sb lb).toNat ++
        (ts.flatMap (tokenBits (Cfg.ofNats wb sb lb)) ++ List.replicate n false) ∧
      t.cmp.win = Window.writeBytes (Cfg.ofNats wb sb lb).cap
        (Window.fresh (Cfg.ofNats wb sb lb).cap s.cmp.win) chunks.flatten := by
  obtain ⟨s₁, hinit, hstart, hcfg, hwin, hwritten⟩ := exec_cmpInit_compressing hlegal htaken hsink
  obtain ⟨s₂, ts, hrow, hcomp⟩ := execAll_cmpCompress hstart chunks (by rwa [hcfg])
  obtain ⟨t, n, hflush, hpad, hbits, hwt⟩ := exec_cmpFlush_pads hcomp.compressing
  obtain ⟨-, -, henc, hbits₂, hw₂⟩ := hcomp
  rw [hcfg] at henc hbits₂ hw₂
  rw [hwin] at henc hw₂
  refine ⟨t, ts, n, ?_, hpad, henc, ?_, hwt.trans hw₂⟩
  · simp only [List.cons_append, execAll, hinit, execAll_append hrow, hflush]
  · rw [hbits, hbits₂, hwritten, List.append_assoc]

/-! ## The decompressor on that stream -/

/-- HDR.DECODE gives back the configuration whose header byte it is (R203). -/
theorem decodeConfig_headerByte {wb sb lb : Nat} (h : configLegal wb sb lb = true) :
    decodeConfig (headerByte wb sb lb) = some (Cfg.ofNats wb sb lb) := by
  obtain ⟨h1, h2, h3, h4, h5, h6⟩ := (configLegal_iff wb sb lb).mp h
  obtain ⟨c, hc, rfl, rfl, rfl⟩ := headerRoundTrip.1 wb sb lb h1 h2 h3 h4 h5 h6
  rw [hc]
  simp [Cfg.ofNats]

/-- A source of bytes alone ends after them. -/
theorem endsCleanly_of_bytes {src : Source} {bytes : List Byte} (h : src.answers = bytes.map .byte) :
    src.endsCleanly := by
  intro a ha
  simp [h, leadingBytes_map] at ha

/-- An engine right after DEC.INIT, over a source of bytes alone that are a good header and bits after it: it goes on
to the end, and owes what the bits' tokens stand for in a new window (R260, R262, R304). -/
theorem readable_of_init {s : State} {d : Decompressor} {bytes : List Byte} {h : Byte} {rest : Bits} {c : Cfg}
    (hdec : s.dec = d.init) (hsrc : s.source.answers = bytes.map .byte)
    (hbits : bytesBits bytes = fieldBits 8 h.toNat ++ rest) (hc : decodeConfig h = some c) :
    s.Readable ∧ s.owed = expand c (Window.fresh c.cap d.win) (tokensOf c rest) ∧
      s.windowAtEnd = Window.writeBytes c.cap (Window.fresh c.cap d.win) s.owed := by
  have hstate : s.dec.state = .hdrPending := by rw [hdec, Decompressor_init_state]
  have hunread : s.unreadBits = fieldBits 8 h.toNat ++ rest := by
    rw [State.unreadBits, hdec, hsrc, leadingBytes_map, hbits]
    rfl
  have hfield : takeField 8 s.unreadBits = some (h.toNat, rest) := by
    rw [hunread, takeField_fieldBits, Nat.mod_eq_of_lt h.isLt]
  have hcfg : decodeConfig (BitVec.ofNat 8 h.toNat) = some c := by rwa [BitVec.ofNat_toNat, BitVec.setWidth_eq]
  have howed := owed_hdrPending hstate hfield hcfg
  have hwin := windowAtEnd_hdrPending hstate hfield hcfg
  rw [hdec, Decompressor_init_ovf, Decompressor_init_win, List.nil_append] at howed
  rw [hdec, Decompressor_init_win, ← howed] at hwin
  have hgood : s.goodHeader := ⟨_, _, _, hfield, hcfg⟩
  exact ⟨⟨by simp [hstate], fun _ => ⟨endsCleanly_of_bytes hsrc, by rw [hdec, Decompressor_init_br]⟩, fun _ => hgood⟩,
    howed, hwin⟩

/-- DEC.INIT resets the engine and leaves the source's answers to come (R260). -/
theorem exec_decInit {d : State} (hp : d.pull = none) :
    ∃ t, exec .decInit d = .next t ∧ t.pull = none ∧ t.dec = d.dec.init ∧ t.source.answers = d.source.answers := by
  have hexec : exec .decInit d = execDecInit d := rfl
  simp only [execDecInit, hp] at hexec
  exact ⟨_, hexec, rfl, rfl, rfl⟩

/-- DEC.INIT and DEC.DECOMPRESS(-1) over such a source (R260, R261). -/
theorem execAll_decompress {d : State} {bytes : List Byte} {h : Byte} {rest : Bits} {c : Cfg}
    (hp : d.pull = none) (hsrc : d.source.answers = bytes.map .byte)
    (hbits : bytesBits bytes = fieldBits 8 h.toNat ++ rest) (hc : decodeConfig h = some c) :
    ∃ u out, execAll [.decInit, .decDecompress (-1)] d = .next u ∧ u.resp = .bytes out ∧
      out = expand c (Window.fresh c.cap d.dec.win) (tokensOf c rest) ∧
      u.dec.win = Window.writeBytes c.cap (Window.fresh c.cap d.dec.win) out := by
  obtain ⟨t, hinit, hpt, hdec, hans⟩ := exec_decInit hp
  obtain ⟨hR, howed, hwin⟩ := readable_of_init hdec (hans.trans hsrc) hbits hc
  obtain ⟨u, hu, hresp, hwu⟩ := exec_decDecompress_all hpt hR
  exact ⟨u, t.owed, by simp only [execAll, hinit, hu], hresp, howed, hwu.trans hwin⟩

/-- Settles O45: the compressor's tokens stand for the chunks (`execAll_compress`), the decompressor reads the same
tokens back from their bits (`Encodes.tokensOf_eq`), and new windows agree (`Window.agrees_fresh`), so the tokens stand
for the same bytes in both. -/
theorem roundTrip : Obligations.RoundTrip := by
  unfold Obligations.RoundTrip
  intro s wb sb lb chunks hlegal htaken hsink hms hn
  obtain ⟨t, ts, n, ht, hpad, henc, hbits, hwt⟩ := execAll_compress hlegal htaken hsink hn
  refine ⟨t, ht, fun d hp hmd hsrc => ?_⟩
  obtain ⟨u, out, hu, hresp, hout, hwu⟩ := execAll_decompress hp hsrc hbits (decodeConfig_headerByte hlegal)
  have hfs := Memory.wf_clearBelow hms (Cfg.ofNats wb sb lb).cap
  have hfd := Memory.wf_clearBelow hmd (Cfg.ofNats wb sb lb).cap
  have hagree := Window.agrees_fresh (Cfg.ofNats wb sb lb).cap d.dec.win s.cmp.win
  rw [henc.tokensOf_eq (ofNats_legal hlegal) hpad, expand_agrees hfd hfs hagree, henc.expand] at hout
  subst hout
  obtain ⟨hcur, hread⟩ := Window.agrees_writeBytes hfd hfs hagree chunks.flatten
  obtain ⟨hwb, -, -⟩ := toNat_ofNats hlegal
  rw [← hwu, ← hwt] at hcur hread
  rw [Cfg.cap, hwb] at hread
  exact ⟨u, hu, hresp, hcur, hread⟩

end Sys2Proof.Machine
end

section
/-! What a DEC.DECOMPRESS returns is narrow (R309): the output in progress is (`State.pullSound`), and the operation
returns that or a fault. -/

namespace Sys2Proof.Machine

/-- A sequence of bytes answered is narrow for the configuration in force. -/
def State.narrowAnswer (s : State) : Prop := ∀ out, s.resp = .bytes out → narrow s.dec.cfg out

theorem narrowAnswer_of_fault {s : State} {f : FaultInfo} (h : s.resp = .fault f) : s.narrowAnswer := by
  intro out hout
  rw [h] at hout
  cases hout

/-- The step that ends a DEC.DECOMPRESS answers its output or a fault. -/
theorem pullStep_ends {s u : State} {p : Pull} (hp : s.pull = some p) (hu : pullStep s = .next u)
    (hend : u.pull = none) : u = closePull p s ∨ ∃ f, u.resp = .fault f := by
  simp only [pullStep, hp] at hu
  cases hs : s.dec.state with
  | faulted => simp only [hs] at hu; cases hu
  | hdrPending =>
    simp only [hs] at hu
    obtain ⟨c, src, br, -, -, -, -, h⟩ | ⟨b, src, br, -, -, h⟩ | ⟨src, h⟩ | ⟨-, h⟩ | ⟨src, h⟩ :=
      headerStep_cases hp hs <;> rw [h] at hu <;> cases hu
    · cases hp.symm.trans hend
    · exact .inr ⟨_, rfl⟩
    · exact .inr ⟨_, rfl⟩
    · exact .inr ⟨_, rfl⟩
    · exact .inr ⟨_, rfl⟩
  | midStream =>
    simp only [hs] at hu
    by_cases hroom : p.hasRoom = true
    · by_cases ho : s.dec.ovf = []
      · rw [if_pos hroom, if_pos ho] at hu
        obtain ⟨t, src, br, -, -, -, -, h⟩ | ⟨src, h⟩ | ⟨-, h⟩ | ⟨src, h⟩ := tokenStep_cases hp hs hroom <;>
          rw [h] at hu <;> cases hu
        · cases hend
        · cases hp.symm.trans hend
        · cases hp.symm.trans hend
        · exact .inr ⟨_, rfl⟩
      · rw [if_pos hroom, if_neg ho] at hu
        cases hu
        cases hend
    · rw [if_neg hroom] at hu
      cases hu
      exact .inl rfl
  | finished =>
    simp only [hs] at hu
    split at hu <;> cases hu
    · cases hend
    · exact .inl rfl

/-- The loop of a DEC.DECOMPRESS: the invariant goes along with it up to the step that answers. -/
theorem pullLoop_narrowAnswer (fuel : Nat) {s t : State} (h : s.dec.Inv) (hps : s.pullSound)
    (hend : s.pull = none → s.narrowAnswer) (ht : pullLoop fuel s = .next t) : t.narrowAnswer := by
  induction fuel generalizing s with
  | zero =>
    cases hp : s.pull with
    | none =>
      rw [pullLoop_none _ hp] at ht
      cases ht
      exact hend hp
    | some p => simp [pullLoop, hp] at ht
  | succ fuel ih =>
    cases hp : s.pull with
    | none =>
      rw [pullLoop_none _ hp] at ht
      cases ht
      exact hend hp
    | some p =>
      rw [pullLoop, hp] at ht
      cases hu : pullStep s with
      | fault f => simp [hu] at ht
      | refused r => simp [hu] at ht
      | next u =>
        simp only [hu] at ht
        obtain ⟨-, hinv, hsound⟩ := pullStep_inv h hps hu
        refine ih hinv hsound (fun hn => ?_) ht
        obtain rfl | ⟨f, hf⟩ := pullStep_ends hp hu hn
        · intro out hout
          cases hout
          obtain ⟨-, -, -, hnarrow⟩ := hps p hp
          exact hnarrow
        · exact narrowAnswer_of_fault hf

/-- An operation that begins is within the invariant: its output is empty. -/
theorem openPull_pullSound (m : Int) {s : State} (hs : s.dec.state ≠ .faulted) : (openPull m s).pullSound := by
  intro p hp
  cases hp
  exact ⟨hs, fun _ _ => Nat.zero_le _, fun _ => rfl, nofun⟩

/-- Settles O47: the invariant goes along the operation's loop (`pullLoop_narrowAnswer`). -/
theorem outputAlphabet : Obligations.OutputAlphabet := by
  unfold Obligations.OutputAlphabet
  intro s t m out hinv _ ht hout
  obtain ⟨-, hdec, -⟩ := (State.inv_iff s).mp hinv
  obtain ⟨-, hs, hloop⟩ := execDecDecompress_eq_next.mp ht
  exact pullLoop_narrowAnswer _ (s := openPull m s) hdec (openPull_pullSound m hs) nofun hloop out hout

end Sys2Proof.Machine
end

section
/-! The decoder undoes the encoder (30_encoding.md): a command is recovered from its transaction under any
configuration, a header from its byte, a token and padding from the stream's bits. -/

namespace Sys2Proof.Machine

/-! ## Commands (R106) -/

/-- A cmp_cmd transaction that the encoder gives decodes to its command (R106). -/
theorem decodeCmp_of_encode {cfg : Cfg} {i : Instr} {c : CmpCmd} (hwf : i.wf cfg = true)
    (h : encode cfg i = some (.cmp c)) : decodeCmp c = i := by
  cases i <;> cases h
  case cmpInit wb sb lb =>
    have hfit : (wb < 2 ^ 4 ∧ sb < 2 ^ 3) ∧ lb < 2 ^ 4 := by simpa [Instr.wf] using hwf
    simpa [decodeCmp, cmpWord, CmpCmd.operands, and_assoc] using hfit
  case cmpCompress data => rfl
  case cmpFlush => rfl
  case cmpReserved => rfl

/-- A max_size within the port's width is recovered from its 32 bits (R106, R261). -/
theorem toInt_ofInt_maxSize {m : Int} (hlow : -(2 : Int) ^ (Config.maxSizeW - 1) ≤ m)
    (hhigh : m < (2 : Int) ^ (Config.maxSizeW - 1)) : (BitVec.ofInt 32 m).toInt = m :=
  BitVec.toInt_ofInt_eq_self (by decide) hlow hhigh

/-- Both reserved codes of dec_cmd keep their low bit (R106). -/
theorem decodeDec_reserved (x : BitVec 1) (m : BitVec 32) :
    decodeDec { code := 1#1 ++ x, maxSize := m } = .decReserved x := by
  obtain rfl | rfl : x = 0 ∨ x = 1 := by revert x; decide
  all_goals simp [decodeDec]

/-- A dec_cmd transaction that the encoder gives decodes to its command (R106). -/
theorem decodeDec_of_encode {cfg : Cfg} {i : Instr} {d : DecCmd} (hwf : i.wf cfg = true)
    (h : encode cfg i = some (.dec d)) : decodeDec d = i := by
  cases i <;> cases h
  case decInit => rfl
  case decDecompress m =>
    obtain ⟨hlow, hhigh⟩ : -(2 : Int) ^ (Config.maxSizeW - 1) ≤ m ∧ m < (2 : Int) ^ (Config.maxSizeW - 1) := by
      simpa only [Instr.wf, Bool.and_eq_true, decide_eq_true_eq] using hwf
    exact congrArg Instr.decDecompress (toInt_ofInt_maxSize hlow hhigh)
  case decReserved x => exact decodeDec_reserved x 0

/-! ## The stream (R91 to R98, R104) -/

/-- A header's fields are recovered from its byte (R91). -/
theorem headerFields_headerByte (w : BitVec 3) (s l : BitVec 2) :
    headerFields (headerByte (w.toNat + 8) (s.toNat + 4) (l.toNat + 5)) = some (w, s, l) := by
  revert w s l
  decide

/-- A token whose fields fit is decoded from its bits, whatever follows them (R94 to R98). -/
theorem decodeStream_tokenBits {c : Cfg} {t : Token} (h : t.instr.wf c = true) (rest : Bits) :
    decodeStream c (tokenBits c t ++ rest) = .ok (t.instr, rest) := by
  simp only [decodeStream, takeToken_tokenBits h]

/-- The wire of a token whose fields fit decodes to it. -/
theorem decode_token {c : Cfg} {t : Token} (h : t.instr.wf c = true) :
    decode c (.stream (tokenBits c t)) = .ok t.instr := by
  have hstream := decodeStream_tokenBits h []
  rw [List.append_nil] at hstream
  rw [decode, hstream]
  rfl

/-- Up to 7 zero bits, where a reference is longer, are padding (R104). -/
theorem decode_pad {c : Cfg} (hw : 7 ≤ c.wb.toNat) (k : BitVec 3) :
    decode c (.stream (List.replicate k.toNat false)) = .ok (.pad k) := by
  have hk : k.toNat ≤ 7 := Nat.le_of_lt_succ k.isLt
  rw [decode, decodeStream, takeToken_pad hk hw]
  simp [decodeTail, hk, Except.map]

/-- Settles O1: by the wire that the instruction has; the padding alone needs that a legal reference is longer. -/
theorem decodeInvertsEncode : Obligations.DecodeInvertsEncode := by
  unfold Obligations.DecodeInvertsEncode
  intro c i hc hwf hwire
  obtain ⟨hwb, -⟩ := (Cfg.legal_iff c).mp hc
  have of_cmp {w : CmpCmd} (h : encode c i = some (.cmp w)) : decode c (.cmp w) = .ok i :=
    congrArg Except.ok (decodeCmp_of_encode hwf h)
  have of_dec {d : DecCmd} (h : encode c i = some (.dec d)) : decode c (.dec d) = .ok i :=
    congrArg Except.ok (decodeDec_of_encode hwf h)
  cases i with
  | header w s l => exact ⟨_, rfl, by rw [decode, decodeHeader, headerFields_headerByte]⟩
  | literal v => exact ⟨_, rfl, decode_token (t := .literal v) hwf⟩
  | reference pos n => exact ⟨_, rfl, decode_token (t := .reference pos n) hwf⟩
  | pad k => exact ⟨_, rfl, decode_pad (by omega) k⟩
  | cmpInit wb sb lb => exact ⟨_, rfl, of_cmp rfl⟩
  | cmpCompress data => exact ⟨_, rfl, of_cmp rfl⟩
  | cmpFlush => exact ⟨_, rfl, of_cmp rfl⟩
  | cmpReserved => exact ⟨_, rfl, of_cmp rfl⟩
  | decInit => exact ⟨_, rfl, of_dec rfl⟩
  | decDecompress m => exact ⟨_, rfl, of_dec rfl⟩
  | decReserved x => exact ⟨_, rfl, of_dec rfl⟩
  | bwWrite value n => cases hwire
  | bwFlush => cases hwire
  | brRead n => cases hwire
  | winWriteByte e b => cases hwire
  | winWriteBytes e seq => cases hwire
  | winSearch pattern start => cases hwire
  | winReadSpan pos len => cases hwire
  | hdrEncode wb sb lb => cases hwire
  | hdrDecode h => cases hwire

/-- Settles O2: the tokens are taken off one after another (`tokensOf_flatMap`), and no token starts in the padding
(`takeToken_pad`). -/
theorem tokensReadBack : Obligations.TokensReadBack := by
  unfold Obligations.TokensReadBack
  intro c ts k hc hwf hk
  obtain ⟨hwb, -⟩ := (Cfg.legal_iff c).mp hc
  rw [tokensOf_flatMap hwf, tokensOf_nil (takeToken_pad hk (by omega)), List.append_nil]

/-- Settles O3: the words of the stream are decoded as written; a command's code alone decides what it is. -/
theorem specWordsDecode : Obligations.SpecWordsDecode := by
  unfold Obligations.SpecWordsDecode
  refine ⟨by decide, by decide, by decide, by decide, by decide, fun wb sb lb ops data => ?_, fun m => ?_⟩
  · exact ⟨rfl, rfl, rfl, rfl, rfl⟩
  · exact ⟨rfl, rfl, decodeDec_reserved 0 m, decodeDec_reserved 1 m⟩

end Sys2Proof.Machine
end

section
/-! One step of a DEC.DECOMPRESS by its outcome (R261 to R263): every fact about steps is read off these cases, and a
fact that every step keeps is kept by the whole operation. -/

namespace Sys2Proof.Machine

/-- What reading may leave: another source, Bit Reader and counter of free values. -/
def State.afterRead (s : State) (src : Source) (br : BitReader) (n : Nat) : State :=
  { s.setIn src br with freeCount := n }

@[simp] theorem afterRead_cmp (s : State) (src : Source) (br : BitReader) (n : Nat) :
    (s.afterRead src br n).cmp = s.cmp := rfl
@[simp] theorem afterRead_dec (s : State) (src : Source) (br : BitReader) (n : Nat) :
    (s.afterRead src br n).dec = { s.dec with br := br } := rfl
@[simp] theorem afterRead_pull (s : State) (src : Source) (br : BitReader) (n : Nat) :
    (s.afterRead src br n).pull = s.pull := rfl
@[simp] theorem afterRead_resp (s : State) (src : Source) (br : BitReader) (n : Nat) :
    (s.afterRead src br n).resp = s.resp := rfl

/-- The state after one step of the operation p, by what the step did. -/
inductive Pull.Stepped (p : Pull) (s : State) : State → Prop where
  | header (c : Cfg) (src : Source) (br : BitReader) (hs : s.dec.state = .hdrPending) (hc : c.legal = true) :
      Stepped p s (openStream c (s.setIn src br))
  | badHeader (h : Byte) (src : Source) (br : BitReader) :
      Stepped p s (enterFault (.unsupportedHeader h) (s.setIn src br))
  | noHeader (src : Source) (br : BitReader) (n : Nat) : Stepped p s (enterFault .endOfStream (s.afterRead src br n))
  | sourceFails (src : Source) : Stepped p s (enterFault .sourceError (s.setSource src))
  | token (t : Token) (src : Source) (br : BitReader) (hs : s.dec.state = .midStream) (hroom : p.hasRoom = true) :
      Stepped p s (copySpan p (tokenSpan s.dec.cfg s.dec.win t) (s.setIn src br))
  | streamEnds (src : Source) (br : BitReader) (n : Nat) : Stepped p s (s.afterRead src br n).finish
  | drains (hroom : p.hasRoom = true) : Stepped p s (drainOverflow p s)
  | closes : Stepped p s (closePull p s)

theorem stepped_headerStep {s u : State} {p : Pull} (hp : s.pull = some p) (hs : s.dec.state = .hdrPending)
    (h : headerStep s = .next u) : p.Stepped s u := by
  obtain ⟨c, src, br, hc, -, -, -, hr⟩ | ⟨b, src, br, -, -, hr⟩ | ⟨src, hr⟩ | ⟨-, hr⟩ | ⟨src, hr⟩ :=
    headerStep_cases hp hs <;> cases hr.symm.trans h
  · exact .header c src br hs hc
  · exact .badHeader b src br
  · exact .noHeader src s.markEos.dec.br (s.freeCount + 1)
  · exact .noHeader s.source s.dec.br s.freeCount
  · exact .sourceFails src

theorem stepped_tokenStep {s u : State} {p : Pull} (hp : s.pull = some p) (hs : s.dec.state = .midStream)
    (hroom : p.hasRoom = true) (h : tokenStep s = .next u) : p.Stepped s u := by
  obtain ⟨t, src, br, -, -, -, -, hr⟩ | ⟨src, hr⟩ | ⟨-, hr⟩ | ⟨src, hr⟩ :=
    tokenStep_cases hp hs hroom <;> cases hr.symm.trans h
  · exact .token t src br hs hroom
  · exact .streamEnds src s.markEos.dec.br (s.freeCount + 1)
  · exact .streamEnds s.source s.dec.br s.freeCount
  · exact .sourceFails src

/-- A step that answers is one of an operation in progress on an engine that is not FAULTED. -/
theorem pullStep_stepped {s u : State} (h : pullStep s = .next u) :
    ∃ p, s.pull = some p ∧ s.dec.state ≠ .faulted ∧ p.Stepped s u := by
  unfold pullStep at h
  cases hp : s.pull with
  | none => simp [hp] at h
  | some p =>
    refine ⟨p, rfl, ?_⟩
    cases hs : s.dec.state <;> simp only [hp, hs] at h
    case hdrPending => exact ⟨nofun, stepped_headerStep hp hs h⟩
    case midStream =>
      refine ⟨nofun, ?_⟩
      split at h
      · next hroom =>
        split at h
        · exact stepped_tokenStep hp hs hroom h
        · cases h
          exact .drains hroom
      · cases h
        exact .closes
    case finished =>
      refine ⟨nofun, ?_⟩
      split at h
      · next hroom =>
        cases h
        exact .drains (Bool.and_eq_true_iff.mp hroom).1
      · cases h
        exact .closes
    case faulted => cases h

/-- What every step of an operation keeps, its loop keeps. -/
theorem pullLoop_keeps {P : State → Prop} (hstep : ∀ s u, P s → pullStep s = .next u → P u) {fuel : Nat}
    {s t : State} (hs : P s) (h : pullLoop fuel s = .next t) : P t := by
  induction fuel generalizing s with
  | zero =>
    rw [pullLoop] at h
    split at h <;> cases h
    exact hs
  | succ fuel ih =>
    rw [pullLoop] at h
    split at h
    · cases h
      exact hs
    · split at h
      · next u hu => exact ih (hstep s u hs hu) h
      · cases h
      · cases h

/-- What an operation in progress keeps step by step, from its opening on, DEC.DECOMPRESS leaves. -/
theorem execDecDecompress_keeps {P : State → Prop} (hstep : ∀ s u, P s → pullStep s = .next u → P u) {m : Int}
    {s t : State} (hs : P (openPull m s)) (h : execDecDecompress m s = .next t) : P t := by
  obtain ⟨-, -, hloop⟩ := execDecDecompress_eq_next.mp h
  exact pullLoop_keeps hstep hs hloop

end Sys2Proof.Machine
end

section
/-! The invariant along every step (R38): a command of the compressor engine keeps that engine's part and leaves the
rest, a command of the decompressor engine the other way round, and a reset sets one engine to values that meet it. -/

namespace Sys2Proof.Machine

/-- The invariant where only the compressor engine, and nothing that the invariant speaks of beside it, has changed. -/
theorem State.Inv.of_cmp {s t : State} (h : s.Inv) (hcmp : t.cmp.Inv) (hdec : t.dec = s.dec) (hpull : t.pull = s.pull) :
    t.Inv := by
  obtain ⟨-, hd, hp⟩ := (State.inv_iff s).mp h
  refine (State.inv_iff t).mpr ⟨hcmp, hdec ▸ hd, ?_⟩
  unfold State.pullSound at hp ⊢
  rwa [hpull, hdec]

/-- The invariant where only the decompressor engine has changed and no operation is in progress. -/
theorem State.Inv.of_dec {s t : State} (h : s.Inv) (hdec : t.dec.Inv) (hcmp : t.cmp = s.cmp) (hpull : t.pull = none) :
    t.Inv := by
  obtain ⟨hc, -, -⟩ := (State.inv_iff s).mp h
  exact (State.inv_iff t).mpr ⟨hcmp ▸ hc, hdec, pullSound_none hpull⟩

/-- A command of the compressor engine, by what its result leaves. -/
theorem answer_inv {s t : State} {x : Result Unit} {reply : Unit → Response} (h : s.Inv)
    (hx : ∀ u, (∀ a, x = .ok a u → u.cmp.Inv ∧ u.dec = s.dec ∧ u.pull = s.pull) ∧
      ∀ f, x = .fault f u → u.cmp.Inv ∧ u.dec = s.dec ∧ u.pull = s.pull)
    (ht : x.answer reply = .next t) : t.Inv := by
  obtain ⟨a, u, hr, rfl⟩ | ⟨f, u, hr, rfl⟩ := answer_eq_next.mp ht
  · obtain ⟨hcmp, hdec, hpull⟩ := (hx u).1 a hr
    exact h.of_cmp hcmp hdec hpull
  · obtain ⟨hcmp, hdec, hpull⟩ := (hx u).2 f hr
    exact h.of_cmp hcmp hdec hpull

theorem pullStep_keeps_inv {s u : State} (h : s.Inv) (hu : pullStep s = .next u) : u.Inv := by
  obtain ⟨hc, hd, hp⟩ := (State.inv_iff s).mp h
  obtain ⟨hcmp, hdec, hpull⟩ := pullStep_inv hd hp hu
  exact (State.inv_iff u).mpr ⟨hcmp ▸ hc, hdec, hpull⟩

theorem execDecDecompress_inv {m : Int} {s t : State} (h : s.Inv) (ht : execDecDecompress m s = .next t) : t.Inv := by
  obtain ⟨hc, hd, -⟩ := (State.inv_iff s).mp h
  obtain ⟨-, hs, -⟩ := execDecDecompress_eq_next.mp ht
  have hopen : (openPull m s).Inv := (State.inv_iff _).mpr ⟨hc, hd, openPull_pullSound m hs⟩
  exact execDecDecompress_keeps (fun _ _ => pullStep_keeps_inv) hopen ht

/-- DEC.INIT leaves a reader and a status that are sound, and claims nothing of the window but its form (R260). -/
theorem Decompressor.inv_init {d : Decompressor} (h : d.Inv) : d.init.Inv := by
  refine ⟨h.mem, fun _ => ⟨nofun, fun _ => Nat.one_pos, fun _ => rfl, fun _ => rfl, nofun⟩, ?_, .inl rfl⟩
  exact ⟨nofun, fun hf => absurd rfl hf⟩

theorem execDecInit_inv {s t : State} (h : s.Inv) (ht : execDecInit s = .next t) : t.Inv := by
  obtain ⟨-, hd, -⟩ := (State.inv_iff s).mp h
  unfold execDecInit at ht
  split at ht
  · cases ht
  · next hp =>
    cases ht
    exact h.of_dec (Decompressor.inv_init hd) rfl hp

theorem takeEvent_inv {e : HostEvent} {s t : State} (h : s.Inv) (ht : takeEvent e s = .next t) : t.Inv := by
  obtain ⟨hc, -, -⟩ := (State.inv_iff s).mp h
  cases e with
  | cmp c =>
    simp only [takeEvent, decodeCmp] at ht
    split at ht
    · exact answer_inv h (fun _ => initCompressor_inv hc) ht
    · exact answer_inv h (fun _ => compressChunk_inv hc) ht
    · exact answer_inv h (fun _ => flushCompressor_inv hc) ht
    · cases ht
  | dec d =>
    simp only [takeEvent, decodeDec] at ht
    split at ht
    · exact execDecInit_inv h ht
    · exact execDecDecompress_inv h ht
    · cases ht
  | resetCmp =>
    cases ht
    exact h.of_cmp Compressor.inv_reset rfl rfl
  | resetDec =>
    cases ht
    exact h.of_dec Decompressor.inv_reset rfl rfl

/-- Settles O59: a step goes on with the operation in progress (`pullStep_keeps_inv`), or takes the host's next event
(`takeEvent_inv`). -/
theorem stepKeepsInvariant : Obligations.StepKeepsInvariant := by
  unfold Obligations.StepKeepsInvariant
  intro s t h ht
  unfold step at ht
  split at ht
  · exact pullStep_keeps_inv h ht
  · split at ht
    · cases ht
      exact h
    · next es _ =>
      have hes : State.Inv { s with pending := es } := (State.inv_iff _).mpr ((State.inv_iff s).mp h)
      exact takeEvent_inv hes ht

/-- Settles O60: both engines' values after reset meet it, and no operation is in progress. -/
theorem resetMeetsInvariant : Obligations.ResetMeetsInvariant :=
  (State.inv_iff _).mpr ⟨Compressor.inv_reset, Decompressor.inv_reset, pullSound_none rfl⟩

end Sys2Proof.Machine
end

section
/-! BW.WRITE and BW.FLUSH used alone (R130 to R136), and the fields of width 0 and above 16 on either side (R132,
R155). -/

namespace Sys2Proof.Machine

/-! ## BW.WRITE -/

/-- BW.WRITE used alone answers what the Bit Writer gives. -/
theorem exec_bwWrite (value n : Nat) (s : State) :
    exec (.bwWrite value n) s = (bwWrite value n s).answer fun _ => .ok :=
  rfl

/-- Settles O7: `bwWrite_accepts`, as an answer. -/
theorem bwWriteAppends : Obligations.BwWriteAppends := by
  unfold Obligations.BwWriteAppends
  intro s value n hf hn hk
  obtain ⟨bytes, bw, hlen, hbits, hnbits, hinv, hfl, hw⟩ := bwWrite_accepts (value := value) hf hn hk
  exact ⟨bytes, bw, by rw [exec_bwWrite, hw]; rfl, hlen, hnbits, hinv, hfl, hbits.symm⟩

/-- A bit string held so far, and more bits behind those pending of it, held together. -/
theorem Packed.append {as bs : Bits} {bytes bytes' : List Byte} {bw bw' : BitWriter} (h : Packed as bytes bw)
    (h' : Packed (bw.bits ++ bs) bytes' bw') : Packed (as ++ bs) (bytes ++ bytes') bw' := by
  refine ⟨?_, h'.inv, h'.flushed⟩
  rw [bytesBits_append, List.append_assoc, h'.eq, ← List.append_assoc, h.eq]

/-- Settles O9: the bits of the two parts are those of the whole field (`fieldBits_add`), and a bit string is held in
one way only (`Packed.unique`). -/
theorem bwWriteSplits : Obligations.BwWriteSplits := by
  unfold Obligations.BwWriteSplits
  intro s value a b hf _ hk hab
  obtain ⟨bytes, bw, hwhole, hexec⟩ := exec_bwWrite_wrote (value := value) hf hab hk
  obtain ⟨bytes₁, bw₁, hhigh, hexec₁⟩ := exec_bwWrite_wrote (value := value / 2 ^ b) (n := a) hf (by omega) hk
  obtain ⟨bytes₂, bw₂, hlow, hexec₂⟩ := exec_bwWrite_wrote (s := (s.wrote bytes₁ bw₁).respond .ok) (value := value)
    (n := b) hhigh.flushed (by omega) fun x hx => hk x (List.mem_of_mem_drop hx)
  have hparts := hhigh.append hlow
  rw [List.append_assoc, ← fieldBits_add] at hparts
  obtain ⟨rfl, rfl⟩ := hwhole.unique hparts
  refine ⟨_, hexec, ?_⟩
  simp only [execAll, hexec₁, hexec₂, wrote_wrote]

/-! ## Width 0, and widths above 16 -/

/-- A field of width 0 leaves the Bit Writer as it is (R132). -/
theorem bwWrite_zero {s : State} (hf : s.cmp.bw.flushed = false) (hinv : s.cmp.bw.inv) (value : Nat) :
    bwWrite value 0 s = .ok () s := by
  have hlt : s.cmp.bw.nbits.toNat < 8 := s.cmp.bw.nbits.isLt
  have hbytes : (s.cmp.bw.nbits.toNat + 0) / 8 = 0 := by omega
  unfold BitWriter.inv at hinv
  rw [bwWrite, if_neg (by simp [hf]), if_neg (by simp [widthOk]), hbytes, putBytes]
  simp [Nat.mod_one, Nat.mod_eq_of_lt hinv, State.setBw]

theorem bwWrite_wide {s : State} (hf : s.cmp.bw.flushed = false) {n : Nat} (hn : Config.nMax < n) (value : Nat) :
    bwWrite value n s = .refused .badWidth := by
  rw [bwWrite, if_neg (by simp [hf]), if_pos (by simpa [widthOk] using hn)]

/-- A read of width 0 returns 0 and leaves the Bit Reader as it is (R155). -/
theorem brRead_zero {s : State} (he : s.dec.br.eos = false) (hlt : s.dec.br.acc.toNat < 2 ^ s.dec.br.nbits.toNat) :
    brRead 0 s = .ok 0 s := by
  have hbytes : bytesNeeded s.dec.br.nbits.toNat 0 = 0 := by
    rw [bytesNeeded]
    omega
  rw [brRead, if_neg (by simp [widthOk]), if_neg (by simp [he]), hbytes, pullBytes]
  simp [giveBits, Nat.mod_one, Nat.mod_eq_of_lt hlt, State.setBr]

/-- Settles O10: a field of width 0 moves no bit, and NMAX is 16. -/
theorem widthCorners : Obligations.WidthCorners := by
  unfold Obligations.WidthCorners
  refine fun s value n => ⟨fun hf => ⟨fun hinv => ?_, fun hn => ?_⟩, fun he hlt => ?_,
    fun hn => execBrRead_of_wide hn s⟩
  · rw [exec_bwWrite, bwWrite_zero hf hinv]
    rfl
  · rw [exec_bwWrite, bwWrite_wide hf hn, answer_refused]
  · rw [exec_brRead, brRead_zero he hlt]
    rfl

/-! ## BW.FLUSH -/

/-- Settles O12: `bwFlush_accepts`, as an answer. -/
theorem bwFlushPads : Obligations.BwFlushPads := by
  unfold Obligations.BwFlushPads
  intro s hf hk
  obtain ⟨bytes, hlen, hbits, hflush⟩ := bwFlush_accepts hf hk
  refine ⟨bytes, ?_, hlen, hbits⟩
  show execBwFlush s = _
  rw [execBwFlush, hflush]
  rfl

end Sys2Proof.Machine
end

section
/-! CMP.COMPRESS and CMP.FLUSH over a sink that takes every byte (R223, R232), and how long a stream is (R308): a token
takes no more bits than the literals of the bytes it stands for. -/

namespace Sys2Proof.Machine

/-- Settles O29: `compressLoop_accepts`, as an answer. -/
theorem compressWritesGreedyTokens : Obligations.CompressWritesGreedyTokens := by
  unfold Obligations.CompressWritesGreedyTokens
  intro s data ha hf hk hn
  obtain ⟨k, bw, hk', hfl, hwf, hexp, hbits, hloop⟩ := compressLoop_accepts data.length data 0 s le_rfl hf hk hn
  have hexec := exec_cmpCompress_of_active ha data
  rw [hloop, answer_ok] at hexec
  exact ⟨bw, k, _, hexec, rfl, hfl, hk', hwf, hexp, hbits⟩

/-- Settles O31: BW.FLUSH in ACTIVE (`bwFlush_accepts`), and then the state. -/
theorem cmpFlushEndsStream : Obligations.CmpFlushEndsStream := by
  unfold Obligations.CmpFlushEndsStream
  intro s ha hf hk
  obtain ⟨bytes, -, hbits, hflush⟩ := bwFlush_accepts hf hk
  refine ⟨bytes, ?_, ?_⟩
  · show (flushCompressor s).answer _ = _
    rw [flushCompressor, if_pos ha, hflush]
    rfl
  · rw [bytesBits_append, hbits, State.writtenBits, List.append_assoc]

/-! ## The length of a stream (R308) -/

/-- A reference is at least MINLEN bytes, whose literals cost no less than it does (R207). -/
theorem length_tokenBits_le (c : Cfg) (w : Window) (t : Token) :
    (tokenBits c t).length ≤ (tokenSpan c w t).length * (c.lb.toNat + 1) := by
  cases t with
  | literal v => simp [tokenBits, tokenSpan]
  | reference pos n =>
    have hcost := (Cfg.minLen_le_iff c (n.toNat + c.minLen)).mp (by omega)
    simp only [tokenBits, tokenSpan, List.length_cons, List.length_append, length_fieldBits, Window.length_readSpan]
    omega

/-- So tokens take no more bits than the literals of all the bytes they stand for. -/
theorem length_flatMap_tokenBits_le (c : Cfg) (w : Window) (ts : List Token) :
    (ts.flatMap (tokenBits c)).length ≤ (expand c w ts).length * (c.lb.toNat + 1) := by
  induction ts generalizing w with
  | nil => simp
  | cons t ts ih =>
    rw [List.flatMap_cons, List.length_append, expand_cons, List.length_append, Nat.add_mul]
    exact Nat.add_le_add (length_tokenBits_le c w t) (ih _)

/-- Settles O46: the stream is a header byte, tokens that stand for the chunks, and less than a byte of padding
(`execAll_compress`). -/
theorem streamLength : Obligations.StreamLength := by
  unfold Obligations.StreamLength
  intro s wb sb lb chunks hlegal htaken hk hn
  obtain ⟨t, ts, n, ht, hpad, henc, hbits, -⟩ := execAll_compress hlegal htaken hk hn
  obtain ⟨-, -, hlb⟩ := toNat_ofNats hlegal
  have htokens :=
    length_flatMap_tokenBits_le (Cfg.ofNats wb sb lb) (Window.fresh (Cfg.ofNats wb sb lb).cap s.cmp.win) ts
  rw [henc.expand, hlb] at htokens
  have hlen := congrArg List.length hbits
  simp only [length_bytesBits, List.length_append, length_fieldBits, List.length_replicate] at hlen
  exact ⟨t, ht, by omega⟩

end Sys2Proof.Machine
end

section
/-! BR.READ used alone (R150 to R153): one read, and a row of reads, of the bit string that the source still holds. -/

namespace Sys2Proof.Machine

/-- Settles O14: `brRead_accepts`, as an answer; the number of bits buffered is what the stream's length leaves. -/
theorem brReadNextBits : Obligations.BrReadNextBits := by
  unfold Obligations.BrReadNextBits
  intro s n he hn h
  obtain ⟨br, hbr, hinv, hbits, hk, hr⟩ := brRead_accepts he hn h
  have hcount : br.nbits.toNat + n = s.dec.br.nbits.toNat + 8 * bytesNeeded s.dec.br.nbits.toNat n := by
    have hlen := congrArg List.length hbits
    simp only [List.length_append, List.length_drop, BitReader.length_bits, length_bytesBits,
      State.length_unreadBits] at hlen h
    omega
  refine ⟨br, bytesNeeded s.dec.br.nbits.toNat n, _, by rw [exec_brRead, hr]; rfl, rfl, rfl, hcount, hinv hbr, hbr,
    ?_⟩
  rw [← hbits, ← leadingBytes_drop _ _ hk]
  rfl

/-- BR.READ used alone where the stream has the bits (R150). -/
theorem exec_brRead_take {n : Nat} {s : State} (he : s.dec.br.eos = false) (hn : n ≤ 16)
    (h : n ≤ s.unreadBits.length) :
    ∃ t, exec (.brRead n) s = .next t ∧ t.resp = .value (bitsValue (s.unreadBits.take n)) ∧ t.dec.br.eos = false ∧
      (s.source.endsCleanly → t.source.endsCleanly) ∧ t.unreadBits = s.unreadBits.drop n := by
  obtain ⟨src, br, hbr, hu, hc, hr⟩ := brRead_take he hn h
  have hexec := exec_brRead n s
  rw [hr, answer_ok] at hexec
  exact ⟨_, hexec, rfl, hbr, hc, hu⟩

/-- A row of reads whose bits the stream has (R150). -/
theorem execAll_brRead {s : State} {ns : List Nat} (he : s.dec.br.eos = false) (hns : ∀ m ∈ ns, m ≤ 16)
    (h : ns.sum ≤ s.unreadBits.length) :
    ∃ t, execAll (ns.map .brRead) s = .next t ∧ t.dec.br.eos = false ∧
      (s.source.endsCleanly → t.source.endsCleanly) ∧ t.unreadBits = s.unreadBits.drop ns.sum := by
  induction ns generalizing s with
  | nil => exact ⟨s, rfl, he, id, rfl⟩
  | cons n ns ih =>
    obtain ⟨hn, hrest⟩ := List.forall_mem_cons.mp hns
    rw [List.sum_cons] at h
    obtain ⟨u, hu, -, heu, hcu, hbits⟩ := exec_brRead_take he hn (by omega)
    obtain ⟨t, ht, het, hct, hbits'⟩ := ih heu hrest (by rw [hbits, List.length_drop]; omega)
    refine ⟨t, ?_, het, hct ∘ hcu, ?_⟩
    · simp only [List.map_cons, execAll, hu, ht]
    · rw [hbits', hbits, List.drop_drop, List.sum_cons]

/-- Settles O15: after the row (`execAll_brRead`) the next read finds its bits (`exec_brRead_take`) or the end
(`brRead_ends`). -/
theorem brReadsAreTheBitString : Obligations.BrReadsAreTheBitString := by
  unfold Obligations.BrReadsAreTheBitString
  intro s ns n he hc hns hn hsum
  obtain ⟨t, ht, het, hct, hbits⟩ := execAll_brRead he hns hsum
  have hlen : t.unreadBits.length = s.unreadBits.length - ns.sum := by rw [hbits, List.length_drop]
  rcases Nat.lt_or_ge t.unreadBits.length n with hlt | hge
  · have hexec := exec_brRead n t
    rw [brRead_ends het hn hlt (hct hc), answer_fault] at hexec
    exact ⟨t, _, ht, hexec, fun _ => by omega, fun _ => rfl⟩
  · obtain ⟨u, hu, hresp, -⟩ := exec_brRead_take het hn hge
    exact ⟨t, u, ht, hu, fun _ => by rw [hresp, hbits], fun _ => by omega⟩

end Sys2Proof.Machine
end

section
/-! The units' operations used alone: they answer, or are refused for an operand or for BW.FLUSHED, never for the
state of an engine (R345; log 6, log 7). -/

namespace Sys2Proof.Machine

/-- BR.READ's EndOfStream used alone writes the Bit Reader and the source only (R153; log 7). -/
theorem execBrRead_status_of_endOfStream {n : Nat} {s t : State} (h : execBrRead n s = .next t)
    (hresp : t.resp = .fault .endOfStream) : t.dec.state = s.dec.state ∧ t.dec.fault = s.dec.fault := by
  unfold execBrRead at h
  obtain ⟨v, src, br, -, hr⟩ | ⟨src, hr⟩ | ⟨-, hr⟩ | ⟨src, hr⟩ | ⟨hr, -⟩ := brRead_cases n s <;>
    rw [hr] at h <;> cases h
  · exact ⟨rfl, rfl⟩
  · exact ⟨rfl, rfl⟩
  · exact ⟨rfl, rfl⟩
  · cases hresp

/-- What an operation of a unit used alone may come to: an answer, or a refusal that the unit itself gives (R345). -/
def UnitOutcome (o : Host.Outcome State Fault Refusal) : Prop :=
  (∃ t, o = .next t) ∨ o = .refused .useAfterFlush ∨ o = .refused .badWidth ∨ o = .refused .badOperand

theorem execBwWrite_unit (value n : Nat) (s : State) : UnitOutcome (execBwWrite value n s) := by
  unfold execBwWrite
  obtain ⟨k, bw, -, -, hw⟩ | ⟨k, hw⟩ | ⟨r, hw, hr⟩ := bwWrite_cases value n s
  · exact .inl ⟨_, by rw [hw, answer_ok]⟩
  · exact .inl ⟨_, by rw [hw, answer_fault]⟩
  · cases hf : s.cmp.bw.flushed with
    | true => exact .inr (.inl (by rw [bwWrite_of_flushed hf, answer_refused]))
    | false =>
      have hn : Config.nMax < n := hr.resolve_left (by simp [hf])
      exact .inr (.inr (.inl (by rw [bwWrite_wide hf hn, answer_refused])))

theorem execBwFlush_unit (s : State) : UnitOutcome (execBwFlush s) := by
  unfold execBwFlush
  obtain ⟨k, hw⟩ | ⟨k, hw⟩ | ⟨hw, -⟩ := bwFlush_cases s
  · exact .inl ⟨_, by rw [hw, answer_ok]⟩
  · exact .inl ⟨_, by rw [hw, answer_fault]⟩
  · exact .inr (.inl (by rw [hw, answer_refused]))

theorem execBrRead_unit (n : Nat) (s : State) : UnitOutcome (execBrRead n s) := by
  unfold execBrRead
  obtain ⟨v, src, br, -, hr⟩ | ⟨src, hr⟩ | ⟨-, hr⟩ | ⟨src, hr⟩ | ⟨hr, -⟩ := brRead_cases n s <;> rw [hr]
  · exact .inl ⟨_, answer_ok _ _ _⟩
  · exact .inl ⟨_, answer_fault _ _ _⟩
  · exact .inl ⟨_, answer_fault _ _ _⟩
  · exact .inl ⟨_, answer_fault _ _ _⟩
  · exact .inr (.inr (.inl (answer_refused _ _)))

theorem execWinWriteByte_unit (e : Engine) (b : Nat) (s : State) : UnitOutcome (execWinWriteByte e b s) := by
  unfold execWinWriteByte
  split
  · exact .inr (.inr (.inr rfl))
  · exact .inl ⟨_, rfl⟩

theorem execWinSearch_unit (pattern : List Byte) (start : Nat) (s : State) :
    UnitOutcome (execWinSearch pattern start s) := by
  unfold execWinSearch
  split
  · split <;> exact .inl ⟨_, rfl⟩
  · exact .inr (.inr (.inr rfl))

theorem execWinReadSpan_unit (pos len : Nat) (s : State) : UnitOutcome (execWinReadSpan pos len s) := by
  unfold execWinReadSpan
  split
  · exact .inl ⟨_, rfl⟩
  · exact .inr (.inr (.inr rfl))

theorem execHdrEncode_unit (wb sb lb : Nat) (s : State) : UnitOutcome (execHdrEncode wb sb lb s) := by
  unfold execHdrEncode hdrEncode
  split <;> exact .inl ⟨_, rfl⟩

theorem execHdrDecode_unit (h : Byte) (s : State) : UnitOutcome (execHdrDecode h s) := by
  unfold execHdrDecode hdrDecode
  split <;> exact .inl ⟨_, rfl⟩

/-- Settles O19: each unit has `UnitOutcome`, which leaves out the refusals that an engine's state gives. -/
theorem unitsAlone : Obligations.UnitsAlone := by
  unfold Obligations.UnitsAlone
  refine fun s => ⟨fun n t => execBrRead_status_of_endOfStream, fun i hi => ?_⟩
  have hunit : UnitOutcome (exec i s) := by
    rcases hi with ⟨value, n, rfl⟩ | rfl | ⟨n, rfl⟩ | ⟨e, b, rfl⟩ | ⟨e, seq, rfl⟩ | ⟨pattern, start, rfl⟩ |
      ⟨pos, len, rfl⟩ | ⟨wb, sb, lb, rfl⟩ | ⟨h, rfl⟩
    · exact execBwWrite_unit value n s
    · exact execBwFlush_unit s
    · exact execBrRead_unit n s
    · exact execWinWriteByte_unit e b s
    · exact .inl ⟨_, rfl⟩
    · exact execWinSearch_unit pattern start s
    · exact execWinReadSpan_unit pos len s
    · exact execHdrEncode_unit wb sb lb s
    · exact execHdrDecode_unit h s
  rcases hunit with ⟨t, ho⟩ | ho | ho | ho <;> simp [ho]

/-! ## The Header codec (R200, R201) -/

theorem exec_hdrEncode_legal {wb sb lb : Nat} (h : configLegal wb sb lb = true) (s : State) :
    exec (.hdrEncode wb sb lb) s = .next (s.respond (.header (headerByte wb sb lb))) := by
  show (hdrEncode wb sb lb s).answer _ = _
  rw [hdrEncode, if_pos h, answer_ok]

theorem exec_hdrEncode_illegal {wb sb lb : Nat} (h : ¬ configLegal wb sb lb = true) (s : State) :
    exec (.hdrEncode wb sb lb) s = .next (s.respond (.fault (.invalidConfig wb sb lb))) := by
  show (hdrEncode wb sb lb s).answer _ = _
  rw [hdrEncode, if_neg h, answer_fault]

theorem exec_hdrDecode_some {h : Byte} {c : Cfg} (hc : decodeConfig h = some c) (s : State) :
    exec (.hdrDecode h) s = .next (s.respond (.config c)) := by
  show (hdrDecode h s).answer _ = _
  rw [hdrDecode, hc, answer_ok]

theorem exec_hdrDecode_none {h : Byte} (hc : decodeConfig h = none) (s : State) :
    exec (.hdrDecode h) s = .next (s.respond (.fault (.unsupportedHeader h))) := by
  show (hdrDecode h s).answer _ = _
  rw [hdrDecode, hc, answer_fault]

/-- Settles O6: HDR.ENCODE by whether its operands are legal, HDR.DECODE by whether the byte is even. -/
theorem headerCodec : Obligations.HeaderCodec := by
  unfold Obligations.HeaderCodec
  refine fun s => ⟨fun wb sb lb => ⟨fun h => ?_, fun h => ?_⟩, fun h => ⟨fun heven => ?_, fun hodd => ?_⟩⟩
  · exact exec_hdrEncode_legal ((configLegal_iff wb sb lb).mpr (by omega)) s
  · exact exec_hdrEncode_illegal (mt (configLegal_iff wb sb lb).mp (by omega)) s
  · obtain ⟨c, hc, -, hwb, hsb, hlb⟩ := decodeConfig_of_even heven
    exact ⟨c, exec_hdrDecode_some hc s, by omega, hsb, hlb⟩
  · have hset : h.getLsbD 0 = true := by
      rw [← Bool.not_eq_false, getLsbD_zero_eq_false_iff]
      omega
    exact exec_hdrDecode_none (decodeConfig_of_reserved_set hset) s

end Sys2Proof.Machine
end

section
/-! The decompressor's instructions one by one (R260, R262, R266 to R270): what each leaves where it runs, and where it
is refused. -/

namespace Sys2Proof.Machine

/-- Settles O33: `Decompressor.init` names every register it writes. -/
theorem decInitResets : Obligations.DecInitResets := by
  unfold Obligations.DecInitResets
  intro s hp
  show execDecInit s = _
  unfold execDecInit
  split
  · next p hp' => cases hp.symm.trans hp'
  · rfl

/-! ## Inside a DEC.DECOMPRESS -/

/-- A stream instruction in the state that fetches it. -/
theorem inPull_of_state {want : DecState} {s : State} {p : Pull} (hp : s.pull = some p) (hs : s.dec.state = want)
    (run : Pull → Host.Outcome State Fault Refusal) : inPull want s run = run p := by
  simp [inPull, hp, hs]

theorem inPull_of_none {s : State} (hp : s.pull = none) (want : DecState)
    (run : Pull → Host.Outcome State Fault Refusal) : inPull want s run = .refused .noOperation := by
  simp [inPull, hp]

theorem inPull_of_other_state {want : DecState} {s : State} {p : Pull} (hp : s.pull = some p)
    (hs : s.dec.state ≠ want) (run : Pull → Host.Outcome State Fault Refusal) :
    inPull want s run = .refused .badState := by
  simp [inPull, hp, hs]

/-- Settles O34: the header's effect is `openStream`, whose window is new. -/
theorem headerOpensStream : Obligations.HeaderOpensStream := by
  unfold Obligations.HeaderOpensStream
  intro s p w sz l hp hs
  refine ⟨headerCfg w sz l, Window.fresh (headerCfg w sz l).cap s.dec.win, inPull_of_state hp hs _,
    toNat_wb_headerCfg w sz l, toNat_sb_headerCfg w sz l, toNat_lb_headerCfg w sz l, rfl, fun i hi => ?_⟩
  exact Window.read_fresh (by rwa [Cfg.cap, toNat_wb_headerCfg]) _

/-- Settles O35: the window after the append is `Window.writeByte`'s. -/
theorem literalAppends : Obligations.LiteralAppends := by
  unfold Obligations.LiteralAppends
  intro s p v hp hs hm
  exact ⟨Window.writeByte s.dec.cfg.cap s.dec.win v, inPull_of_state hp hs _, Memory.read_write hm _ _,
    Window.writeByte_cur (Cfg.cap_pos _) (Cfg.cap_le _) _ _⟩

/-- Without a limit the output takes all of a span (R261). -/
theorem Pull.accepts_of_unlimited {p : Pull} (h : p.limit = none) (n : Nat) : p.accepts n = n := by
  simp [Pull.accepts, Pull.room, h]

/-- With one it takes what the limit leaves (R267). -/
theorem Pull.accepts_of_limit {p : Pull} {l : Nat} (h : p.limit = some l) (n : Nat) :
    p.accepts n = min n (l - p.out.length) := by
  simp [Pull.accepts, Pull.room, h]

/-- A reference whose fields fit copies its span (R267, R345). -/
theorem exec_reference {s : State} {p : Pull} {pos : BitVec 15} {n : BitVec 7} (hp : s.pull = some p)
    (hs : s.dec.state = .midStream) (hok : spanOk s.dec.cfg pos.toNat (n.toNat + s.dec.cfg.minLen) = true) :
    exec (.reference pos n) s =
      .next (copySpan p (Window.readSpan s.dec.cfg.cap s.dec.win pos.toNat (n.toNat + s.dec.cfg.minLen)) s) :=
  (inPull_of_state hp hs _).trans (if_pos hok)

/-- Settles O36: the copy is `copySpan` of the span read, and the limit decides how many bytes the output accepts. -/
theorem referenceCopies : Obligations.ReferenceCopies := by
  unfold Obligations.ReferenceCopies
  intro s p pos n hp hs hpos hn
  have hok : spanOk s.dec.cfg pos.toNat (n.toNat + s.dec.cfg.minLen) = true :=
    spanOk_of_wf (by simp [Instr.wf, hpos, hn])
  obtain ⟨hlt, hone, hmax⟩ := (spanOk_iff _ _ _).mp hok
  refine ⟨_, _, _, exec_winReadSpan hlt hone hmax, exec_reference hp hs hok, fun hl => ?_, fun l hl => ?_⟩
  · simp [Pull.accepts_of_unlimited hl, List.take_of_length_le]
  · rw [Pull.accepts_of_limit hl, Window.length_readSpan]
    refine ⟨fun hfits => ?_, fun hover => ?_⟩
    · rw [Nat.min_eq_left hfits, if_neg (by omega)]
      exact ⟨List.take_of_length_le (by simp), rfl⟩
    · rw [Nat.min_eq_right (by omega), if_pos hover]
      refine ⟨rfl, rfl, fun hle => ?_⟩
      rw [List.length_append, List.length_take, Window.length_readSpan]
      omega

/-- Settles O38: padding is the end of the stream, `markEos` and `finish`. -/
theorem padEndsStream : Obligations.PadEndsStream := by
  unfold Obligations.PadEndsStream
  intro s p k hp hs
  exact ⟨s.markEos.dec.br, s.freeCount + 1, inPull_of_state hp hs _, rfl⟩

/-! ## Elsewhere (log 13, 21, 28) -/

/-- A field value that no field of the configuration holds is out of WIN.READ_SPAN's range. -/
theorem spanOk_of_wide {cfg : Cfg} {pos : BitVec 15} {n : BitVec 7}
    (h : 2 ^ cfg.wb.toNat ≤ pos.toNat ∨ 2 ^ cfg.sb.toNat ≤ n.toNat) :
    ¬ spanOk cfg pos.toNat (n.toNat + cfg.minLen) = true := by
  intro hok
  obtain ⟨hlt, -, hmax⟩ := (spanOk_iff _ _ _).mp hok
  have hadd := Cfg.maxLen_add cfg
  unfold Cfg.cap at hlt
  omega

/-- DEC.INIT inside a DEC.DECOMPRESS (R377). -/
theorem exec_decInit_refused {s : State} {p : Pull} (hp : s.pull = some p) :
    exec .decInit s = .refused .operationInProgress := by
  show execDecInit s = _
  simp [execDecInit, hp]

/-- A second DEC.DECOMPRESS inside one (R377). -/
theorem exec_decDecompress_refused {s : State} {p : Pull} (hp : s.pull = some p) (m : Int) :
    exec (.decDecompress m) s = .refused .operationInProgress := by
  show execDecDecompress m s = _
  simp [execDecDecompress, hp]

/-- Settles O39: a stream instruction is refused by `inPull` before it runs, a reference by `spanOk`, and the engine's
commands by the operation in progress. -/
theorem streamInstructionsElsewhere : Obligations.StreamInstructionsElsewhere := by
  unfold Obligations.StreamInstructionsElsewhere
  refine fun s => ⟨fun hp => ?_, fun p hp => ⟨fun hs w sz l => ?_, fun hs => ?_, fun hs pos n hwide => ?_, ?_, ?_⟩⟩
  · exact ⟨fun _ _ _ => inPull_of_none hp _ _, fun _ => inPull_of_none hp _ _, fun _ _ => inPull_of_none hp _ _,
      fun _ => inPull_of_none hp _ _⟩
  · exact inPull_of_other_state hp hs _
  · exact ⟨fun _ => inPull_of_other_state hp hs _, fun _ _ => inPull_of_other_state hp hs _,
      fun _ => inPull_of_other_state hp hs _⟩
  · exact (inPull_of_state hp hs _).trans (if_neg (spanOk_of_wide hwide))
  · exact exec_decInit_refused hp
  · exact exec_decDecompress_refused hp

end Sys2Proof.Machine
end

section
/-! DEC.DECOMPRESS as a whole: that it ends within its limit (R261, R265), that it decodes no further than max_size asks
(R262, R263), and that it is a run of steps. -/

namespace Sys2Proof.Machine

/-! ## The parts of a step that fetch nothing (R261, R263) -/

/-- Where the output is full the operation returns it. -/
theorem pullStep_of_full {s : State} {p : Pull} (hp : s.pull = some p)
    (hs : s.dec.state = .midStream ∨ s.dec.state = .finished) (hroom : p.hasRoom = false) :
    pullStep s = .next (closePull p s) := by
  rcases hs with hs | hs <;> simp [pullStep, hp, hs, hroom]

/-- Where it has room, bytes of OVF go to it first. -/
theorem pullStep_of_ovf {s : State} {p : Pull} (hp : s.pull = some p)
    (hs : s.dec.state = .midStream ∨ s.dec.state = .finished) (hroom : p.hasRoom = true) (ho : s.dec.ovf ≠ []) :
    pullStep s = .next (drainOverflow p s) := by
  rcases hs with hs | hs <;> simp [pullStep, hp, hs, hroom, ho]

/-! ## At most max_size bytes (R261) -/

/-- An operation in progress has the limit l and is within it; one that has returned bytes returned no more than l. -/
def State.withinLimit (l : Option Nat) (s : State) : Prop :=
  (∀ p, s.pull = some p → p.limit = l ∧ p.fits) ∧
    (s.pull = none → ∀ out n, s.resp = .bytes out → l = some n → out.length ≤ n)

theorem withinLimit_of_pull {l : Option Nat} {s : State} {p : Pull} (hp : s.pull = some p) (hl : p.limit = l)
    (hfit : p.fits) : s.withinLimit l := by
  refine ⟨fun q hq => ?_, fun hn => ?_⟩
  · cases hp.symm.trans hq
    exact ⟨hl, hfit⟩
  · cases hp.symm.trans hn

theorem withinLimit_of_fault {l : Option Nat} {s : State} {f : FaultInfo} (hp : s.pull = none)
    (hr : s.resp = .fault f) : s.withinLimit l := by
  refine ⟨fun q hq => ?_, fun _ out n hout => ?_⟩
  · cases hp.symm.trans hq
  · cases hr.symm.trans hout

/-- A step leaves the limit and puts no more bytes into the output than it has room for. -/
theorem pullStep_withinLimit {l : Option Nat} {s u : State} (h : s.withinLimit l) (hu : pullStep s = .next u) :
    u.withinLimit l := by
  obtain ⟨p, hp, -, hstep⟩ := pullStep_stepped hu
  obtain ⟨hl, hfit⟩ := h.1 p hp
  cases hstep with
  | header c src br _ _ => exact withinLimit_of_pull (p := p) hp hl hfit
  | badHeader b src br => exact withinLimit_of_fault rfl rfl
  | noHeader src br n => exact withinLimit_of_fault rfl rfl
  | sourceFails src => exact withinLimit_of_fault rfl rfl
  | token t src br _ _ => exact withinLimit_of_pull (copySpan_pull _ _ _) hl (Pull.fits_append hfit _)
  | streamEnds src br n => exact withinLimit_of_pull (p := p) hp hl hfit
  | drains _ => exact withinLimit_of_pull (drainOverflow_pull p s) hl (Pull.fits_append hfit _)
  | closes =>
    refine ⟨nofun, fun _ out n hout hn => ?_⟩
    cases hout
    exact hfit n (hl.trans hn)

/-- Settles O40: that it ends is `execDecDecompress_runs`; the limit is kept from its opening on
(`pullStep_withinLimit`). -/
theorem decompressEnds : Obligations.DecompressEnds := by
  unfold Obligations.DecompressEnds
  refine fun s m hp => ⟨fun hs => ?_, fun hs => ?_⟩
  · show execDecDecompress m s = _
    simp [execDecDecompress, hp, hs]
  · obtain ⟨t, ht, hcmp, hsink, hpending, hpt⟩ := execDecDecompress_runs m hp hs
    have hopen : (openPull m s).withinLimit (limitOf m) :=
      withinLimit_of_pull (openPull_pull m s) rfl fun _ _ => Nat.zero_le _
    obtain ⟨-, hlimit⟩ := execDecDecompress_keeps (fun _ _ => pullStep_withinLimit) hopen ht
    refine ⟨t, ht, hpt, hcmp, hsink, hpending, fun out hout hm => ?_⟩
    have hle := hlimit hpt out m.toNat hout (if_neg (by omega))
    omega

/-! ## No further than max_size asks (R262, R263) -/

theorem pullLoop_of_pullStep {fuel : Nat} {s u : State} {p : Pull} (hp : s.pull = some p) (hu : pullStep s = .next u) :
    pullLoop (fuel + 1) s = pullLoop fuel u := by
  rw [pullLoop, hp]
  simp only [hu]

/-- DEC.DECOMPRESS whose second step ends it. -/
theorem exec_decDecompress_of_two_steps {m : Int} {s u t : State} {q : Pull} (hp : s.pull = none)
    (hs : s.dec.state ≠ .faulted) (hfirst : pullStep (openPull m s) = .next u) (hq : u.pull = some q)
    (hsecond : pullStep u = .next t) (ht : t.pull = none) : exec (.decDecompress m) s = .next t := by
  refine execDecDecompress_eq_next.mpr ⟨hp, hs, ?_⟩
  rw [pullLoop_of_pullStep (openPull_pull m s) hfirst, pullLoop_of_pullStep hq hsecond, pullLoop_none _ ht]

theorem openPull_pull_natCast (n : Nat) (s : State) : (openPull n s).pull = some { limit := some n, out := [] } := by
  simp [limitOf]

/-- Where OVF alone fills max_size, its bytes are the answer (R263). -/
theorem exec_decDecompress_of_ovf {s : State} {n : Nat} (hp : s.pull = none)
    (hs : s.dec.state = .midStream ∨ s.dec.state = .finished) (hn : n ≤ s.dec.ovf.length) :
    exec (.decDecompress n) s = .next
      { s with dec := { s.dec with ovf := s.dec.ovf.drop n }, resp := .bytes (s.dec.ovf.take n) } := by
  have hnf : s.dec.state ≠ .faulted := by rcases hs with hs | hs <;> simp [hs]
  have hopen := openPull_pull_natCast n s
  rcases Nat.eq_zero_or_pos n with rfl | hpos
  · have hfull := pullStep_of_full hopen hs rfl
    rw [exec_decDecompress_of_pullStep hp hnf hfull rfl]
    simp only [closePull, openPull, hp, List.drop_zero, List.take_zero]
  · have hdrain := pullStep_of_ovf hopen hs (by simpa [Pull.hasRoom] using hpos)
      (List.ne_nil_of_length_pos (by omega : 0 < s.dec.ovf.length))
    have haccepts : Pull.accepts { limit := some n, out := [] } s.dec.ovf.length = n := by
      simpa [Pull.accepts, Pull.room] using hn
    have hclose := pullStep_of_full (drainOverflow_pull { limit := some n, out := [] } (openPull n s)) hs (by
      simp [Pull.hasRoom, haccepts, hn])
    rw [exec_decDecompress_of_two_steps hp hnf hdrain (drainOverflow_pull _ _) hclose rfl]
    simp only [closePull, drainOverflow, openPull, haccepts, hp, List.nil_append]

/-- With the header pending and max_size 0, the header is read and nothing else (R262). -/
theorem exec_decDecompress_header_alone {s : State} {h : Nat} {rest : Bits} {c : Cfg} (hp : s.pull = none)
    (hs : s.dec.state = .hdrPending) (he : s.dec.br.eos = false) (hh : takeField 8 s.unreadBits = some (h, rest))
    (hc : decodeConfig (BitVec.ofNat 8 h) = some c) :
    ∃ src br, (s.setIn src br).unreadBits = rest ∧ exec (.decDecompress 0) s =
      .next { openStream c (s.setIn src br) with resp := .bytes [] } := by
  obtain ⟨src, br, -, hu, -, hstep⟩ := headerStep_good (s := openPull 0 s) rfl hs he hh hc
  refine ⟨src, br, hu, ?_⟩
  have hfirst := (pullStep_of_hdrPending (s := openPull 0 s) rfl hs).trans hstep
  have hsecond := pullStep_of_full (s := openStream c ((openPull 0 s).setIn src br)) rfl (.inl rfl) rfl
  rw [exec_decDecompress_of_two_steps hp (by simp [hs]) hfirst rfl hsecond rfl]
  simp only [closePull, openStream, openPull, hp]

/-- Settles O41: what is owed by `execDecDecompress_readable`, OVF alone by `exec_decDecompress_of_ovf`, the header
alone by `exec_decDecompress_header_alone`. -/
theorem decompressReturnsOwed : Obligations.DecompressReturnsOwed := by
  unfold Obligations.DecompressReturnsOwed
  refine ⟨fun s m hp hR => ?_, fun s n hp hs hn => exec_decDecompress_of_ovf hp hs hn,
    fun s h rest c hp hs he hh hc => ?_⟩
  · obtain ⟨t, k, ht, hRt, hpt, hw, hcmp, hsink, hpending, hresp, howed, hk, hfin⟩ :=
      execDecDecompress_readable m hp hR
    exact ⟨t, k, ht, hpt, hRt, hresp, howed, hw, hk, hfin, hcmp, hsink, hpending⟩
  · obtain ⟨src, br, hu, hexec⟩ := exec_decDecompress_header_alone hp hs he hh hc
    exact ⟨src, br, _, _, hexec, rfl, hu, rfl, fun i hi => Window.read_fresh hi s.dec.win⟩

/-! ## The operation as a run of steps (log 11) -/

/-- Inside a DEC.DECOMPRESS the machine's step is the operation's. -/
theorem step_of_pull {s : State} {p : Pull} (hp : s.pull = some p) : step s = pullStep s := by simp [step, hp]

/-- The operation's loop is a number of steps. -/
theorem stepMany_of_pullLoop {fuel : Nat} {s t : State} (h : pullLoop fuel s = .next t) :
    ∃ k, stepMany k s = .next t := by
  induction fuel generalizing s with
  | zero =>
    rw [pullLoop] at h
    split at h <;> cases h
    exact ⟨0, rfl⟩
  | succ fuel ih =>
    rw [pullLoop] at h
    split at h
    · cases h
      exact ⟨0, rfl⟩
    · next p hp =>
      split at h
      · next u hu =>
        obtain ⟨k, hk⟩ := ih h
        exact ⟨k + 1, by simp only [stepMany, step_of_pull hp, hu, hk]⟩
      · cases h
      · cases h

/-- Settles O57: DEC.DECOMPRESS is its loop from its opening (`stepMany_of_pullLoop`). -/
theorem decompressIsItsSteps : Obligations.DecompressIsItsSteps := by
  unfold Obligations.DecompressIsItsSteps
  intro s t m _ ht
  obtain ⟨-, -, hloop⟩ := execDecDecompress_eq_next.mp ht
  exact stepMany_of_pullLoop hloop

end Sys2Proof.Machine
end

section
/-! One step of the machine (R106, R261 to R264, R370): the host's next event between operations, and inside a
DEC.DECOMPRESS the header, the token or the end of the stream that the source's bits are. -/

namespace Sys2Proof.Machine

/-! ## The host's next event -/

theorem step_of_no_event {s : State} (hp : s.pull = none) (he : s.pending = []) : step s = .next s := by
  simp [step, hp, he]

theorem step_of_event {s : State} {e : HostEvent} {rest : List HostEvent} (hp : s.pull = none)
    (he : s.pending = e :: rest) : step s = takeEvent e { s with pending := rest } := by
  simp [step, hp, he]

/-- Settles O54: the event is the next in the list (`step_of_event`), and a transaction that the encoder gives decodes
to its command (`decodeCmp_of_encode`, `decodeDec_of_encode`). -/
theorem stepTakesEvent : Obligations.StepTakesEvent := by
  unfold Obligations.StepTakesEvent
  refine fun s rest hp => ⟨step_of_no_event hp, fun c => step_of_event hp, fun d => step_of_event hp,
    fun cfg i hwf => ⟨fun c henc he => ?_, fun d henc he => ?_⟩, fun he => ?_, fun he => ?_⟩
  · rw [step_of_event hp he, takeEvent, decodeCmp_of_encode hwf henc]
  · rw [step_of_event hp he, takeEvent, decodeDec_of_encode hwf henc]
  · exact step_of_event hp he
  · rw [step_of_event hp he, takeEvent, resetDecompressor, ← hp]
    rfl

/-- CMP.INIT with an operand out of range (R221). -/
theorem exec_cmpInit_illegal {wb sb lb : Nat} (h : configLegal wb sb lb = false) (s : State) :
    exec (.cmpInit wb sb lb) s = .next (enterFault (.invalidConfig wb sb lb) s) := by
  show (initCompressor wb sb lb s).answer _ = _
  rw [initCompressor_illegal h, answer_fault]
  rfl

/-- Settles O27: the operands are checked before anything is written (`exec_cmpInit_illegal`), and a transaction without
operands decodes to the defaults. -/
theorem cmpInitIllegal : Obligations.CmpInitIllegal := by
  unfold Obligations.CmpInitIllegal
  refine ⟨rfl, rfl, fun s wb sb lb h => ?_, fun s data rest hp he => step_of_event hp he⟩
  exact exec_cmpInit_illegal (Bool.eq_false_iff.mpr (mt (configLegal_iff wb sb lb).mp (by omega))) s

/-! ## The header -/

/-- Settles O56: the 8 bits are read, and ReadHeader runs the header that `headerFields` finds in them or faults. -/
theorem stepRunsHeader : Obligations.StepRunsHeader := by
  unfold Obligations.StepRunsHeader
  intro s p h rest hp hs he hh
  obtain ⟨hlen, rfl, rfl⟩ := takeField_eq_some hh
  obtain ⟨src, br, -, hu, -, hr⟩ := brRead_take he (by decide) hlen
  have hstep : step s = headerStep s := (step_of_pull hp).trans (pullStep_of_hdrPending hp hs)
  refine ⟨src, br, _, rfl, hu, fun i hi => ?_, fun hi => ?_⟩
  all_goals
    rw [hstep, headerStep, hr]
    unfold decodeHeader at hi
    cases hf : headerFields (BitVec.ofNat 8 (bitsValue (s.unreadBits.take 8))) <;> simp only [hf] at hi ⊢ <;> cases hi
    rfl

/-! ## A token -/

theorem Token.instr_injective : Function.Injective Token.instr := by
  intro t t' h
  cases t <;> cases t' <;> cases h <;> rfl

/-- What is left of the stream when no token is complete decodes to no token. -/
theorem decodeTail_ne_token (bits : Bits) (t : Token) : decodeTail bits ≠ .ok t.instr := by
  unfold decodeTail
  split <;> cases t <;> nofun

/-- The stream decodes to a token exactly where the token can be taken off it. -/
theorem decodeStream_eq_token {c : Cfg} {bits rest : Bits} {t : Token}
    (h : decodeStream c bits = .ok (t.instr, rest)) : takeToken c bits = some (t, rest) := by
  unfold decodeStream at h
  cases ht : takeToken c bits with
  | some r =>
    simp only [ht, Except.ok.injEq, Prod.mk.injEq] at h
    rw [← h.2, ← Token.instr_injective h.1]
  | none =>
    simp only [ht] at h
    cases htail : decodeTail bits with
    | error e => simp [htail, Except.map] at h
    | ok i =>
      simp only [htail, Except.map, Except.ok.injEq, Prod.mk.injEq] at h
      exact absurd (h.1 ▸ htail) (decodeTail_ne_token bits t)

theorem runToken_eq_exec (t : Token) (s : State) : runToken t s = exec t.instr s := by cases t <;> rfl

theorem pullStep_of_token {s : State} {p : Pull} (hp : s.pull = some p) (hs : s.dec.state = .midStream)
    (hroom : p.hasRoom = true) (ho : s.dec.ovf = []) : pullStep s = tokenStep s := by
  simp [pullStep, hp, hs, hroom, ho]

/-! ## The end of the stream -/

/-- The source after the bytes it delivers first and the answer that follows them. -/
def Source.atEnd (src : Source) : Source :=
  { answers := src.answers.drop ((leadingBytes src.answers).length + 1),
    delivered := src.delivered + (leadingBytes src.answers).length }

/-- Bytes delivered on the way do not change where the end is. -/
theorem Source.atEnd_drop {src : Source} {k : Nat} (hk : k ≤ (leadingBytes src.answers).length) :
    Source.atEnd { answers := src.answers.drop k, delivered := src.delivered + k } = src.atEnd := by
  have hsum : k + ((leadingBytes src.answers).length - k) = (leadingBytes src.answers).length := by omega
  simp only [Source.atEnd, leadingBytes_drop _ _ hk, List.length_drop, List.drop_drop, Nat.add_assoc]
  rw [← Nat.add_assoc k, hsum]

/-- Reading over a source that ends cleanly: where it succeeds the end is still ahead, and where it does not the
source is at its end (R153, R270). -/
structure ReadsToEnd {α : Type} (s : State) (x : Result α) : Prop where
  ok : ∀ a t, x = .ok a t → ∃ src br, t = s.setIn src br ∧ br.eos = false ∧ src.endsCleanly ∧
    src.atEnd = s.source.atEnd
  fault : ∀ f t, x = .fault f t → t = (s.setSource s.source.atEnd).markEos

theorem readsToEnd_ok {α : Type} (a : α) {s : State} (he : s.dec.br.eos = false) (hc : s.source.endsCleanly) :
    ReadsToEnd s (Result.ok a s) := by
  refine ⟨fun b t e => ?_, fun _ _ e => (by cases e)⟩
  cases e
  exact ⟨s.source, s.dec.br, rfl, he, hc, rfl⟩

theorem ReadsToEnd.bind {α β : Type} {s : State} {x : Result α} {k : α → State → Result β} (h : ReadsToEnd s x)
    (hk : ∀ a src br, br.eos = false → src.endsCleanly → ReadsToEnd (s.setIn src br) (k a (s.setIn src br))) :
    ReadsToEnd s (x.bind k) := by
  refine ⟨fun b t e => ?_, fun f t e => ?_⟩
  · obtain ⟨a, u, hx, hu⟩ := bind_eq_ok.mp e
    obtain ⟨src, br, rfl, hbr, hc, hend⟩ := h.ok a u hx
    obtain ⟨src', br', ht, hbr', hc', hend'⟩ := (hk a src br hbr hc).ok b t hu
    exact ⟨src', br', ht, hbr', hc', hend'.trans hend⟩
  · rcases bind_eq_fault.mp e with hx | ⟨a, u, hx, hu⟩
    · exact h.fault f t hx
    · obtain ⟨src, br, rfl, hbr, hc, hend⟩ := h.ok a u hx
      have ht := (hk a src br hbr hc).fault f t hu
      rwa [hend] at ht

theorem readsToEnd_brRead {n : Nat} {s : State} (he : s.dec.br.eos = false) (hc : s.source.endsCleanly)
    (hn : n ≤ Config.nMax) : ReadsToEnd s (brRead n s) := by
  rcases Nat.lt_or_ge s.unreadBits.length n with hlt | hge
  · rw [brRead_ends he hn hlt hc]
    refine ⟨fun _ _ e => (by cases e), fun f t e => ?_⟩
    cases e
    rfl
  · obtain ⟨br, hbr, -, -, hk, hr⟩ := brRead_accepts he hn hge
    rw [hr]
    refine ⟨fun a t e => ?_, fun _ _ e => (by cases e)⟩
    cases e
    exact ⟨_, br, rfl, hbr, Source.endsCleanly_drop hc _ _ hk, Source.atEnd_drop hk⟩

theorem readsToEnd_fetchToken {s : State} (he : s.dec.br.eos = false) (hc : s.source.endsCleanly) :
    ReadsToEnd s (fetchToken s) := by
  refine (readsToEnd_brRead he hc (by decide)).bind fun flag src br hbr hc => ?_
  split
  · exact (readsToEnd_brRead hbr hc (lb_le _)).bind fun _ _ _ hbr hc => readsToEnd_ok _ hbr hc
  · exact (readsToEnd_brRead hbr hc (wb_le _)).bind fun _ _ _ hbr hc =>
      (readsToEnd_brRead hbr hc (sb_le _)).bind fun _ _ _ hbr hc => readsToEnd_ok _ hbr hc

/-- Where no token is complete and the source ends, the step reads the source to its end (R270). -/
theorem tokenStep_at_end {s : State} (he : s.dec.br.eos = false) (hc : s.source.endsCleanly)
    (h : takeToken s.dec.cfg s.unreadBits = none) :
    tokenStep s = .next (s.setSource s.source.atEnd).markEos.finish := by
  obtain ⟨src, hf⟩ := fetchToken_none he hc h
  rw [tokenStep, hf, (readsToEnd_fetchToken he hc).fault _ _ hf]
  rfl

/-- Settles O55: a full output and OVF by the parts of a step that fetch nothing, a token by `fetchToken_some`, the
end of the stream by `tokenStep_at_end`. -/
theorem stepRunsToken : Obligations.StepRunsToken := by
  unfold Obligations.StepRunsToken
  intro s p hp
  have hstep := step_of_pull hp
  refine ⟨fun hs => ⟨fun hroom => hstep.trans (pullStep_of_full hp hs hroom), fun hroom ho => ?_⟩,
    fun hs ho => hstep.trans (pullStep_of_finished hp hs ho),
    fun hs hroom ho he => ⟨fun t rest hdec => ?_, fun hnone hc k => ?_⟩⟩
  · rw [hstep, pullStep_of_ovf hp hs hroom ho, drainOverflow]
    cases hl : p.limit with
    | none => rw [Pull.accepts_of_unlimited hl]
    | some l => rw [Pull.accepts_of_limit hl]
  · obtain ⟨src, br, hbr, hu, -, hf⟩ := fetchToken_some he (decodeStream_eq_token hdec)
    refine ⟨src, br, _, rfl, hu, hbr, ?_⟩
    rw [hstep, pullStep_of_token hp hs hroom ho, tokenStep, hf, ← runToken_eq_exec]
  · rw [hstep, pullStep_of_token hp hs hroom ho, tokenStep_at_end he hc hnone]
    show _ = execPad k (s.setSource s.source.atEnd)
    rw [execPad, inPull_of_state (s := s.setSource s.source.atEnd) hp hs]

end Sys2Proof.Machine
end

section
/-! The engines share nothing (R20, R77): an operation of one leaves the other, and the compressor's three commands do
not even read the decompressor engine. -/

namespace Sys2Proof.Machine

/-! ## What an operation leaves of the other engine -/

theorem execWinWriteByte_compressor_beside {b : Nat} {s t : State} (h : execWinWriteByte .compressor b s = .next t) :
    SameBeside s t := by
  unfold execWinWriteByte at h
  split at h
  · cases h
  · cases h
    exact ⟨rfl, rfl, rfl, rfl⟩

theorem execWinWriteBytes_compressor_beside {seq : List Byte} {s t : State}
    (h : execWinWriteBytes .compressor seq s = .next t) : SameBeside s t := by
  cases h
  exact ⟨rfl, rfl, rfl, rfl⟩

theorem execWinSearch_beside {pattern : List Byte} {start : Nat} {s t : State}
    (h : execWinSearch pattern start s = .next t) : SameBeside s t := by
  obtain ⟨r, rfl⟩ := execWinSearch_respond h
  exact ⟨rfl, rfl, rfl, rfl⟩

theorem execWinWriteByte_decompressor_sameCompressor {b : Nat} {s t : State}
    (h : execWinWriteByte .decompressor b s = .next t) : SameCompressor s t := by
  unfold execWinWriteByte at h
  split at h
  · cases h
  · cases h
    exact ⟨rfl, rfl, rfl⟩

theorem execWinWriteBytes_decompressor_sameCompressor {seq : List Byte} {s t : State}
    (h : execWinWriteBytes .decompressor seq s = .next t) : SameCompressor s t := by
  cases h
  exact ⟨rfl, rfl, rfl⟩

theorem execWinReadSpan_sameCompressor {pos len : Nat} {s t : State} (h : execWinReadSpan pos len s = .next t) :
    SameCompressor s t := by
  obtain ⟨r, rfl⟩ := execWinReadSpan_respond h
  exact ⟨rfl, rfl, rfl⟩

/-- An operation that hands bytes to the sink changes nothing beside its engine and the sink. -/
theorem exec_beside_of_sinkTrue {i : Instr} {s t : State}
    (hi : (∃ value n, i = .bwWrite value n) ∨ i = .bwFlush ∨ (∃ wb sb lb, i = .cmpInit wb sb lb) ∨
      (∃ data, i = .cmpCompress data) ∨ i = .cmpFlush) (h : exec i s = .next t) : SameBeside s t := by
  obtain ⟨x, hx, hexec⟩ := exec_sinkTrue (s := s) hi
  exact (hx.answer (hexec.symm.trans h)).2

/-- Settles O49: the sink's operations by `exec_beside_of_sinkTrue`, the others each by its own lemma. -/
theorem enginesShareNothing : Obligations.EnginesShareNothing := by
  unfold Obligations.EnginesShareNothing
  refine fun s t => ⟨fun i hi h => ?_, fun i hi h => ?_⟩
  · rcases hi with hi | hi | hi | hi | hi | ⟨b, rfl⟩ | ⟨seq, rfl⟩ | ⟨pattern, start, rfl⟩
    · exact exec_beside_of_sinkTrue (.inr (.inr (.inl hi))) h
    · exact exec_beside_of_sinkTrue (.inr (.inr (.inr (.inl hi)))) h
    · exact exec_beside_of_sinkTrue (.inr (.inr (.inr (.inr hi)))) h
    · exact exec_beside_of_sinkTrue (.inl hi) h
    · exact exec_beside_of_sinkTrue (.inr (.inl hi)) h
    · exact execWinWriteByte_compressor_beside h
    · exact execWinWriteBytes_compressor_beside h
    · exact execWinSearch_beside h
  · rcases hi with ⟨w, sz, l, rfl⟩ | ⟨v, rfl⟩ | ⟨pos, n, rfl⟩ | ⟨k, rfl⟩ | rfl | ⟨m, rfl⟩ | ⟨n, rfl⟩ | ⟨b, rfl⟩ |
      ⟨seq, rfl⟩ | ⟨pos, len, rfl⟩
    · exact execHeader_sameCompressor h
    · exact execLiteral_sameCompressor h
    · exact execReference_sameCompressor h
    · exact execPad_sameCompressor (k := k) h
    · exact execDecInit_sameCompressor h
    · exact execDecDecompress_sameCompressor h
    · exact execBrRead_sameCompressor h
    · exact execWinWriteByte_decompressor_sameCompressor h
    · exact execWinWriteBytes_decompressor_sameCompressor h
    · exact execWinReadSpan_sameCompressor h

/-! ## What the compressor's commands read -/

/-- The state with another decompressor engine, source and operation in progress. -/
def State.beside (s : State) (d : Decompressor) (src : Source) (p : Option Pull) : State :=
  { s with dec := d, source := src, pull := p }

/-- The same result with another state in it. -/
def Result.mapState {α : Type} (g : State → State) : Result α → Result α
  | .ok a s => .ok a (g s)
  | .fault f s => .fault f (g s)
  | .refused r => .refused r

section
variable (d : Decompressor) (src : Source) (p : Option Pull)

/-- From s with another decompressor engine beside it, y is the result x from s, with that engine beside it. -/
def Ignored {α : Type} (x y : Result α) : Prop := y = x.mapState fun u => u.beside d src p

variable {d src p}

theorem Ignored.bind {α β : Type} {x y : Result α} {k : α → State → Result β} (h : Ignored d src p x y)
    (hk : ∀ a u, Ignored d src p (k a u) (k a (u.beside d src p))) : Ignored d src p (x.bind k) (y.bind k) := by
  subst h
  cases x with
  | ok a u => exact hk a u
  | fault f u => exact rfl
  | refused r => exact rfl

theorem Ignored.answer {α : Type} {x y : Result α} {reply : α → Response} {t : State} (h : Ignored d src p x y)
    (ht : x.answer reply = .next t) : y.answer reply = .next (t.beside d src p) := by
  subst h
  obtain ⟨a, u, rfl, rfl⟩ | ⟨f, u, rfl, rfl⟩ := answer_eq_next.mp ht <;> rfl

theorem Ignored.ite {α : Type} {c : Prop} [Decidable c] {x x' y y' : Result α} (h : Ignored d src p x y)
    (h' : Ignored d src p x' y') : Ignored d src p (if c then x else x') (if c then y else y') := by
  split
  · exact h
  · exact h'

theorem ignored_sinkPut (b : Byte) (s : State) : Ignored d src p (sinkPut b s) (sinkPut b (s.beside d src p)) := by
  unfold sinkPut
  cases h : s.sink.answers with
  | nil => simp only [State.beside, h]; rfl
  | cons a rest => cases a <;> simp only [State.beside, h] <;> rfl

theorem ignored_putBytes (q t m : Nat) (s : State) :
    Ignored d src p (putBytes q t m s) (putBytes q t m (s.beside d src p)) := by
  induction q generalizing m s with
  | zero => exact rfl
  | succ q ih => exact (ignored_sinkPut _ s).bind fun _ u => ih _ u

theorem ignored_bwWrite (value n : Nat) (s : State) :
    Ignored d src p (bwWrite value n s) (bwWrite value n (s.beside d src p)) :=
  .ite rfl (.ite rfl (ignored_putBytes _ _ _ s))

theorem ignored_bwFlush (s : State) : Ignored d src p (bwFlush s) (bwFlush (s.beside d src p)) :=
  .ite rfl (.ite rfl ((ignored_sinkPut _ s).bind fun _ _ => rfl))

theorem ignored_emitReference (idx len : Nat) (s : State) :
    Ignored d src p (emitReference idx len s) (emitReference idx len (s.beside d src p)) :=
  (ignored_bwWrite _ _ s).bind fun _ u => (ignored_bwWrite _ _ u).bind fun _ v => ignored_bwWrite _ _ v

theorem ignored_emitLiteral (b : Byte) (ipos : Nat) (s : State) :
    Ignored d src p (emitLiteral b ipos s) (emitLiteral b ipos (s.beside d src p)) :=
  .ite rfl ((ignored_bwWrite _ _ s).bind fun _ u => ignored_bwWrite _ _ u)

theorem ignored_emitToken (b : Byte) (bs : List Byte) (ipos : Nat) (s : State) :
    Ignored d src p (emitToken (b :: bs) ipos s) (emitToken (b :: bs) ipos (s.beside d src p)) := by
  rw [emitToken_cons, emitToken_cons]
  exact .ite ((ignored_emitReference _ _ s).bind fun _ _ => rfl) ((ignored_emitLiteral b ipos s).bind fun _ _ => rfl)

theorem ignored_compressLoop (fuel : Nat) (rest : List Byte) (ipos : Nat) (s : State) :
    Ignored d src p (compressLoop fuel rest ipos s) (compressLoop fuel rest ipos (s.beside d src p)) := by
  induction fuel generalizing rest ipos s with
  | zero => exact rfl
  | succ fuel ih =>
    cases rest with
    | nil => exact rfl
    | cons b bs => exact (ignored_emitToken b bs ipos s).bind fun _ u => ih _ _ u

theorem ignored_compressChunk (data : List Byte) (s : State) :
    Ignored d src p (compressChunk data s) (compressChunk data (s.beside d src p)) :=
  .ite (ignored_compressLoop _ data 0 s) rfl

theorem ignored_flushCompressor (s : State) :
    Ignored d src p (flushCompressor s) (flushCompressor (s.beside d src p)) :=
  .ite ((ignored_bwFlush s).bind fun _ _ => rfl) rfl

theorem ignored_initCompressor (wb sb lb : Nat) (s : State) :
    Ignored d src p (initCompressor wb sb lb s) (initCompressor wb sb lb (s.beside d src p)) := by
  cases h : configLegal wb sb lb with
  | false =>
    rw [initCompressor_illegal h, initCompressor_illegal h]
    exact rfl
  | true =>
    rw [initCompressor_legal h, initCompressor_legal h]
    exact (ignored_sinkPut _ { s with cmp := s.cmp.init (Cfg.ofNats wb sb lb) }).bind fun _ _ => rfl

end

/-- Settles O50: none of the parts of the three commands reads what stands beside the compressor engine. -/
theorem compressorIgnoresDecompressor : Obligations.CompressorIgnoresDecompressor := by
  unfold Obligations.CompressorIgnoresDecompressor
  intro i s t d src p hi h
  rcases hi with ⟨wb, sb, lb, rfl⟩ | ⟨data, rfl⟩ | rfl
  · exact (ignored_initCompressor wb sb lb s).answer h
  · exact (ignored_compressChunk data s).answer h
  · exact (ignored_flushCompressor s).answer h

end Sys2Proof.Machine
end

section
/-! What every operation keeps of an engine's configuration registers, its FAULTED state and the form of its window's
cells (R29, R341; log 9), and what an initialisation leaves of the cells (log 10). -/

namespace Sys2Proof.Machine

/-! ## The parts of CMP.COMPRESS, whatever the sink answers -/

/-- From s to t the compressor engine has kept its configuration and at most appended to its window. -/
def Appended (s t : State) : Prop :=
  t.cmp.cfg = s.cmp.cfg ∧ ∃ seq, t.cmp.win = Window.writeBytes s.cmp.cfg.cap s.cmp.win seq

theorem Appended.of_same {s t : State} (hcfg : t.cmp.cfg = s.cmp.cfg) (hwin : t.cmp.win = s.cmp.win) : Appended s t :=
  ⟨hcfg, [], hwin⟩

theorem Appended.trans {s t u : State} (h : Appended s t) (g : Appended t u) : Appended s u := by
  obtain ⟨hcfg, seq, hwin⟩ := h
  obtain ⟨gcfg, seq', gwin⟩ := g
  exact ⟨gcfg.trans hcfg, seq ++ seq', by rw [gwin, hwin, hcfg, Window.writeBytes_append]⟩

/-- The engine after SinkError: no register but the status is specified (R336). -/
def SinkLost (f : FaultInfo) (t : State) : Prop := f = .sinkError ∧ ∃ k, t.cmp = Compressor.unspecified k

/-- An operation that at most appends to the compressor's window, or ends with SinkError. -/
structure Appends {α : Type} (s : State) (x : Result α) : Prop where
  ok : ∀ a t, x = .ok a t → Appended s t
  fault : ∀ f t, x = .fault f t → Appended s t ∨ SinkLost f t

theorem appends_ok {α : Type} (a : α) {s t : State} (h : Appended s t) : Appends s (Result.ok a t) := by
  refine ⟨fun b u e => ?_, fun f u e => (by cases e)⟩
  cases e
  exact h

theorem appends_fault {α : Type} {f : FaultInfo} {s t : State} (h : Appended s t ∨ SinkLost f t) :
    Appends s (Result.fault f t : Result α) := by
  refine ⟨fun b u e => (by cases e), fun f' u e => ?_⟩
  cases e
  exact h

theorem appends_refused {α : Type} (r : Refusal) (s : State) : Appends s (Result.refused r : Result α) :=
  ⟨fun b u e => (by cases e), fun f u e => (by cases e)⟩

theorem Appends.bind {α β : Type} {s : State} {x : Result α} {k : α → State → Result β} (h : Appends s x)
    (hk : ∀ a u, Appends u (k a u)) : Appends s (x.bind k) := by
  refine ⟨fun b t e => ?_, fun f t e => ?_⟩
  · obtain ⟨a, u, hx, hu⟩ := bind_eq_ok.mp e
    exact (h.ok a u hx).trans ((hk a u).ok b t hu)
  · rcases bind_eq_fault.mp e with hx | ⟨a, u, hx, hu⟩
    · exact h.fault f t hx
    · exact ((hk a u).fault f t hu).imp_left (h.ok a u hx).trans

theorem Appends.ite {α : Type} {c : Prop} [Decidable c] {s : State} {x y : Result α} (hx : Appends s x)
    (hy : Appends s y) : Appends s (if c then x else y) := by
  split
  · exact hx
  · exact hy

theorem appends_bwWrite (value n : Nat) (s : State) : Appends s (bwWrite value n s) := by
  obtain ⟨k, bw, -, -, hw⟩ | ⟨k, hw⟩ | ⟨r, hw, -⟩ := bwWrite_cases value n s <;> rw [hw]
  · exact appends_ok () (.of_same rfl rfl)
  · exact appends_fault (.inr ⟨rfl, _, rfl⟩)
  · exact appends_refused r s

theorem appends_bwFlush (s : State) : Appends s (bwFlush s) := by
  obtain ⟨k, hw⟩ | ⟨k, hw⟩ | ⟨hw, -⟩ := bwFlush_cases s <;> rw [hw]
  · exact appends_ok () (.of_same rfl rfl)
  · exact appends_fault (.inr ⟨rfl, _, rfl⟩)
  · exact appends_refused _ s

theorem appends_emitReference (idx len : Nat) (s : State) : Appends s (emitReference idx len s) :=
  (appends_bwWrite _ _ s).bind fun _ u => (appends_bwWrite _ _ u).bind fun _ v => appends_bwWrite _ _ v

theorem appends_emitLiteral (b : Byte) (ipos : Nat) (s : State) : Appends s (emitLiteral b ipos s) :=
  .ite (appends_fault (.inl (.of_same rfl rfl))) ((appends_bwWrite _ _ s).bind fun _ u => appends_bwWrite _ _ u)

theorem appends_appendWindow {α : Type} (a : α) (s : State) (seq : List Byte) :
    Appends s (Result.ok a (s.appendWindow .compressor seq)) :=
  appends_ok a ⟨rfl, seq, rfl⟩

theorem appends_emitToken (b : Byte) (bs : List Byte) (ipos : Nat) (s : State) :
    Appends s (emitToken (b :: bs) ipos s) := by
  rw [emitToken_cons]
  exact .ite ((appends_emitReference _ _ s).bind fun _ u => appends_appendWindow _ u _)
    ((appends_emitLiteral b ipos s).bind fun _ u => appends_appendWindow _ u _)

theorem appends_compressLoop (fuel : Nat) (rest : List Byte) (ipos : Nat) (s : State) :
    Appends s (compressLoop fuel rest ipos s) := by
  induction fuel generalizing rest ipos s with
  | zero => exact appends_ok () (.of_same rfl rfl)
  | succ fuel ih =>
    cases rest with
    | nil => exact appends_ok () (.of_same rfl rfl)
    | cons b bs => exact (appends_emitToken b bs ipos s).bind fun _ u => ih _ _ u

theorem appends_compressChunk (data : List Byte) (s : State) : Appends s (compressChunk data s) :=
  .ite (appends_compressLoop _ data 0 s) (appends_refused _ s)

theorem appends_flushCompressor (s : State) : Appends s (flushCompressor s) :=
  .ite ((appends_bwFlush s).bind fun _ _ => appends_ok () (.of_same rfl rfl)) (appends_refused _ s)

/-! ## The compressor engine -/

/-- The cells of a window with unspecified contents are in canonical form (log 9). -/
theorem Window.wf_unspecified (k : Nat) : Memory.wf (Window.unspecified k).buf := Memory.wf_load Memory.wf_nil _ _

/-- What the operation i, from s to t, keeps of the compressor engine. -/
structure CmpKept (i : Instr) (s t : State) : Prop where
  mem : Memory.wf s.cmp.win.buf → Memory.wf t.cmp.win.buf
  cfg : t.cmp.cfg = s.cmp.cfg ∨ t.resp = .fault .sinkError ∨
    (∃ wb sb lb, i = .cmpInit wb sb lb) ∧ t.cmp.cfg.legal = true

theorem Appended.cmpKept {s t : State} (h : Appended s t) (i : Instr) : CmpKept i s t := by
  obtain ⟨hcfg, seq, hwin⟩ := h
  exact ⟨fun hm => hwin ▸ Window.wf_writeBytes hm seq, .inl hcfg⟩

theorem CmpKept.of_same {s t : State} (h : t.cmp = s.cmp) (i : Instr) : CmpKept i s t :=
  (Appended.of_same (congrArg Compressor.cfg h) (congrArg Compressor.win h)).cmpKept i

theorem CmpKept.of_lost {s t : State} {k : Nat} (h : t.cmp = Compressor.unspecified k)
    (hresp : t.resp = .fault .sinkError) (i : Instr) : CmpKept i s t :=
  ⟨fun _ => h ▸ Window.wf_unspecified k, .inr (.inl hresp)⟩

theorem Appends.cmpKept {s t : State} {x : Result Unit} {reply : Unit → Response} (h : Appends s x)
    (ht : x.answer reply = .next t) (i : Instr) : CmpKept i s t := by
  obtain ⟨a, u, hx, rfl⟩ | ⟨f, u, hx, rfl⟩ := answer_eq_next.mp ht
  · exact Appended.cmpKept (t := u.respond (reply a)) (h.ok a u hx) i
  · obtain hu | ⟨rfl, k, hk⟩ := h.fault f u hx
    · exact Appended.cmpKept (t := u.respond (.fault f)) hu i
    · exact .of_lost (t := u.respond (.fault .sinkError)) hk rfl i

theorem execCmpInit_cmpKept {wb sb lb : Nat} {s t : State} (h : execCmpInit wb sb lb s = .next t) :
    CmpKept (.cmpInit wb sb lb) s t := by
  unfold execCmpInit at h
  obtain ⟨-, hr⟩ | ⟨hlegal, k, hr⟩ | ⟨k, hr⟩ := initCompressor_cases wb sb lb s <;> rw [hr] at h <;> cases h
  · exact ⟨id, .inl rfl⟩
  · exact ⟨fun hm => Memory.wf_clearBelow hm _, .inr (.inr ⟨⟨wb, sb, lb, rfl⟩, ofNats_legal hlegal⟩)⟩
  · exact .of_lost rfl rfl _

/-- Appending to either window keeps the compressor engine's configuration, and its window or the append. -/
theorem appended_appendWindow (s : State) (e : Engine) (seq : List Byte) : Appended s (s.appendWindow e seq) := by
  cases e with
  | compressor => exact ⟨rfl, seq, rfl⟩
  | decompressor => exact .of_same rfl rfl

theorem execWinWriteByte_appended {e : Engine} {b : Nat} {s t : State} (h : execWinWriteByte e b s = .next t) :
    Appended s t := by
  unfold execWinWriteByte at h
  split at h
  · cases h
  · cases h
    exact appended_appendWindow s e _

theorem execWinWriteBytes_appended {e : Engine} {seq : List Byte} {s t : State}
    (h : execWinWriteBytes e seq s = .next t) : Appended s t := by
  cases h
  exact appended_appendWindow s e seq

/-- Every operation that answers has `CmpKept`. -/
theorem exec_cmpKept {i : Instr} {s t : State} (h : exec i s = .next t) : CmpKept i s t := by
  cases i with
  | header w sz l => exact .of_same (execHeader_sameCompressor h).1 _
  | literal v => exact .of_same (execLiteral_sameCompressor h).1 _
  | reference pos n => exact .of_same (execReference_sameCompressor h).1 _
  | pad k => exact .of_same (execPad_sameCompressor (k := k) h).1 _
  | cmpInit wb sb lb => exact execCmpInit_cmpKept h
  | cmpCompress data => exact (appends_compressChunk data s).cmpKept h _
  | cmpFlush => exact (appends_flushCompressor s).cmpKept h _
  | cmpReserved => cases h
  | decInit => exact .of_same (execDecInit_sameCompressor h).1 _
  | decDecompress m => exact .of_same (execDecDecompress_sameCompressor h).1 _
  | decReserved x => cases h
  | bwWrite value n => exact (appends_bwWrite value n s).cmpKept h _
  | bwFlush => exact (appends_bwFlush s).cmpKept h _
  | brRead n => exact .of_same (execBrRead_sameCompressor h).1 _
  | winWriteByte e b => exact (execWinWriteByte_appended h).cmpKept _
  | winWriteBytes e seq => exact (execWinWriteBytes_appended h).cmpKept _
  | winSearch pattern start => exact .of_same (execWinSearch_cmp h) _
  | winReadSpan pos len => exact .of_same (execWinReadSpan_cmp h) _
  | hdrEncode wb sb lb => exact .of_same (execHdrEncode_cmp h) _
  | hdrDecode b => exact .of_same (execHdrDecode_cmp h) _

/-! ## The decompressor engine -/

/-- What the operation i, from s to t, keeps of the decompressor engine. -/
structure DecKept (i : Instr) (s t : State) : Prop where
  mem : Memory.wf s.dec.win.buf → Memory.wf t.dec.win.buf
  cfg : t.dec.cfg = s.dec.cfg ∨ t.resp = .fault .sourceError ∨
    s.dec.state = .hdrPending ∧ ((∃ w sz l, i = .header w sz l) ∨ ∃ m, i = .decDecompress m) ∧ t.dec.cfg.legal = true
  faulted : s.dec.state = .faulted → i ≠ .decInit → t.dec.state = .faulted

theorem DecKept.of_same {s t : State} (h : t.dec = s.dec) (i : Instr) : DecKept i s t :=
  ⟨fun hm => h ▸ hm, .inl (congrArg Decompressor.cfg h), fun hs _ => h ▸ hs⟩

theorem execHeader_decKept {w : BitVec 3} {sz l : BitVec 2} {s t : State} (h : execHeader w sz l s = .next t) :
    DecKept (.header w sz l) s t := by
  obtain ⟨p, -, hs, hrun⟩ := inPull_eq_next.mp h
  cases hrun
  refine ⟨fun hm => Memory.wf_clearBelow hm _, .inr (.inr ⟨hs, .inl ⟨w, sz, l, rfl⟩, headerCfg_legal w sz l⟩), ?_⟩
  exact fun hf => absurd (hs.symm.trans hf) (by decide)

theorem execLiteral_decKept {v : Byte} {s t : State} (h : execLiteral v s = .next t) : DecKept (.literal v) s t := by
  obtain ⟨p, -, -, hrun⟩ := inPull_eq_next.mp h
  cases hrun
  exact ⟨fun hm => Window.wf_writeBytes hm _, .inl rfl, fun hf _ => hf⟩

theorem execReference_decKept {pos : BitVec 15} {n : BitVec 7} {s t : State} (h : execReference pos n s = .next t) :
    DecKept (.reference pos n) s t := by
  obtain ⟨-, p, rfl⟩ := execReference_eq_next h
  exact ⟨fun hm => Window.wf_writeBytes hm _, .inl rfl, fun hf _ => hf⟩

theorem execPad_decKept {k : BitVec 3} {s t : State} (h : execPad k s = .next t) : DecKept (.pad k) s t := by
  obtain ⟨p, -, hs, hrun⟩ := inPull_eq_next.mp h
  cases hrun
  exact ⟨id, .inl rfl, fun hf => absurd (hs.symm.trans hf) (by decide)⟩

theorem execDecInit_decKept {s t : State} (h : execDecInit s = .next t) : DecKept .decInit s t := by
  unfold execDecInit at h
  split at h
  · cases h
  · cases h
    exact ⟨id, .inl rfl, fun _ hi => absurd rfl hi⟩

theorem execBrRead_decKept {n : Nat} {s t : State} (h : execBrRead n s = .next t) : DecKept (.brRead n) s t := by
  unfold execBrRead at h
  obtain ⟨v, src, br, -, hr⟩ | ⟨src, hr⟩ | ⟨-, hr⟩ | ⟨src, hr⟩ | ⟨hr, -⟩ := brRead_cases n s <;>
    rw [hr] at h <;> cases h
  · exact ⟨id, .inl rfl, fun hf _ => hf⟩
  · exact ⟨id, .inl rfl, fun hf _ => hf⟩
  · exact ⟨id, .inl rfl, fun hf _ => hf⟩
  · exact ⟨fun _ => Window.wf_unspecified _, .inr (.inl rfl), fun _ _ => rfl⟩

/-- Appending to either window writes no other register of the decompressor engine. -/
theorem appendWindow_decKept (s : State) (e : Engine) (seq : List Byte) (i : Instr) :
    DecKept i s ((s.appendWindow e seq).respond .ok) := by
  cases e with
  | compressor => exact .of_same (s := s) (t := (s.appendWindow .compressor seq).respond .ok) rfl i
  | decompressor => exact ⟨fun hm => Window.wf_writeBytes hm _, .inl rfl, fun hf _ => hf⟩

theorem execWinWriteByte_decKept {e : Engine} {b : Nat} {s t : State} (h : execWinWriteByte e b s = .next t) :
    DecKept (.winWriteByte e b) s t := by
  unfold execWinWriteByte at h
  split at h
  · cases h
  · cases h
    exact appendWindow_decKept s e _ _

theorem execWinWriteBytes_decKept {e : Engine} {seq : List Byte} {s t : State}
    (h : execWinWriteBytes e seq s = .next t) : DecKept (.winWriteBytes e seq) s t := by
  cases h
  exact appendWindow_decKept s e seq _

/-! ### A DEC.DECOMPRESS in progress -/

/-- What a DEC.DECOMPRESS that began in s has kept by the state u: the header, if it has read one, was pending. -/
structure PullKept (s u : State) : Prop where
  mem : Memory.wf s.dec.win.buf → Memory.wf u.dec.win.buf
  cfg : u.dec.cfg = s.dec.cfg ∨ (u.resp = .fault .sourceError ∧ u.pull = none) ∨
    s.dec.state = .hdrPending ∧ u.dec.cfg.legal = true
  pending : u.dec.state = .hdrPending → s.dec.state = .hdrPending

theorem PullKept.step {s u v : State} (h : PullKept s u) (hv : pullStep u = .next v) : PullKept s v := by
  obtain ⟨p, hp, -, hstep⟩ := pullStep_stepped hv
  obtain ⟨hmem, hcfg, hpending⟩ := h
  have hcfg' : u.dec.cfg = s.dec.cfg ∨ s.dec.state = .hdrPending ∧ u.dec.cfg.legal = true :=
    hcfg.imp_right (Or.resolve_left · fun hlost => (by cases hp.symm.trans hlost.2))
  have kept : u.dec.cfg = s.dec.cfg ∨ (v.resp = .fault .sourceError ∧ v.pull = none) ∨
      s.dec.state = .hdrPending ∧ u.dec.cfg.legal = true := hcfg'.imp_right Or.inr
  cases hstep with
  | header c src br hs hc =>
    exact ⟨fun hm => Memory.wf_clearBelow (hmem hm) _, .inr (.inr ⟨hpending hs, hc⟩), nofun⟩
  | badHeader b src br => exact ⟨hmem, kept, nofun⟩
  | noHeader src br n => exact ⟨hmem, kept, nofun⟩
  | sourceFails src => exact ⟨fun _ => Window.wf_unspecified _, .inr (.inl ⟨rfl, rfl⟩), nofun⟩
  | token t src br hs hroom =>
    exact ⟨fun hm => Window.wf_writeBytes (hmem hm) _, kept, hpending⟩
  | streamEnds src br n => exact ⟨hmem, kept, nofun⟩
  | drains hroom => exact ⟨hmem, kept, hpending⟩
  | closes => exact ⟨hmem, kept, hpending⟩

theorem execDecDecompress_decKept {m : Int} {s t : State} (h : execDecDecompress m s = .next t) :
    DecKept (.decDecompress m) s t := by
  obtain ⟨-, hs, -⟩ := execDecDecompress_eq_next.mp h
  have hopen : PullKept s (openPull m s) := ⟨id, .inl rfl, id⟩
  obtain ⟨hmem, hcfg, -⟩ := execDecDecompress_keeps (fun _ _ => PullKept.step) hopen h
  refine ⟨hmem, hcfg.imp_right (Or.imp And.left fun hread => ?_), fun hf => absurd hf hs⟩
  exact ⟨hread.1, .inr ⟨m, rfl⟩, hread.2⟩

/-- Every operation that answers has `DecKept`. -/
theorem exec_decKept {i : Instr} {s t : State} (h : exec i s = .next t) : DecKept i s t := by
  have of_respond : (∃ r, t = s.respond r) → DecKept i s t := by
    rintro ⟨r, rfl⟩
    exact .of_same (s := s) (t := s.respond r) rfl i
  cases i with
  | header w sz l => exact execHeader_decKept h
  | literal v => exact execLiteral_decKept h
  | reference pos n => exact execReference_decKept h
  | pad k => exact execPad_decKept h
  | cmpInit wb sb lb => exact .of_same (exec_dec_of_sinkTrue (by simp) h) _
  | cmpCompress data => exact .of_same (exec_dec_of_sinkTrue (by simp) h) _
  | cmpFlush => exact .of_same (exec_dec_of_sinkTrue (by simp) h) _
  | cmpReserved => cases h
  | decInit => exact execDecInit_decKept h
  | decDecompress m => exact execDecDecompress_decKept h
  | decReserved x => cases h
  | bwWrite value n => exact .of_same (exec_dec_of_sinkTrue (by simp) h) _
  | bwFlush => exact .of_same (exec_dec_of_sinkTrue (by simp) h) _
  | brRead n => exact execBrRead_decKept h
  | winWriteByte e b => exact execWinWriteByte_decKept h
  | winWriteBytes e seq => exact execWinWriteBytes_decKept h
  | winSearch pattern start => exact of_respond (execWinSearch_respond h)
  | winReadSpan pos len => exact of_respond (execWinReadSpan_respond h)
  | hdrEncode wb sb lb => exact of_respond (execHdrEncode_respond h)
  | hdrDecode b => exact of_respond (execHdrDecode_respond h)

/-! ## The statements -/

/-- Settles O51: `exec_cmpKept` and `exec_decKept` of the configuration registers. -/
theorem configWrittenByInit : Obligations.ConfigWrittenByInit := by
  unfold Obligations.ConfigWrittenByInit
  exact fun i s t h => ⟨(exec_cmpKept h).cfg, (exec_decKept h).cfg⟩

/-- Settles O52: a FAULTED engine is neither ACTIVE nor ready for DEC.DECOMPRESS, and stays FAULTED
(`exec_keeps_cmp_faulted`, `exec_decKept`). -/
theorem faultedUntilInit : Obligations.FaultedUntilInit := by
  unfold Obligations.FaultedUntilInit
  refine fun s => ⟨fun hs => ?_, fun hs => ⟨fun hp m => ?_, fun i t hi h => (exec_decKept h).faulted hs hi⟩⟩
  · have hna : s.cmp.state ≠ .active := by simp [hs]
    exact ⟨exec_cmpCompress_refused hna, exec_cmpFlush_refused hna, fun i t => exec_keeps_cmp_faulted hs⟩
  · simp [exec, execDecDecompress, hp, hs]

/-- Settles O53: neither reserved code has a meaning. -/
theorem reservedCommandsRefused : Obligations.ReservedCommandsRefused := by
  unfold Obligations.ReservedCommandsRefused
  exact fun s x => ⟨rfl, rfl⟩

/-- CMP.INIT that answers ok has a legal configuration and a new window (R222). -/
theorem execCmpInit_ok {wb sb lb : Nat} {s t : State} (h : execCmpInit wb sb lb s = .next t) (hresp : t.resp = .ok) :
    configLegal wb sb lb = true ∧ t.cmp.win = Window.fresh (Cfg.ofNats wb sb lb).cap s.cmp.win := by
  unfold execCmpInit at h
  obtain ⟨-, hr⟩ | ⟨hlegal, k, hr⟩ | ⟨k, hr⟩ := initCompressor_cases wb sb lb s <;> rw [hr] at h <;> cases h
  · cases hresp
  · exact ⟨hlegal, rfl⟩
  · cases hresp

/-- A new window's cells at and above its capacity are the old ones (log 10). -/
theorem Window.read_fresh_above {c a : Nat} (h : c ≤ a) (w : Window) :
    Memory.read (Window.fresh c w).buf a = Memory.read w.buf a :=
  (Memory.read_clearBelow w.buf c a).trans (if_neg (by omega))

/-- Settles O58: `exec_cmpKept` and `exec_decKept` of the two windows, and both initialisations make a new window. -/
theorem memoryFormKept : Obligations.MemoryFormKept := by
  unfold Obligations.MemoryFormKept
  refine fun s t => ⟨fun i hcmp hdec h => ⟨(exec_cmpKept h).mem hcmp, (exec_decKept h).mem hdec⟩,
    fun wb sb lb h hresp a ha => ?_, fun w sz l h a ha => ?_⟩
  · obtain ⟨hlegal, hwin⟩ := execCmpInit_ok h hresp
    obtain ⟨hwb, -, -⟩ := toNat_ofNats hlegal
    rw [hwin, Window.read_fresh_above (by rwa [Cfg.cap, hwb])]
  · obtain ⟨p, -, -, hrun⟩ := inPull_eq_next.mp h
    cases hrun
    exact Window.read_fresh_above (by rwa [Cfg.cap, toNat_wb_headerCfg]) _

end Sys2Proof.Machine
end
